-- ==== Sys2Proof/Word.lean ====
section
/-! DEFINITION. The three word types of CORE: the 32-bit data word, the byte, the 23-bit host byte address
(spec 00_scope.md R11, R13). -/

namespace Sys2Proof

/-- The host data word: 32 bits, bit 0 the least significant (R11, R13).  A register, a RAM word, a command word and a
binary32 encoding are all words. -/
abbrev Word := BitVec 32

/-- One byte of a word (R102). -/
abbrev Byte := BitVec 8

/-- A host byte address: `ADDR_W = 23` bits (R11, R100). -/
abbrev Addr := BitVec 23

end Sys2Proof
end

