-- ==== Sys2Proof/Config.lean ====
section
/-! DEFINITION. What this hardware fixes (spec 00_scope.md R10, 10_state.md R44) and what the spec leaves OPEN: the three
transcendental functions of the phase vocoder (46_phase_vocoder_resynth.md R371) and the power-on RAM contents
(10_state.md R69). -/

namespace Sys2Proof.Config

/-- `LOG2_NMAX`: log2 of the largest transform size, 12 on this hardware (R10). -/
def log2NMax : Nat := 12

/-- `LOG2_LMAX`: log2 of the APPLY buffer length, 16 on this hardware (R10). -/
def log2LMax : Nat := 16

/-- `N_MAX = 4096`. -/
def nMax : Nat := 2 ^ log2NMax

/-- `L_MAX = 65536`. -/
def lMax : Nat := 2 ^ log2LMax

/-- The `ID` register's constant, "NWVC" (R44). -/
def idValue : Word := 0x4E575643#32

/-- The `VERSION` register's constant: edition 7, command set 1.0 (R44). -/
def versionValue : Word := 0x00070100#32

/-- The `CAPS` register's constant: [4:0] LOG2_NMAX, [12:8] LOG2_LMAX (R44). -/
def capsValue : Word := BitVec.ofNat 32 (log2NMax + 2 ^ 8 * log2LMax)

/-- What a RAM byte that no cell lists reads as.  DESIGN CHOICE (assumption log 3): the spec leaves the power-on contents
of the RAMs open (`POWERON_RAM`, R69); a power-on draw is held as the cells of the memory `State.powerOn` is given. -/
def unlistedByte : Byte := 0#8

/-- FREE VALUE (R371, decision D27; assumption log 1): an uninterpreted function the OPEN parameter `F_atan2` is made
from.  It has no body: nothing in Lean can evaluate it. -/
opaque rawAtan2 : Word → Word → Word

/-- FREE VALUE (R371, decision D27; assumption log 1): an uninterpreted function `F_cos` is made from. -/
opaque rawCos : Word → Word

/-- FREE VALUE (R371, decision D27; assumption log 1): an uninterpreted function `F_sin` is made from. -/
opaque rawSin : Word → Word

end Sys2Proof.Config
end

