-- ==== Sys2Proof/Syntax.lean ====
section
/-! DEFINITION. The syntax of CORE: its 18 commands (spec 30_encoding.md R142), the names of the host-visible registers and
RAMs (20_memory.md R109), and the host's events on the port (20_memory.md R103 to R107, 70_reset_and_hazards.md R460). -/

namespace Sys2Proof

/-- The commands, one constructor per row of the opcode table (R142).  A command word carries no register numbers and no
immediate but NORM (R141); only FFT.MAG and FFT.PWR have that flag (R144). -/
inductive Instr where
  | nop
  | srst
  | fftCfg
  | fftFwd
  | fftInv
  | fftMag (norm : Bool)
  | fftPwr (norm : Bool)
  | olaCfg
  | olaProc
  | olaApply
  | olaRst
  | olsCfg
  | olsProc
  | olsApply
  | olsRst
  | pvCfg
  | pvProc
  | pvRst
  deriving DecidableEq, Repr

/-- The host-visible registers of R109, under the spec's own names. -/
inductive Reg where
  | id | version | caps | gstatus | cmd | arg0 | arg1 | arg2 | result | err | errInfo | errCmd | errAddr | irqEn
  | fftStat | fftN
  | olaStat | olaN | olaK | olaH | olaIncnt | olaOutptr
  | olsStat | olsN | olsK | olsH | olsIncnt | olsOutptr
  | pvStat | pvN | pvH | pvShift | pvIncnt | pvOutptr | pvWsq | pvGain | pvWet | pvDry
  deriving DecidableEq, Repr

/-- The data RAMs of R109. -/
inductive Ram where
  | x | re | im | p | olaKram | olaSigin | olaSigout | olsKram | olsSigin | olsSigout | pvWin
  deriving DecidableEq, Repr

/-- What a mapped address names: a register, or word `i` of a RAM. -/
inductive Target where
  | reg (r : Reg)
  | ram (r : Ram) (i : Nat)
  deriving DecidableEq, Repr

/-- The width of a host access (R103): only 32-bit accesses are served, every other raises BusError (R110). -/
inductive AccessWidth where
  | bits8 | bits16 | bits32 | bits64 | burst
  deriving DecidableEq, Repr

/-- A host access reads, or writes a word. -/
inductive AccessKind where
  | read
  | write (v : Word)
  deriving DecidableEq, Repr

/-- One host access: `MemRead` or `MemWrite` of R106 and R107, with the width R103 checks. -/
structure HostAccess where
  width : AccessWidth
  addr : Addr
  kind : AccessKind
  deriving DecidableEq, Repr

/-- What the outside world does to CORE: an access on the host port, or the reset input (R460). -/
inductive HostEvent where
  | access (a : HostAccess)
  | hardReset
  deriving DecidableEq, Repr

end Sys2Proof
end

