-- ==== Sys2Proof/Machine/AddressMap.lean ====
section
/-! DEFINITION. The address map of CORE (spec 20_memory.md R109, R111): where each register and RAM word lies, and what a
byte address names. -/

namespace Sys2Proof

/-- The byte address of a register (R109). -/
def Reg.addr : Reg → Nat
  | .id => 0x000000 | .version => 0x000004 | .caps => 0x000008 | .gstatus => 0x00000C | .cmd => 0x000010
  | .arg0 => 0x000014 | .arg1 => 0x000018 | .arg2 => 0x00001C | .result => 0x000020 | .err => 0x000024
  | .errInfo => 0x000028 | .errCmd => 0x00002C | .errAddr => 0x000030 | .irqEn => 0x000034
  | .fftStat => 0x000100 | .fftN => 0x000104
  | .olaStat => 0x000200 | .olaN => 0x000204 | .olaK => 0x000208 | .olaH => 0x00020C | .olaIncnt => 0x000210
  | .olaOutptr => 0x000214
  | .olsStat => 0x000300 | .olsN => 0x000304 | .olsK => 0x000308 | .olsH => 0x00030C | .olsIncnt => 0x000310
  | .olsOutptr => 0x000314
  | .pvStat => 0x000400 | .pvN => 0x000404 | .pvH => 0x000408 | .pvShift => 0x00040C | .pvIncnt => 0x000410
  | .pvOutptr => 0x000414 | .pvWsq => 0x000418 | .pvGain => 0x00041C | .pvWet => 0x000420 | .pvDry => 0x000424

/-- Every register of R109. -/
def Reg.all : List Reg :=
  [.id, .version, .caps, .gstatus, .cmd, .arg0, .arg1, .arg2, .result, .err, .errInfo, .errCmd, .errAddr, .irqEn,
   .fftStat, .fftN, .olaStat, .olaN, .olaK, .olaH, .olaIncnt, .olaOutptr,
   .olsStat, .olsN, .olsK, .olsH, .olsIncnt, .olsOutptr,
   .pvStat, .pvN, .pvH, .pvShift, .pvIncnt, .pvOutptr, .pvWsq, .pvGain, .pvWet, .pvDry]

/-- The byte address of a RAM's word 0 (R109). -/
def Ram.base : Ram → Nat
  | .x => 0x100000 | .re => 0x104000 | .im => 0x108000 | .p => 0x10C000
  | .olaKram => 0x200000 | .olaSigin => 0x240000 | .olaSigout => 0x280000
  | .olsKram => 0x300000 | .olsSigin => 0x340000 | .olsSigout => 0x380000
  | .pvWin => 0x400000

/-- How many words a RAM has (R109, R111). -/
def Ram.words : Ram → Nat
  | .x | .olaKram | .olsKram | .pvWin => Config.nMax
  | .re | .im | .p => Config.nMax / 2 + 1
  | .olaSigin | .olsSigin => Config.lMax
  | .olaSigout | .olsSigout => Config.lMax + Config.nMax - 1

/-- Every RAM of R109. -/
def Ram.all : List Ram :=
  [.x, .re, .im, .p, .olaKram, .olaSigin, .olaSigout, .olsKram, .olsSigin, .olsSigout, .pvWin]

/-- The byte address of a RAM's word `i` (R109). -/
def Ram.wordAddr (r : Ram) (i : Nat) : Nat := r.base + 4 * i

/-- Does the word-aligned byte address `a` lie in the RAM? (R109, R111: only the listed words exist.) -/
def Ram.holds (r : Ram) (a : Nat) : Bool := r.base ≤ a && a < r.base + 4 * r.words

/-- Where a target lies. -/
def Target.addr : Target → Nat
  | .reg r => r.addr
  | .ram r i => r.wordAddr i

/-- What a byte address names: a register, a RAM word, or nothing (R109).  A misaligned address names nothing (R103). -/
def target (addr : Addr) : Option Target :=
  let a := addr.toNat
  if a % 4 = 0 then
    match Reg.all.find? (fun r => r.addr == a) with
    | some r => some (.reg r)
    | none => (Ram.all.find? (fun r => r.holds a)).map (fun r => .ram r ((a - r.base) / 4))
  else none

/-- Does the access raise BusError? Another width, a misaligned or an unmapped address (R110). -/
def HostAccess.target? (a : HostAccess) : Option Target :=
  if a.width = .bits32 then target a.addr else none

end Sys2Proof
end

