-- ==== Sys2Proof/WellFormed.lean ====
section
/-! DEFINITION. Well-formed terms of the syntax.  A command carries at most one flag, whose every value is encodable, so every
term of `Instr` is well formed.  A host access is well formed when it raises no BusError (spec 20_memory.md R103, R110). -/

namespace Sys2Proof

/-- Every command term has an encoding (spec 30_encoding.md R141, R144): the constructors hold nothing an encoding could
refuse. -/
def Instr.wellFormed : Instr → Bool
  | .nop | .srst | .fftCfg | .fftFwd | .fftInv => true
  | .fftMag _ | .fftPwr _ => true
  | .olaCfg | .olaProc | .olaApply | .olaRst => true
  | .olsCfg | .olsProc | .olsApply | .olsRst => true
  | .pvCfg | .pvProc | .pvRst => true

/-- The width check of R103. -/
def HostAccess.wordWide (a : HostAccess) : Bool := a.width == .bits32

/-- The alignment check of R103. -/
def HostAccess.aligned (a : HostAccess) : Bool := a.addr.toNat % 4 == 0

/-- The address is one R109 lists. -/
def HostAccess.mapped (a : HostAccess) : Bool := (target a.addr).isSome

/-- A host access that raises no BusError (R110). -/
def HostAccess.wellFormed (a : HostAccess) : Bool := a.wordWide && a.aligned && a.mapped

end Sys2Proof
end

