-- ==== Sys2Proof/Decode.lean ====
section
/-! DEFINITION. Decoding and encoding of command words (spec 30_encoding.md R140 to R148). -/

namespace Sys2Proof

/-- Why a word is no command: the bullets of R147.  Each of them raises IllegalCommand. -/
inductive IllegalWord where
  /-- bits [31:9] are not zero -/
  | mbzNotZero
  /-- UNIT is 5 to 15 -/
  | undefinedUnit
  /-- OP is not an operation of UNIT -/
  | undefinedOp
  /-- NORM is 1 on a command other than FFT.MAG and FFT.PWR -/
  | normNotAllowed
  /-- fewer than the four bytes of a command (R148) -/
  | truncated
  deriving DecidableEq, Repr

/-- What a word decodes to. -/
inductive Decoded where
  | command (i : Instr)
  | illegal (why : IllegalWord)
  deriving DecidableEq, Repr

/-- The command a decoding gives, if any. -/
def Decoded.instr? : Decoded → Option Instr
  | .command i => some i
  | .illegal _ => none

/-- OP, bits [3:0] (R140). -/
def fieldOp (v : Word) : Nat := v.toNat % 16

/-- UNIT, bits [7:4] (R140). -/
def fieldUnit (v : Word) : Nat := v.toNat / 16 % 16

/-- NORM, bit [8] (R140). -/
def fieldNorm (v : Word) : Nat := v.toNat / 256 % 2

/-- MBZ, bits [31:9] (R140). -/
def fieldMbz (v : Word) : Nat := v.toNat / 512

/-- The opcode map of R142: each defined word and the command it selects. -/
def commandTable : List (Word × Instr) :=
  [(0x00000000#32, .nop), (0x00000001#32, .srst),
   (0x00000010#32, .fftCfg), (0x00000011#32, .fftFwd), (0x00000012#32, .fftInv),
   (0x00000013#32, .fftMag false), (0x00000113#32, .fftMag true),
   (0x00000014#32, .fftPwr false), (0x00000114#32, .fftPwr true),
   (0x00000020#32, .olaCfg), (0x00000021#32, .olaProc), (0x00000022#32, .olaApply), (0x00000023#32, .olaRst),
   (0x00000030#32, .olsCfg), (0x00000031#32, .olsProc), (0x00000032#32, .olsApply), (0x00000033#32, .olsRst),
   (0x00000040#32, .pvCfg), (0x00000041#32, .pvProc), (0x00000043#32, .pvRst)]

/-- Is OP an operation of the (defined) UNIT? (R147) -/
def definedOp (unit op : Nat) : Bool :=
  match unit with
  | 0 => op < 2
  | 1 => op < 5
  | 4 => op < 4 && op != 2
  | _ => op < 4

/-- Which bullet of R147 an undefined word falls under. -/
def illegalReason (v : Word) : IllegalWord :=
  if fieldMbz v ≠ 0 then .mbzNotZero
  else if 5 ≤ fieldUnit v then .undefinedUnit
  else if !definedOp (fieldUnit v) (fieldOp v) then .undefinedOp
  else .normNotAllowed

/-- Decoding reads only the word, and matches it exactly (R142, R146, R148). -/
def decodeWord (v : Word) : Decoded :=
  match commandTable.find? (fun row => row.1 == v) with
  | some row => .command row.2
  | none => .illegal (illegalReason v)

/-- The little-endian word of four bytes (20_memory.md R102). -/
def wordOfBytes (b0 b1 b2 b3 : Byte) : Word :=
  BitVec.ofNat 32 (b0.toNat + 2 ^ 8 * b1.toNat + 2 ^ 16 * b2.toNat + 2 ^ 24 * b3.toNat)

/-- The four bytes of a word, the lowest address first (R102). -/
def bytesOfWord (v : Word) : List Byte :=
  [BitVec.ofNat 8 v.toNat, BitVec.ofNat 8 (v.toNat / 2 ^ 8), BitVec.ofNat 8 (v.toNat / 2 ^ 16), BitVec.ofNat 8 (v.toNat / 2 ^ 24)]

/-- Decoding of any bytes: a command is one word of four bytes (R148), little-endian (R102). -/
def decodeBytes : List Byte → Decoded
  | b0 :: b1 :: b2 :: b3 :: _ => decodeWord (wordOfBytes b0 b1 b2 b3)
  | _ => .illegal .truncated

/-- The instruction the decoder reads from a row of the opcode table: `w` numbers the bits, `nbits` says how many the table
gives, every bit above is 0. -/
def decodeTableWord (nbits w : Nat) : Option Instr :=
  (decodeBytes (bytesOfWord (BitVec.ofNat 32 (w % 2 ^ nbits)))).instr?

/-- A word of the one format CMDW from its fields (R140). -/
def cmdw (unit op : Nat) (norm : Bool) : Word := BitVec.ofNat 32 (op + 16 * unit + 256 * norm.toNat)

/-- UNIT of a command (R142). -/
def Instr.unit : Instr → Nat
  | .nop | .srst => 0
  | .fftCfg | .fftFwd | .fftInv | .fftMag _ | .fftPwr _ => 1
  | .olaCfg | .olaProc | .olaApply | .olaRst => 2
  | .olsCfg | .olsProc | .olsApply | .olsRst => 3
  | .pvCfg | .pvProc | .pvRst => 4

/-- OP of a command (R142). -/
def Instr.op : Instr → Nat
  | .nop | .fftCfg | .olaCfg | .olsCfg | .pvCfg => 0
  | .srst | .fftFwd | .olaProc | .olsProc | .pvProc => 1
  | .fftInv | .olaApply | .olsApply => 2
  | .fftMag _ | .olaRst | .olsRst | .pvRst => 3
  | .fftPwr _ => 4

/-- NORM of a command (R144): 0 but for FFT.MAG and FFT.PWR. -/
def Instr.norm : Instr → Bool
  | .fftMag b | .fftPwr b => b
  | .nop | .srst | .fftCfg | .fftFwd | .fftInv => false
  | .olaCfg | .olaProc | .olaApply | .olaRst => false
  | .olsCfg | .olsProc | .olsApply | .olsRst => false
  | .pvCfg | .pvProc | .pvRst => false

/-- The word of a command, from the fields of R140 and R142. -/
def encode (i : Instr) : Word := cmdw i.unit i.op i.norm

/-- The four bytes of a command's word. -/
def encodeBytes (i : Instr) : List Byte := bytesOfWord (encode i)

end Sys2Proof
end

