-- ==== Sys2Proof/Machine/State.lean ====
section
/-! DEFINITION. The state of CORE as plain data (spec 10_state.md), its reset, and the reasons a step can stop. -/

namespace Sys2Proof.Machine

/-- The error codes 1 to 8 (60_exceptions.md R420). -/
inductive ErrorCode where
  | invalidSize | invalidKernelSize | invalidHopSize | notConfigured | illegalCommand | invalidLength | invalidParam | busError
  deriving DecidableEq, Repr

/-- The two strategies of the block convolution engine: the units OLA and OLS (43_block_convolution.md). -/
inductive Strategy where
  | overlapAdd | overlapSave
  deriving DecidableEq, Repr

/-- A complex value: a pair of binary32 words (42_streaming_fft.md R230). -/
structure Cx where
  re : Word
  im : Word
  deriving DecidableEq, Repr

/-- One packing-table entry (Ar, Ai, Br, Bi) (10_state.md R54, 41_fft_twiddle_rom.md R205). -/
structure Pk where
  ar : Word
  ai : Word
  br : Word
  bi : Word
  deriving DecidableEq, Repr

/-- The FFT unit (10_state.md R52, R54).  `cfg` is FFT_STAT[0]; `pk` holds the entries 0..N/2-1 in use. -/
structure FftUnit where
  cfg : Bool
  n : Word
  pk : List Pk
  deriving DecidableEq, Repr

/-- One block convolution engine (10_state.md R55, R56, R59).  `cfg` is E_STAT[0], `incnt` is `wp`, `outptr` is `rp`.  The
arrays hold their elements in use: `pk` N/2, `kr` and `ki` N/2+1, `inb` H, `tail` K-1, `outq` H. -/
structure ConvEngine where
  cfg : Bool
  n : Word
  k : Word
  h : Word
  incnt : Word
  outptr : Word
  pk : List Pk
  kr : List Word
  ki : List Word
  inb : List Word
  tail : List Word
  outq : List Word
  deriving DecidableEq, Repr

/-- The phase vocoder (10_state.md R61 to R64).  `cfg` is PV_STAT[0], `incnt` is `cnt`, `outptr` is `rp`.  The arrays hold
their elements in use: `winl` and `dl` N, `pk` N/2, `tail` N-H, `outq` H, `prev` and `psi` N/2+1. -/
structure PvUnit where
  cfg : Bool
  n : Word
  h : Word
  shift : Word
  incnt : Word
  outptr : Word
  wsq : Word
  gain : Word
  wet : Word
  dry : Word
  omega : Word
  winl : List Word
  pk : List Pk
  dl : List Word
  tail : List Word
  outq : List Word
  prev : List Word
  psi : List Word
  deriving DecidableEq, Repr

/-- What the host port last answered (20_memory.md R104, R106, R107, R110): nothing yet, a write that completed, a word read,
or a read that ended with the bus error response (which returns 0). -/
inductive PortResponse where
  | idle
  | written
  | data (v : Word)
  | busErrorData (v : Word)
  deriving DecidableEq, Repr

/-- The state of CORE (10_state.md R40): the global registers (R41, R42, R47 to R51), the units (R52 to R64) and the data RAMs
as cells (R53, R57, R58, R60).  `port` and `resp` are the MODEL's own (assumption log 2): the host's events in the order of
issue, which the step takes one at a time (R104), and the port's last answer.  The constant registers ID, VERSION and CAPS
(R44) and the computed GSTATUS (R45) and IRQ (60_exceptions.md R430) are functions of the rest. -/
structure State where
  arg0 : Word
  arg1 : Word
  arg2 : Word
  result : Word
  err : Word
  errInfo : Word
  errCmd : Word
  errAddr : Word
  irqEn : Word
  fft : FftUnit
  ola : ConvEngine
  ols : ConvEngine
  pv : PvUnit
  mem : List Host.Cell
  port : List HostEvent
  resp : PortResponse
  deriving DecidableEq, Repr

/-- The FFT unit after reset (10_state.md R70).  The cached table is unspecified and unobservable (R54); it is empty. -/
def FftUnit.reset : FftUnit := { cfg := false, n := 0#32, pk := [] }

/-- A convolution engine after reset (R70): unconfigured, so no element of a streaming array is in use; the cached tables are
unspecified and unobservable (R59) and empty. -/
def ConvEngine.reset : ConvEngine :=
  { cfg := false, n := 0#32, k := 0#32, h := 0#32, incnt := 0#32, outptr := 0#32,
    pk := [], kr := [], ki := [], inb := [], tail := [], outq := [] }

/-- The phase vocoder after reset (R70): PV_WET is 1.0, everything else 0; the latched tables are unspecified and unobservable
(R64) and empty, PV_OMEGA is +0.0. -/
def PvUnit.reset : PvUnit :=
  { cfg := false, n := 0#32, h := 0#32, shift := 0#32, incnt := 0#32, outptr := 0#32, wsq := 0#32, gain := 0#32,
    wet := 0x3F800000#32, dry := 0#32, omega := 0#32,
    winl := [], pk := [], dl := [], tail := [], outq := [], prev := [], psi := [] }

/-- CORE at power-on, with a draw of the RAM contents (R69, R70, 70_reset_and_hazards.md R460): `ram` lists the bytes whose
drawn value is not `Config.unlistedByte`. -/
def State.powerOn (ram : List Host.Cell) : State :=
  { arg0 := 0#32, arg1 := 0#32, arg2 := 0#32, result := 0#32, err := 0#32, errInfo := 0#32, errCmd := 0#32, errAddr := 0#32,
    irqEn := 0#32, fft := FftUnit.reset, ola := ConvEngine.reset, ols := ConvEngine.reset, pv := PvUnit.reset,
    mem := ram, port := [], resp := .idle }

/-- The machine right after reset, with no RAM byte listed (assumption log 3). -/
def State.reset : State := State.powerOn []

/-- Why a step can stop with a fault: for no reason.  Every bad access or command of the spec is recorded in the error record
and the machine goes on (60_exceptions.md R427, R429), so no step of this model faults and the type has no constructor. -/
inductive Fault where
  deriving DecidableEq, Repr

/-- Why an instruction can have no meaning. -/
inductive Refusal where
  /-- Raised only by an arm of `exec` whose instruction has no meaning yet (none in this model); safe. -/
  | notModelled (mnemonic : String)
  deriving DecidableEq, Repr

end Sys2Proof.Machine
end

