-- ==== Sys2Proof/Machine/Flags.lean ====
section
/-! DEFINITION. The status flags of CORE: CFG bits, error bits, GSTATUS and the interrupt line (spec 10_state.md R45, R47, R65;
60_exceptions.md R420, R430).  CORE has no condition codes. -/

namespace Sys2Proof.Machine

/-- The code's number, which is its bit in ERR and IRQ_EN (R420). -/
def ErrorCode.toNat : ErrorCode → Nat
  | .invalidSize => 1 | .invalidKernelSize => 2 | .invalidHopSize => 3 | .notConfigured => 4
  | .illegalCommand => 5 | .invalidLength => 6 | .invalidParam => 7 | .busError => 8

/-- Bits 8:1, the only writable bits of ERR and IRQ_EN (R47, R51, 20_memory.md R107). -/
def errMask : Word := 0x000001FE#32

/-- The bit of an error code. -/
def ErrorCode.bit (c : ErrorCode) : Word := 1#32 <<< c.toNat

/-- A STAT register: bit 0 is CFG, the others are reserved and read 0 (10_state.md R52, R55, R61). -/
def statWord (cfg : Bool) : Word := if cfg then 1#32 else 0#32

/-- The level of the interrupt output (R430). -/
def State.irq (s : State) : Bool := s.err &&& s.irqEn &&& errMask != 0#32

/-- GSTATUS: copies of the CFG bits in [3:0], ERR_ANY in [8], IRQ in [9] (R45). -/
def State.gstatus (s : State) : Word :=
  BitVec.ofNat 32 (s.fft.cfg.toNat + 2 * s.ola.cfg.toNat + 4 * s.ols.cfg.toNat + 8 * s.pv.cfg.toNat +
    2 ^ 8 * (s.err != 0#32).toNat + 2 ^ 9 * s.irq.toNat)

end Sys2Proof.Machine
end

