-- ==== Sys2Proof/Machine/Memory.lean ====
section
/-! DEFINITION. The data RAMs as a list of (byte address, byte) cells in one canonical form (spec 20_memory.md R102, R109;
10_state.md R69), and the reads and writes every command and host access goes through. -/

namespace Sys2Proof.Machine

/-- The cells of the data RAMs, keyed by host byte address. -/
abbrev Memory := List Host.Cell

/-- The canonical form: addresses strictly rising, no cell that holds what an unlisted address reads as. -/
abbrev Memory.wf (m : Memory) : Prop :=
  m.Pairwise (fun c d => c.1 < d.1) ∧ ∀ c ∈ m, c.2 ≠ Config.unlistedByte

/-- Every cell lies in a RAM window of the address map (20_memory.md R109). -/
abbrev Memory.inRam (m : Memory) : Prop := ∀ c ∈ m, Ram.all.any (fun r => r.holds c.1) = true

/-- The byte at an address. -/
def Memory.byte (m : Memory) (a : Nat) : Byte := (m.lookup a).getD Config.unlistedByte

/-- The cells of consecutive bytes from an address, less those an unlisted address reads as anyway. -/
def cellsFrom : Nat → List Byte → Memory
  | _, [] => []
  | a, b :: bs => if b = Config.unlistedByte then cellsFrom (a + 1) bs else (a, b) :: cellsFrom (a + 1) bs

/-- Replace the bytes from an address on. -/
def Memory.write (m : Memory) (a : Nat) (bs : List Byte) : Memory :=
  m.filter (fun c => c.1 < a) ++ cellsFrom a bs ++ m.filter (fun c => a + bs.length ≤ c.1)

/-- The little-endian word at a byte address (R102). -/
def Memory.word (m : Memory) (a : Nat) : Word :=
  wordOfBytes (m.byte a) (m.byte (a + 1)) (m.byte (a + 2)) (m.byte (a + 3))

/-- `n` consecutive words from a byte address. -/
def Memory.words (m : Memory) (a n : Nat) : List Word := (List.range n).map (fun i => m.word (a + 4 * i))

/-- Write consecutive words from a byte address (R102). -/
def Memory.writeWords (m : Memory) (a : Nat) (ws : List Word) : Memory := m.write a (ws.flatMap bytesOfWord)

end Sys2Proof.Machine
end

