-- ==== Sys2Proof/Machine/Ops.lean ====
section
/-! DEFINITION. The shared operations over the state: the RAMs, RESULT, the units, and raising an error (spec
60_exceptions.md R421, R422, R426), through which every command is run. -/

namespace Sys2Proof.Machine

/-- Words 0..n-1 of a RAM. -/
def State.ramWords (s : State) (r : Ram) (n : Nat) : List Word := Memory.words s.mem r.base n

/-- Write a RAM's words from index 0 on; its other words are untouched. -/
def State.setRam (s : State) (r : Ram) (ws : List Word) : State := { s with mem := Memory.writeWords s.mem r.base ws }

/-- RESULT <- v (10_state.md R42). -/
def State.setResult (s : State) (v : Word) : State := { s with result := v }

/-- Replace the FFT unit. -/
def State.setFft (s : State) (u : FftUnit) : State := { s with fft := u }

/-- Replace the phase vocoder. -/
def State.setPv (s : State) (u : PvUnit) : State := { s with pv := u }

/-- The engine of a strategy. -/
def State.engine (s : State) : Strategy → ConvEngine
  | .overlapAdd => s.ola
  | .overlapSave => s.ols

/-- Replace the engine of a strategy. -/
def State.setEngine (s : State) (e : ConvEngine) : Strategy → State
  | .overlapAdd => { s with ola := e }
  | .overlapSave => { s with ols := e }

/-- Record what the port answers. -/
def State.respond (s : State) (r : PortResponse) : State := { s with resp := r }

/-- ERRINFO for a command word: [11:8] OP, [7:4] UNIT, [3:0] CODE (R421). -/
def errInfoOf (c : ErrorCode) (v : Word) : Word := BitVec.ofNat 32 (c.toNat + 16 * fieldUnit v + 256 * fieldOp v)

/-- Raise a command error: the error record is written and nothing else changes (R421, R422). -/
def State.raise (s : State) (c : ErrorCode) (v : Word) : State :=
  { s with err := s.err ||| c.bit, errInfo := errInfoOf c v, errCmd := v }

/-- Raise BusError: ERR[8], ERRINFO and ERRADDR; ERRCMD is not written (R426, 20_memory.md R110). -/
def State.raiseBusError (s : State) (a : Addr) : State :=
  { s with err := s.err ||| ErrorCode.busError.bit, errInfo := BitVec.ofNat 32 ErrorCode.busError.toNat, errAddr := a.setWidth 32 }

/-- Every register and internal array at its reset value, the data RAMs unchanged (10_state.md R70, 70_reset_and_hazards.md
R460, R461).  The host's events still to come are not CORE's. -/
def State.softReset (s : State) : State := { State.powerOn s.mem with port := s.port, resp := s.resp }

/-- Run a command: its checks first, each before any change; the first failing check raises its error and nothing else
happens; otherwise the effect (60_exceptions.md R421 to R423, 30_encoding.md R146). -/
def State.run (s : State) (i : Instr) (failure : State → Option ErrorCode) (effect : State → State) :
    Host.Outcome State Fault Refusal :=
  match failure s with
  | some c => .next (s.raise c (encode i))
  | none => .next (effect s)

end Sys2Proof.Machine
end

