-- ==== Sys2Proof/Machine/Global.lean ====
section
/-! DEFINITION. The global commands NOP and SRST (spec 40_global.md R180, R181). -/

namespace Sys2Proof.Machine

/-- A command that checks nothing. -/
def noFailure (_ : State) : Option ErrorCode := none

/-- NOP changes nothing (R180). -/
def execNop (s : State) : Host.Outcome State Fault Refusal := s.run .nop noFailure id

/-- SRST: the soft reset of the whole core, the data RAMs unchanged (R181). -/
def execSrst (s : State) : Host.Outcome State Fault Refusal := s.run .srst noFailure State.softReset

end Sys2Proof.Machine
end

