-- ==== Sys2Proof/Machine/Float32.lean ====
section
/-! DEFINITION. The binary32 primitives (spec 00_scope.md R15 to R18): every operation computes exactly over the integers and
rounds once, to nearest, ties to even.  A finite magnitude is counted in units of 2^-149, the least subnormal. -/

namespace Sys2Proof.Machine

/-- +0.0 (R16). -/
def fZero : Word := 0x00000000#32
/-- 1.0 (R16). -/
def fOne : Word := 0x3F800000#32
/-- 0.5 (R16). -/
def fHalf : Word := 0x3F000000#32
/-- -0.5 (R16). -/
def fNegHalf : Word := 0xBF000000#32
/-- π rounded to binary32 (R16). -/
def fPi : Word := 0x40490FDB#32
/-- 2π rounded to binary32 (R16). -/
def fTwoPi : Word := 0x40C90FDB#32
/-- The canonical NaN (R17). -/
def fNaN : Word := 0x7FC00000#32
/-- Bits 30:0 of an infinity. -/
def infMag : Nat := 0x7F800000

/-- Bit 31, the sign (R18). -/
def fSign (x : Word) : Bool := 2 ^ 31 ≤ x.toNat
/-- Bits 30:0, the magnitude's encoding. -/
def fMag (x : Word) : Nat := x.toNat % 2 ^ 31
/-- Bits 30:23, the biased exponent (R18). -/
def fExp (x : Word) : Nat := fMag x / 2 ^ 23
/-- Bits 22:0, the fraction (R18). -/
def fFrac (x : Word) : Nat := x.toNat % 2 ^ 23

/-- Is the word a NaN, of any payload? -/
def isNaN (x : Word) : Bool := infMag < fMag x
/-- Is the word an infinity, of either sign? -/
def isInf (x : Word) : Bool := fMag x == infMag
/-- Is the word a finite value? -/
def isFinite (x : Word) : Bool := fMag x < infMag
/-- Is the word +0.0 or -0.0? -/
def isZero (x : Word) : Bool := fMag x == 0

/-- The magnitude of a finite word, in units of 2^-149; subnormals are kept (R17). -/
def fUnits (x : Word) : Nat := if fExp x = 0 then fFrac x else (2 ^ 23 + fFrac x) * 2 ^ (fExp x - 1)

/-- The value of a finite word, in units of 2^-149. -/
def fValue (x : Word) : Int := if fSign x then -(fUnits x : Int) else (fUnits x : Int)

/-- The magnitude encoding (bits 30:0) of `num / den` units of 2^-149, rounded once to nearest, ties to even; overflow gives
infinity (R15, R17).  `k` is the binade's exponent above the units, `d` the divisor that leaves a significand of at most 24
bits. -/
def roundMag (num den : Nat) : Nat :=
  let k := Nat.log2 (num / den) - 23
  let d := den * 2 ^ k
  let q := num / d
  let r := num % d
  let up := d < 2 * r || (2 * r == d && q % 2 == 1)
  let bits := k * 2 ^ 23 + (if up then q + 1 else q)
  if infMag ≤ bits then infMag else bits

/-- A word from its sign and its magnitude encoding (R18). -/
def packWord (neg : Bool) (mag : Nat) : Word := BitVec.ofNat 32 ((if neg then 2 ^ 31 else 0) + mag)

/-- The word of the other sign. -/
def fNeg (x : Word) : Word := packWord (!fSign x) (fMag x)

/-- `fadd(a, b)` (R15).  An exact zero sum is +0 unless both operands are -0 (R17). -/
def fadd (a b : Word) : Word :=
  if isNaN a || isNaN b then fNaN
  else if isInf a then (if isInf b && fSign a != fSign b then fNaN else a)
  else if isInf b then b
  else
    let v := fValue a + fValue b
    if v = 0 then packWord (fSign a && fSign b) 0
    else packWord (decide (v < 0)) (roundMag v.natAbs 1)

/-- `fsub(a, b)` (R15): the sum with the negated operand. -/
def fsub (a b : Word) : Word := fadd a (fNeg b)

/-- `fmul(a, b)` (R15). -/
def fmul (a b : Word) : Word :=
  let neg := fSign a != fSign b
  if isNaN a || isNaN b then fNaN
  else if isInf a || isInf b then (if isZero a || isZero b then fNaN else packWord neg infMag)
  else packWord neg (roundMag (fUnits a * fUnits b) (2 ^ 149))

/-- `fdiv(a, b)` (R15). -/
def fdiv (a b : Word) : Word :=
  let neg := fSign a != fSign b
  if isNaN a || isNaN b then fNaN
  else if isInf a then (if isInf b then fNaN else packWord neg infMag)
  else if isInf b then packWord neg 0
  else if isZero b then (if isZero a then fNaN else packWord neg infMag)
  else packWord neg (roundMag (fUnits a * 2 ^ 149) (fUnits b))

/-- The integer square root from the top bit down: `r` is the root so far, `2 ^ i` the next bit tried. -/
def isqrtFrom (n : Nat) : Nat → Nat → Nat
  | 0, r => r
  | i + 1, r => isqrtFrom n i (if (r + 2 ^ i) * (r + 2 ^ i) ≤ n then r + 2 ^ i else r)

/-- The integer part of the square root. -/
def isqrt (n : Nat) : Nat := isqrtFrom n (Nat.log2 n / 2 + 1) 0

/-- `fsqrt(a)` (R15): the root of a magnitude `u` is `sqrt (u * 2^149)` units; an inexact root is marked by an odd half unit,
which rounds as the exact root does. -/
def fsqrt (a : Word) : Word :=
  if isNaN a then fNaN
  else if isZero a then a
  else if fSign a then fNaN
  else if isInf a then a
  else
    let n := fUnits a * 2 ^ 149
    let r := isqrt n
    packWord false (roundMag (if r * r = n then 2 * r else 2 * r + 1) 2)

/-- `fceil(a)` (R15): the least integral value at or above; exact; of a value in (-1, 0) it is -0. -/
def fceil (a : Word) : Word :=
  if isNaN a then fNaN
  else if isInf a then a
  else if fSign a then packWord true (roundMag (fUnits a / 2 ^ 149 * 2 ^ 149) 1)
  else packWord false (roundMag ((fUnits a + (2 ^ 149 - 1)) / 2 ^ 149 * 2 ^ 149) 1)

/-- `i2f(n)` (R15). -/
def i2f (n : Nat) : Word := packWord false (roundMag (n * 2 ^ 149) 1)

/-- `ftrunc_u(p)` (R15): the integer part of a finite non-negative value. -/
def ftruncU (p : Word) : Nat := fUnits p / 2 ^ 149

/-- The order of the non-NaN words: both zeros are 0, an infinity is beyond every finite value. -/
def fKey (x : Word) : Int := if fSign x then -(fMag x : Int) else (fMag x : Int)

/-- `flt(a, b)` (R15): false if either is NaN. -/
def flt (a b : Word) : Bool := !isNaN a && !isNaN b && decide (fKey a < fKey b)

/-- `2 ^ -e` as a binary32 constant, exact for `e` up to 126: INV_M and TWO_OVER_N are `2 ^ -(n-1)` for N = 2^n (R16). -/
def powNeg (e : Nat) : Word := packWord false (roundMag (2 ^ 149) (2 ^ e))

/-- INV_M = 2^-(n-1) for N = 2^n (R16). -/
def invM (n : Nat) : Word := powNeg (Nat.log2 n - 1)

/-- TWO_OVER_N = 2^(1-n) for N = 2^n (R16). -/
def twoOverN (n : Nat) : Word := powNeg (Nat.log2 n - 1)

end Sys2Proof.Machine
end

