-- ==== Sys2Proof/Machine/Operands.lean ====
section
/-! DEFINITION. The operands of the commands (spec 30_encoding.md R143) and the checks on sizes (42_streaming_fft.md R243,
43_block_convolution.md R281, 46_phase_vocoder_resynth.md R374). -/

namespace Sys2Proof.Machine

/-- ARG0 as a u32 operand: the whole word as an unsigned integer (R143). -/
abbrev State.arg0Nat (s : State) : Nat := s.arg0.toNat

/-- ARG1 as a u32 operand (R143). -/
abbrev State.arg1Nat (s : State) : Nat := s.arg1.toNat

/-- A transform size FFT.CFG and PV.CFG accept: a power of two in 2..N_MAX (R243, R374). -/
def validSize (n : Nat) : Bool := 2 ≤ n && n ≤ Config.nMax && n &&& (n - 1) == 0

/-- The least power of two at or above `max nreq 2`, over unbounded integers (R281). -/
def roundedSize (nreq : Nat) : Nat := 2 ^ (Nat.log2 (max nreq 2 - 1) + 1)

/-- A shift factor PV.CFG accepts: finite and not below zero; -0.0 passes (R374). -/
def validShift (x : Word) : Bool := isFinite x && (!fSign x || isZero x)

/-- A window energy PV.CFG accepts: finite and above zero (R374). -/
def validEnergy (x : Word) : Bool := isFinite x && flt fZero x

end Sys2Proof.Machine
end

