-- ==== Sys2Proof/Machine/TwiddleRom.lean ====
section
/-! DEFINITION. The constant twiddle ROM (spec 41_fft_twiddle_rom.md R200 to R204): a quarter wave of correctly rounded cosines,
from which R203's symmetries give the rest.  The words were computed from R200's formula with an exact-to-400-bits π; the ROM
they give has the SHA-256 digest R204 states (checked in Sys2Proof/Tests/Slice0.lean). -/

namespace Sys2Proof.Machine

/-- C[0..127], eight words a row, the first in the top bits (R200). -/
def romPiece0 : List Nat := [
  0x3F800000_3F7FFFEC_3F7FFFB1_3F7FFF4E_3F7FFEC4_3F7FFE13_3F7FFD39_3F7FFC39,
  0x3F7FFB11_3F7FF9C1_3F7FF84A_3F7FF6AC_3F7FF4E6_3F7FF2F8_3F7FF0E3_3F7FEEA7,
  0x3F7FEC43_3F7FE9B8_3F7FE705_3F7FE42B_3F7FE129_3F7FDE00_3F7FDAAF_3F7FD737,
  0x3F7FD397_3F7FCFD1_3F7FCBE2_3F7FC7CC_3F7FC38F_3F7FBF2A_3F7FBA9E_3F7FB5EA,
  0x3F7FB10F_3F7FAC0D_3F7FA6E3_3F7FA191_3F7F9C18_3F7F9678_3F7F90B1_3F7F8AC2,
  0x3F7F84AB_3F7F7E6D_3F7F7808_3F7F717B_3F7F6AC7_3F7F63EC_3F7F5CE9_3F7F55BF,
  0x3F7F4E6D_3F7F46F4_3F7F3F54_3F7F378C_3F7F2F9D_3F7F2787_3F7F1F49_3F7F16E4,
  0x3F7F0E58_3F7F05A4_3F7EFCC9_3F7EF3C7_3F7EEA9D_3F7EE14C_3F7ED7D4_3F7ECE34,
  0x3F7EC46D_3F7EBA7F_3F7EB069_3F7EA62D_3F7E9BC9_3F7E913D_3F7E868B_3F7E7BB1,
  0x3F7E70B0_3F7E6588_3F7E5A38_3F7E4EC1_3F7E4323_3F7E375E_3F7E2B72_3F7E1F5E,
  0x3F7E1324_3F7E06C2_3F7DFA38_3F7DED88_3F7DE0B1_3F7DD3B2_3F7DC68C_3F7DB940,
  0x3F7DABCC_3F7D9E30_3F7D906E_3F7D8285_3F7D7474_3F7D663D_3F7D57DE_3F7D4959,
  0x3F7D3AAC_3F7D2BD8_3F7D1CDD_3F7D0DBC_3F7CFE73_3F7CEF03_3F7CDF6C_3F7CCFAE,
  0x3F7CBFC9_3F7CAFBD_3F7C9F8A_3F7C8F31_3F7C7EB0_3F7C6E08_3F7C5D3A_3F7C4C44,
  0x3F7C3B28_3F7C29E5_3F7C187A_3F7C06E9_3F7BF531_3F7BE353_3F7BD14D_3F7BBF20,
  0x3F7BACCD_3F7B9A53_3F7B87B2_3F7B74EA_3F7B61FC_3F7B4EE7_3F7B3BAB_3F7B2848]

/-- C[128..255], eight words a row, the first in the top bits (R200). -/
def romPiece1 : List Nat := [
  0x3F7B14BE_3F7B010E_3F7AED37_3F7AD93A_3F7AC516_3F7AB0CB_3F7A9C59_3F7A87C1,
  0x3F7A7302_3F7A5E1C_3F7A4910_3F7A33DD_3F7A1E84_3F7A0904_3F79F35E_3F79DD91,
  0x3F79C79D_3F79B183_3F799B43_3F7984DC_3F796E4E_3F79579A_3F7940C0_3F7929BF,
  0x3F791298_3F78FB4A_3F78E3D6_3F78CC3B_3F78B47B_3F789C93_3F788486_3F786C52,
  0x3F7853F8_3F783B77_3F7822D1_3F780A04_3F77F110_3F77D7F7_3F77BEB7_3F77A551,
  0x3F778BC5_3F777213_3F77583A_3F773E3C_3F772417_3F7709CC_3F76EF5B_3F76D4C4,
  0x3F76BA07_3F769F24_3F76841B_3F7668EC_3F764D97_3F76321B_3F76167A_3F75FAB3,
  0x3F75DEC6_3F75C2B3_3F75A67B_3F758A1C_3F756D97_3F7550ED_3F75341D_3F751727,
  0x3F74FA0B_3F74DCC9_3F74BF62_3F74A1D5_3F748422_3F746649_3F74484B_3F742A27,
  0x3F740BDD_3F73ED6E_3F73CED9_3F73B01F_3F73913F_3F737239_3F73530E_3F7333BE,
  0x3F731447_3F72F4AC_3F72D4EB_3F72B504_3F7294F8_3F7274C7_3F725470_3F7233F4,
  0x3F721352_3F71F28C_3F71D19F_3F71B08E_3F718F57_3F716DFB_3F714C7A_3F712AD4,
  0x3F710908_3F70E717_3F70C501_3F70A2C6_3F708066_3F705DE1_3F703B37_3F701867,
  0x3F6FF573_3F6FD25A_3F6FAF1B_3F6F8BB8_3F6F6830_3F6F4483_3F6F20B0_3F6EFCBA,
  0x3F6ED89E_3F6EB45D_3F6E8FF8_3F6E6B6D_3F6E46BE_3F6E21EB_3F6DFCF2_3F6DD7D5,
  0x3F6DB293_3F6D8D2D_3F6D67A1_3F6D41F2_3F6D1C1D_3F6CF624_3F6CD007_3F6CA9C5]

/-- C[256..383], eight words a row, the first in the top bits (R200). -/
def romPiece2 : List Nat := [
  0x3F6C835E_3F6C5CD4_3F6C3624_3F6C0F50_3F6BE858_3F6BC13B_3F6B99FB_3F6B7295,
  0x3F6B4B0C_3F6B235E_3F6AFB8C_3F6AD395_3F6AAB7B_3F6A833C_3F6A5AD9_3F6A3252,
  0x3F6A09A7_3F69E0D7_3F69B7E4_3F698ECC_3F696591_3F693C32_3F6912AE_3F68E907,
  0x3F68BF3C_3F68954C_3F686B39_3F684103_3F6816A8_3F67EC29_3F67C187_3F6796C1,
  0x3F676BD8_3F6740CA_3F671599_3F66EA45_3F66BECC_3F669330_3F666771_3F663B8E,
  0x3F660F88_3F65E35E_3F65B710_3F658AA0_3F655E0B_3F653154_3F650479_3F64D77B,
  0x3F64AA59_3F647D14_3F644FAC_3F642221_3F63F473_3F63C6A1_3F6398AC_3F636A95,
  0x3F633C5A_3F630DFC_3F62DF7B_3F62B0D7_3F628210_3F625326_3F62241A_3F61F4EA,
  0x3F61C598_3F619622_3F61668A_3F6136D0_3F6106F2_3F60D6F2_3F60A6CF_3F607689,
  0x3F604621_3F601596_3F5FE4E9_3F5FB419_3F5F8327_3F5F5212_3F5F20DB_3F5EEF81,
  0x3F5EBE05_3F5E8C67_3F5E5AA6_3F5E28C3_3F5DF6BE_3F5DC497_3F5D924D_3F5D5FE1,
  0x3F5D2D53_3F5CFAA3_3F5CC7D1_3F5C94DD_3F5C61C7_3F5C2E8E_3F5BFB34_3F5BC7B8,
  0x3F5B941A_3F5B605A_3F5B2C79_3F5AF875_3F5AC450_3F5A9009_3F5A5BA0_3F5A2716,
  0x3F59F26A_3F59BD9C_3F5988AD_3F59539C_3F591E6A_3F58E916_3F58B3A1_3F587E0B,
  0x3F584853_3F581279_3F57DC7F_3F57A663_3F577026_3F5739C7_3F570348_3F56CCA7,
  0x3F5695E5_3F565F02_3F5627FE_3F55F0D9_3F55B993_3F55822C_3F554AA4_3F5512FB]

/-- C[384..511], eight words a row, the first in the top bits (R200). -/
def romPiece3 : List Nat := [
  0x3F54DB31_3F54A347_3F546B3B_3F54330F_3F53FAC3_3F53C255_3F5389C7_3F535118,
  0x3F531849_3F52DF59_3F52A649_3F526D18_3F5233C6_3F51FA54_3F51C0C2_3F518710,
  0x3F514D3D_3F51134A_3F50D937_3F509F03_3F5064AF_3F502A3B_3F4FEFA8_3F4FB4F4,
  0x3F4F7A1F_3F4F3F2B_3F4F0417_3F4EC8E4_3F4E8D90_3F4E521C_3F4E1689_3F4DDAD5,
  0x3F4D9F02_3F4D6310_3F4D26FD_3F4CEACB_3F4CAE79_3F4C7208_3F4C3578_3F4BF8C7,
  0x3F4BBBF8_3F4B7F09_3F4B41FA_3F4B04CC_3F4AC77F_3F4A8A13_3F4A4C87_3F4A0EDC,
  0x3F49D112_3F499329_3F495521_3F4916FA_3F48D8B3_3F489A4E_3F485BCA_3F481D27,
  0x3F47DE65_3F479F84_3F476085_3F472167_3F46E22A_3F46A2CE_3F466354_3F4623BB,
  0x3F45E403_3F45A42D_3F456439_3F452426_3F44E3F5_3F44A3A5_3F446337_3F4422AB,
  0x3F43E200_3F43A138_3F436051_3F431F4C_3F42DE29_3F429CE8_3F425B89_3F421A0B,
  0x3F41D870_3F4196B7_3F4154E1_3F4112EC_3F40D0DA_3F408EA9_3F404C5C_3F4009F0,
  0x3F3FC767_3F3F84C0_3F3F41FC_3F3EFF1B_3F3EBC1B_3F3E78FF_3F3E35C5_3F3DF26E,
  0x3F3DAEF9_3F3D6B67_3F3D27B8_3F3CE3EC_3F3CA003_3F3C5BFC_3F3C17D9_3F3BD398,
  0x3F3B8F3B_3F3B4AC1_3F3B0629_3F3AC175_3F3A7CA4_3F3A37B7_3F39F2AC_3F39AD85,
  0x3F396842_3F3922E1_3F38DD65_3F3897CB_3F385216_3F380C43_3F37C655_3F37804A,
  0x3F373A23_3F36F3DF_3F36AD7F_3F366704_3F36206C_3F35D9B8_3F3592E7_3F354BFB]

/-- C[512..639], eight words a row, the first in the top bits (R200). -/
def romPiece4 : List Nat := [
  0x3F3504F3_3F34BDCF_3F34768F_3F342F34_3F33E7BC_3F33A029_3F33587A_3F3310AF,
  0x3F32C8C9_3F3280C7_3F3238AA_3F31F071_3F31A81D_3F315FAD_3F311722_3F30CE7C,
  0x3F3085BB_3F303CDE_3F2FF3E6_3F2FAAD3_3F2F61A5_3F2F185B_3F2ECEF7_3F2E8578,
  0x3F2E3BDE_3F2DF229_3F2DA859_3F2D5E6F_3F2D1469_3F2CCA49_3F2C800F_3F2C35B9,
  0x3F2BEB4A_3F2BA0BF_3F2B561B_3F2B0B5B_3F2AC082_3F2A758E_3F2A2A80_3F29DF57,
  0x3F299415_3F2948B8_3F28FD41_3F28B1B0_3F286605_3F281A40_3F27CE61_3F278268,
  0x3F273656_3F26EA2A_3F269DE3_3F265184_3F26050A_3F25B877_3F256BCB_3F251F04,
  0x3F24D225_3F24852C_3F24381A_3F23EAEE_3F239DA9_3F23504B_3F2302D3_3F22B543,
  0x3F226799_3F2219D7_3F21CBFB_3F217E06_3F212FF9_3F20E1D2_3F209393_3F20453B,
  0x3F1FF6CB_3F1FA841_3F1F599F_3F1F0AE5_3F1EBC12_3F1E6D26_3F1E1E22_3F1DCF06,
  0x3F1D7FD1_3F1D3084_3F1CE11F_3F1C91A2_3F1C420C_3F1BF25F_3F1BA299_3F1B52BB,
  0x3F1B02C6_3F1AB2B8_3F1A6293_3F1A1255_3F19C200_3F197194_3F19210F_3F18D073,
  0x3F187FC0_3F182EF5_3F17DE12_3F178D18_3F173C07_3F16EADE_3F16999F_3F164847,
  0x3F15F6D9_3F15A554_3F1553B7_3F150204_3F14B039_3F145E58_3F140C5F_3F13BA50,
  0x3F13682A_3F1315EE_3F12C39A_3F127130_3F121EB0_3F11CC19_3F11796B_3F1126A7,
  0x3F10D3CD_3F1080DC_3F102DD5_3F0FDAB8_3F0F8784_3F0F343B_3F0EE0DB_3F0E8D65]

/-- C[640..767], eight words a row, the first in the top bits (R200). -/
def romPiece5 : List Nat := [
  0x3F0E39DA_3F0DE638_3F0D9281_3F0D3EB3_3F0CEAD0_3F0C96D7_3F0C42C9_3F0BEEA5,
  0x3F0B9A6B_3F0B461C_3F0AF1B7_3F0A9D3D_3F0A48AD_3F09F409_3F099F4E_3F094A7F,
  0x3F08F59B_3F08A0A1_3F084B92_3F07F66F_3F07A136_3F074BE8_3F06F686_3F06A10E,
  0x3F064B82_3F05F5E2_3F05A02C_3F054A62_3F04F484_3F049E91_3F044889_3F03F26D,
  0x3F039C3D_3F0345F8_3F02EF9F_3F029932_3F0242B1_3F01EC1C_3F019573_3F013EB5,
  0x3F00E7E4_3F0090FF_3F003A06_3EFFC5F3_3EFF17B2_3EFE694A_3EFDBABB_3EFD0C04,
  0x3EFC5D27_3EFBAE22_3EFAFEF7_3EFA4FA5_3EF9A02D_3EF8F08E_3EF840C8_3EF790DC,
  0x3EF6E0CB_3EF63093_3EF58035_3EF4CFB1_3EF41F07_3EF36E38_3EF2BD43_3EF20C29,
  0x3EF15AEA_3EF0A985_3EEFF7FB_3EEF464C_3EEE9479_3EEDE280_3EED3063_3EEC7E21,
  0x3EEBCBBB_3EEB1930_3EEA6681_3EE9B3AE_3EE900B7_3EE84D9C_3EE79A5D_3EE6E6FB,
  0x3EE63375_3EE57FCB_3EE4CBFE_3EE4180E_3EE363FA_3EE2AFC4_3EE1FB6A_3EE146EE,
  0x3EE0924F_3EDFDD8D_3EDF28A9_3EDE73A2_3EDDBE79_3EDD092E_3EDC53C1_3EDB9E31,
  0x3EDAE880_3EDA32AD_3ED97CB9_3ED8C6A3_3ED8106B_3ED75A13_3ED6A399_3ED5ECFD,
  0x3ED53641_3ED47F64_3ED3C867_3ED31148_3ED25A09_3ED1A2AA_3ED0EB2A_3ED0338A,
  0x3ECF7BCA_3ECEC3EA_3ECE0BEA_3ECD53CA_3ECC9B8B_3ECBE32C_3ECB2AAE_3ECA7210,
  0x3EC9B953_3EC90077_3EC8477C_3EC78E62_3EC6D529_3EC61BD2_3EC5625C_3EC4A8C8]

/-- C[768..895], eight words a row, the first in the top bits (R200). -/
def romPiece6 : List Nat := [
  0x3EC3EF15_3EC33544_3EC27B55_3EC1C148_3EC1071E_3EC04CD5_3EBF926F_3EBED7EB,
  0x3EBE1D4A_3EBD628B_3EBCA7AF_3EBBECB6_3EBB31A0_3EBA766E_3EB9BB1E_3EB8FFB2,
  0x3EB8442A_3EB78884_3EB6CCC3_3EB610E6_3EB554EC_3EB498D6_3EB3DCA5_3EB32058,
  0x3EB263EF_3EB1A76B_3EB0EACB_3EB02E10_3EAF713A_3EAEB449_3EADF73C_3EAD3A15,
  0x3EAC7CD4_3EABBF77_3EAB0201_3EAA446F_3EA986C4_3EA8C8FE_3EA80B1F_3EA74D25,
  0x3EA68F12_3EA5D0E5_3EA5129F_3EA4543F_3EA395C5_3EA2D733_3EA21887_3EA159C2,
  0x3EA09AE5_3E9FDBEE_3E9F1CDF_3E9E5DB8_3E9D9E78_3E9CDF20_3E9C1FAF_3E9B6027,
  0x3E9AA086_3E99E0CE_3E9920FE_3E986116_3E97A117_3E96E100_3E9620D2_3E95608D,
  0x3E94A031_3E93DFBF_3E931F35_3E925E94_3E919DDD_3E90DD10_3E901C2C_3E8F5B32,
  0x3E8E9A22_3E8DD8FC_3E8D17C0_3E8C566E_3E8B9507_3E8AD38A_3E8A11F7_3E895050,
  0x3E888E93_3E87CCC1_3E870ADA_3E8648DF_3E8586CE_3E84C4AA_3E840270_3E834022,
  0x3E827DC0_3E81BB4A_3E80F8C0_3E803622_3E7EE6E1_3E7D6156_3E7BDBA4_3E7A55CB,
  0x3E78CFCC_3E7749A6_3E75C35A_3E743CE8_3E72B651_3E712F94_3E6FA8B2_3E6E21AB,
  0x3E6C9A7F_3E6B132F_3E698BBA_3E680422_3E667C66_3E64F486_3E636C83_3E61E45C,
  0x3E605C13_3E5ED3A8_3E5D4B1A_3E5BC26A_3E5A3997_3E58B0A4_3E57278F_3E559E58,
  0x3E541501_3E528B89_3E5101F1_3E4F7838_3E4DEE60_3E4C6467_3E4ADA4F_3E495018]

/-- C[896..1023], eight words a row, the first in the top bits (R200). -/
def romPiece7 : List Nat := [
  0x3E47C5C2_3E463B4D_3E44B0B9_3E432607_3E419B37_3E401049_3E3E853E_3E3CFA15,
  0x3E3B6ECF_3E39E36C_3E3857EC_3E36CC50_3E354098_3E33B4C4_3E3228D4_3E309CC9,
  0x3E2F10A2_3E2D8461_3E2BF804_3E2A6B8D_3E28DEFC_3E275251_3E25C58C_3E2438AD,
  0x3E22ABB6_3E211EA5_3E1F917B_3E1E0438_3E1C76DE_3E1AE96B_3E195BE0_3E17CE3D,
  0x3E164083_3E14B2B2_3E1324CA_3E1196CC_3E1008B7_3E0E7A8B_3E0CEC4A_3E0B5DF3,
  0x3E09CF86_3E084105_3E06B26E_3E0523C2_3E039502_3E02062E_3E007745_3DFDD092,
  0x3DFAB273_3DF7942C_3DF475C0_3DF1572E_3DEE3876_3DEB199A_3DE7FA9A_3DE4DB76,
  0x3DE1BC2E_3DDE9CC4_3DDB7D37_3DD85D89_3DD53DB9_3DD21DC8_3DCEFDB7_3DCBDD86,
  0x3DC8BD36_3DC59CC6_3DC27C39_3DBF5B8D_3DBC3AC3_3DB919DD_3DB5F8DA_3DB2D7BB,
  0x3DAFB680_3DAC952B_3DA973BA_3DA65230_3DA3308C_3DA00ECF_3D9CECF9_3D99CB0A,
  0x3D96A905_3D9386E7_3D9064B4_3D8D426A_3D8A200A_3D86FD94_3D83DB0A_3D80B86C,
  0x3D7B2B74_3D74E5E9_3D6EA038_3D685A62_3D621469_3D5BCE4C_3D55880E_3D4F41AF,
  0x3D48FB30_3D42B491_3D3C6DD5_3D3626FC_3D2FE007_3D2998F6_3D2351CB_3D1D0A88,
  0x3D16C32C_3D107BB8_3D0A342F_3D03EC90_3CFB49BA_3CEEBA2C_3CE22A7A_3CD59AA6,
  0x3CC90AB0_3CBC7A9B_3CAFEA69_3CA35A1C_3C96C9B6_3C8A3938_3C7B514B_3C622FFF,
  0x3C490E90_3C2FED02_3C16CB58_3BFB5330_3BC90F88_3B96CBC1_3B490FC6_3AC90FD5]

/-- C[1024..1024], eight words a row, the first in the top bits (R200). -/
def romPiece8 : List Nat := [
  0x00000000_00000000_00000000_00000000_00000000_00000000_00000000_00000000]

/-- The rows of the quarter wave, sixteen to a piece. -/
def romPieces : List (List Nat) :=
  [romPiece0, romPiece1, romPiece2, romPiece3, romPiece4, romPiece5, romPiece6, romPiece7, romPiece8]

/-- RN32(cos(2πk / N_MAX)) for 0 <= k <= N_MAX/4 (R200). -/
def romQuarter (k : Nat) : Word :=
  let row := (romPieces.getD (k / 128) []).getD (k / 8 % 16) 0
  BitVec.ofNat 32 (row / 2 ^ (32 * (7 - k % 8)))

/-- C[k] = RN32(cos(2πk / N_MAX)) for 0 <= k <= N_MAX/2 (R200): past the quarter, minus the mirrored entry (R203). -/
def romC (k : Nat) : Word :=
  if k ≤ Config.nMax / 4 then romQuarter k else romQuarter (Config.nMax / 2 - k) ^^^ 0x80000000#32

/-- S[k] = RN32(sin(2πk / N_MAX)) for 0 <= k <= N_MAX/2 (R200): the cosine a quarter away (R203). -/
def romS (k : Nat) : Word :=
  if k ≤ Config.nMax / 4 then romQuarter (Config.nMax / 4 - k) else romQuarter (k - Config.nMax / 4)

/-- C_N(k): the twiddle ROM read by stride for a transform of size `n` (R202). -/
def twiddleC (n k : Nat) : Word := romC (k * (Config.nMax / n))

/-- S_N(k) (R202). -/
def twiddleS (n k : Nat) : Word := romS (k * (Config.nMax / n))

end Sys2Proof.Machine
end

