-- ==== Sys2Proof/Machine/Transform.lean ====
section
/-! DEFINITION. The transform datapath shared by the four transform users: the packing table (spec 41_fft_twiddle_rom.md R205),
the complex FFT and the real forward and inverse transforms (42_streaming_fft.md R230 to R241).  The scratch array Z is no
state (R230): it is an argument. -/

namespace Sys2Proof.Machine

/-- One packing coefficient, by the binary32 operations of R205. -/
def pkEntry (n k : Nat) : Pk :=
  let c := twiddleC n k
  let s := twiddleS n k
  { ar := fmul fHalf (fsub fOne s), ai := fmul fNegHalf c, br := fmul fHalf (fadd fOne s), bi := fmul fHalf c }

/-- The packing table of a transform of size `n`: entries 0..n/2-1 (R205). -/
def packingTable (n : Nat) : List Pk := (List.range (n / 2)).map (pkEntry n)

/-- A complex zero, read past the end of an array. -/
def Cx.zero : Cx := ⟨fZero, fZero⟩

/-- A zero packing entry, read past the end of a table. -/
def Pk.zero : Pk := ⟨fZero, fZero, fZero, fZero⟩

/-- A word of an array, +0.0 past its end. -/
def at0 (a : List Word) (i : Nat) : Word := a.getD i fZero

/-- The direction of a complex FFT (R232). -/
inductive Dir where
  | fwd | inv
  deriving DecidableEq, Repr

/-- The `l`-bit reversal of `i`: bit b becomes bit l-1-b (R231). -/
def bitrev : Nat → Nat → Nat
  | 0, _ => 0
  | l + 1, i => i % 2 * 2 ^ l + bitrev l (i / 2)

/-- Exchange two elements, moved without arithmetic (R231). -/
def swapAt (z : List Cx) (i j : Nat) : List Cx := (z.set i (z.getD j Cx.zero)).set j (z.getD i Cx.zero)

/-- The bit-reversal permutation of 2^l elements, index by index (R231). -/
def bitReverse (l : Nat) (z : List Cx) : List Cx :=
  (List.range (2 ^ l)).foldl (fun z i => if i < bitrev l i then swapAt z i (bitrev l i) else z) z

/-- The product of b with the twiddle, W = c - i·sn forward (R233) or its conjugate inverse (R234). -/
def twiddled (dir : Dir) (b : Cx) (c sn : Word) : Cx :=
  match dir with
  | .fwd => ⟨fadd (fmul c b.re) (fmul sn b.im), fsub (fmul c b.im) (fmul sn b.re)⟩
  | .inv => ⟨fsub (fmul c b.re) (fmul sn b.im), fadd (fmul c b.im) (fmul sn b.re)⟩

/-- One butterfly, in the written nesting, each operation rounded once (R233, R234). -/
def butterfly (dir : Dir) (a b : Cx) (c sn : Word) : Cx × Cx :=
  let t := twiddled dir b c sn
  (⟨fadd a.re t.re, fadd a.im t.im⟩, ⟨fsub a.re t.re, fsub a.im t.im⟩)

/-- The twiddles of a stage, j = 0..half-1: (C_N(2m), S_N(2m)) with m = j·(M/span) (R232). -/
def stageTwiddles (n half : Nat) : List (Word × Word) :=
  (List.range half).map (fun j =>
    let m := j * (n / 2 / (2 * half))
    (twiddleC n (2 * m), twiddleS n (2 * m)))

/-- The butterflies of one group: element j of the lower half with element j of the upper half (R232). -/
def groupButterflies (dir : Dir) (tw : List (Word × Word)) (lo hi : List Cx) : List Cx :=
  let r := (lo.zip hi).zipWith (fun p w => butterfly dir p.1 p.2 w.1 w.2) tw
  r.map Prod.fst ++ r.map Prod.snd

/-- The groups of a stage, g = 0, span, 2·span, ... (R232). -/
def stageGroups (dir : Dir) (tw : List (Word × Word)) (half : Nat) : Nat → List Cx → List Cx
  | 0, _ => []
  | g + 1, z =>
    groupButterflies dir tw (z.take half) ((z.drop half).take half) ++ stageGroups dir tw half g (z.drop (2 * half))

/-- Stage `s` of a transform of size `n`: half = 2^(s-1), span = 2^s, M / span groups (R232). -/
def stage (dir : Dir) (n s : Nat) (z : List Cx) : List Cx :=
  let half := 2 ^ (s - 1)
  stageGroups dir (stageTwiddles n half) half (n / 2 / (2 * half)) z

/-- The in-place radix-2 complex FFT of M = n/2 elements: bit reversal, then stages 1..log2 M in order (R232). -/
def cfft (dir : Dir) (n : Nat) (z : List Cx) : List Cx :=
  let l := Nat.log2 (n / 2)
  (List.range l).foldl (fun z i => stage dir n (i + 1) z) (bitReverse l z)

/-- The N real samples as M complex values, copied (R236). -/
def packReal (n : Nat) (x : List Word) : List Cx :=
  (List.range (n / 2)).map (fun i => ⟨at0 x (2 * i), at0 x (2 * i + 1)⟩)

/-- The real part of bin k, 1 <= k <= M-1, left to right as written (R238). -/
def unpackRe (z y : Cx) (p : Pk) : Word :=
  fadd (fadd (fsub (fmul z.re p.ar) (fmul z.im p.ai)) (fmul y.re p.br)) (fmul y.im p.bi)

/-- The imaginary part of bin k (R238). -/
def unpackIm (z y : Cx) (p : Pk) : Word :=
  fsub (fadd (fadd (fmul z.im p.ar) (fmul z.re p.ai)) (fmul y.re p.bi)) (fmul y.im p.br)

/-- A spectrum: the real and imaginary parts of the NB = n/2 + 1 bins (00_scope.md R12, R21). -/
structure Spectrum where
  re : List Word
  im : List Word
  deriving DecidableEq, Repr

/-- The bins of an unpacked transform: DC and Nyquist by R237, the others by R238. -/
def unpackBins (pk : List Pk) (n : Nat) (z : List Cx) : Spectrum :=
  let m := n / 2
  let z0 := z.getD 0 Cx.zero
  let mid (f : Cx → Cx → Pk → Word) : List Word :=
    (List.range' 1 (m - 1)).map (fun k => f (z.getD k Cx.zero) (z.getD (m - k) Cx.zero) (pk.getD k Pk.zero))
  { re := fadd z0.re z0.im :: (mid unpackRe ++ [fsub z0.re z0.im])
    im := fZero :: (mid unpackIm ++ [fZero]) }

/-- `RFWD(x, PK, N)` (R236 to R238). -/
def rfwd (pk : List Pk) (n : Nat) (x : List Word) : Spectrum := unpackBins pk n (cfft .fwd n (packReal n x))

/-- One repacked element, 1 <= k <= M-1, left to right as written (R239). -/
def repackEntry (x y : Cx) (p : Pk) : Cx :=
  ⟨fsub (fadd (fadd (fmul x.re p.ar) (fmul x.im p.ai)) (fmul y.re p.br)) (fmul y.im p.bi),
   fsub (fsub (fsub (fmul x.im p.ar) (fmul x.re p.ai)) (fmul y.re p.bi)) (fmul y.im p.br)⟩

/-- Repacking a spectrum into M complex values; the imaginary parts of bins 0 and M are not read (R239). -/
def repackBins (pk : List Pk) (n : Nat) (sp : Spectrum) : List Cx :=
  let m := n / 2
  let bin (k : Nat) : Cx := ⟨at0 sp.re k, at0 sp.im k⟩
  ⟨fmul fHalf (fadd (at0 sp.re 0) (at0 sp.re m)), fmul fHalf (fsub (at0 sp.re 0) (at0 sp.re m))⟩ ::
    (List.range' 1 (m - 1)).map (fun k => repackEntry (bin k) (bin (m - k)) (pk.getD k Pk.zero))

/-- De-interleave and scale by INV_M (R241). -/
def deinterleave (n : Nat) (z : List Cx) : List Word :=
  z.flatMap (fun c => [fmul c.re (invM n), fmul c.im (invM n)])

/-- `RINV(XR, XI, PK, N)` (R239 to R241). -/
def rinv (pk : List Pk) (n : Nat) (sp : Spectrum) : List Word :=
  deinterleave n (cfft .inv n (repackBins pk n sp))

end Sys2Proof.Machine
end

