-- ==== Sys2Proof/Machine/BlockConvolution.lean ====
section
/-! DEFINITION. The mechanism the two block convolution engines share (spec 43_block_convolution.md R280 to R290), and the two
block steps (44_overlap_add_engine.md R310, 45_overlap_save_engine.md R340). -/

namespace Sys2Proof.Machine

/-- The kernel RAM of an engine (10_state.md R57). -/
def Strategy.kram : Strategy → Ram
  | .overlapAdd => .olaKram
  | .overlapSave => .olsKram

/-- The batch input RAM of an engine (10_state.md R58). -/
def Strategy.sigin : Strategy → Ram
  | .overlapAdd => .olaSigin
  | .overlapSave => .olsSigin

/-- The batch output RAM of an engine (10_state.md R58). -/
def Strategy.sigout : Strategy → Ram
  | .overlapAdd => .olaSigout
  | .overlapSave => .olsSigout

/-- H = N - K + 1 (R281). -/
def hopSize (n k : Nat) : Nat := n + 1 - k

/-- CONFIG's checks, in the order of R281; the third is unreachable. -/
def convCfgFailure (s : State) : Option ErrorCode :=
  let n := roundedSize s.arg0Nat
  let k := s.arg1Nat
  if Config.nMax < n then some .invalidSize
  else if k = 0 ∨ n < k then some .invalidKernelSize
  else if hopSize n k < 1 then some .invalidHopSize
  else none

/-- The zero-padded kernel's spectrum (R280). -/
def kernelSpectrum (pk : List Pk) (n : Nat) (kernel : List Word) : Spectrum :=
  rfwd pk n (kernel ++ List.replicate (n - kernel.length) fZero)

/-- RESET_E: the streaming arrays +0.0 and the counters 0; the configuration and the cached spectrum stay (R286). -/
def ConvEngine.restart (e : ConvEngine) : ConvEngine :=
  { e with
    inb := List.replicate e.h.toNat fZero
    tail := List.replicate (e.k.toNat - 1) fZero
    outq := List.replicate e.h.toNat fZero
    incnt := 0#32
    outptr := 0#32 }

/-- A newly configured engine (R289): its own packing table, the cached kernel spectrum, the sizes, and a fresh stream. -/
def ConvEngine.configured (n k : Nat) (kernel : List Word) : ConvEngine :=
  let pk := packingTable n
  let sp := kernelSpectrum pk n kernel
  ConvEngine.restart
    { cfg := true, n := BitVec.ofNat 32 n, k := BitVec.ofNat 32 k, h := BitVec.ofNat 32 (hopSize n k),
      incnt := 0#32, outptr := 0#32, pk := pk, kr := sp.re, ki := sp.im, inb := [], tail := [], outq := [] }

/-- CONFIG's effect (R280, R289). -/
def convConfigure (g : Strategy) (s : State) : State :=
  let n := roundedSize s.arg0Nat
  let k := s.arg1Nat
  (s.setEngine (ConvEngine.configured n k (s.ramWords g.kram k)) g).setResult (BitVec.ofNat 32 n)

/-- `cmul(a, b, c, d)` (R282). -/
def cmul (x y : Cx) : Cx :=
  ⟨fsub (fmul x.re y.re) (fmul x.im y.im), fadd (fmul x.re y.im) (fmul x.im y.re)⟩

/-- The bin-wise product with the cached kernel spectrum (R282). -/
def binProducts (n : Nat) (f : Spectrum) (kr ki : List Word) : Spectrum :=
  let pr := (List.range (n / 2 + 1)).map (fun k => cmul ⟨at0 f.re k, at0 f.im k⟩ ⟨at0 kr k, at0 ki k⟩)
  ⟨pr.map Cx.re, pr.map Cx.im⟩

/-- `CONVOLVE_E(F)` (R282). -/
def ConvEngine.convolve (e : ConvEngine) (f : List Word) : List Word :=
  let n := e.n.toNat
  rinv e.pk n (binProducts n (rfwd e.pk n f) e.kr e.ki)

/-- Position i of an overlap-add: added where the old tail reaches, copied where it does not (R290). -/
def overlapAt (tail r : List Word) (t i : Nat) : Word := if i < t then fadd (at0 tail i) (at0 r i) else at0 r i

/-- `OLA_STEP(TAIL, r, H, T)`: the H finished outputs and the T carried samples (R290). -/
def olaStep (tail r : List Word) (h t : Nat) : List Word × List Word :=
  ((List.range h).map (overlapAt tail r t), (List.range t).map (fun j => overlapAt tail r t (h + j)))

/-- BLOCK_OLA: the hop padded with T zeros, convolved, and overlap-added (44_overlap_add_engine.md R310). -/
def ConvEngine.blockAdd (e : ConvEngine) : ConvEngine :=
  let h := e.h.toNat
  let t := e.k.toNat - 1
  let r := e.convolve (e.inb.take h ++ List.replicate t fZero)
  let o := olaStep e.tail r h t
  { e with outq := o.1, tail := o.2 }

/-- BLOCK_OLS: the carried samples and the hop, convolved; the valid trailing H samples are the output, the newest T samples are
carried (45_overlap_save_engine.md R340). -/
def ConvEngine.blockSave (e : ConvEngine) : ConvEngine :=
  let h := e.h.toNat
  let t := e.k.toNat - 1
  let f := e.tail.take t ++ e.inb.take h
  let r := e.convolve f
  { e with outq := r.drop t, tail := f.drop h }

/-- The block step of a strategy. -/
def ConvEngine.block (g : Strategy) (e : ConvEngine) : ConvEngine :=
  match g with
  | .overlapAdd => e.blockAdd
  | .overlapSave => e.blockSave

/-- The sample is buffered and `wp` advances (R283). -/
def ConvEngine.buffer (e : ConvEngine) (x : Word) : ConvEngine :=
  { e with inb := e.inb.set e.incnt.toNat x, incnt := BitVec.ofNat 32 (e.incnt.toNat + 1) }

/-- Both counters return to 0 (R283). -/
def ConvEngine.rewind (e : ConvEngine) : ConvEngine := { e with incnt := 0#32, outptr := 0#32 }

/-- A sample comes in; when it fills the hop, the hop's block runs and both counters return to 0 (R283). -/
def ConvEngine.push (g : Strategy) (e : ConvEngine) (x : Word) : ConvEngine :=
  if e.incnt.toNat + 1 = e.h.toNat then ((e.buffer x).block g).rewind else e.buffer x

/-- The next output sample is read and `rp` advances (R283). -/
def ConvEngine.pop (e : ConvEngine) : ConvEngine × Word :=
  ({ e with outptr := BitVec.ofNat 32 (e.outptr.toNat + 1) }, at0 e.outq e.outptr.toNat)

/-- `CALL_E(x)`: one streaming call (R283). -/
def ConvEngine.call (g : Strategy) (e : ConvEngine) (x : Word) : ConvEngine × Word := (e.push g x).pop

/-- A run of calls, in order, with their outputs (R287). -/
def ConvEngine.calls (g : Strategy) : ConvEngine → List Word → ConvEngine × List Word
  | e, [] => (e, [])
  | e, x :: xs =>
    let c := e.call g x
    let r := ConvEngine.calls g c.1 xs
    (r.1, c.2 :: r.2)

/-- The samples APPLY feeds: the L signal words, then D + K - 1 zeros, D = H - 1 (R287). -/
def applyInputs (signal : List Word) (h k : Nat) : List Word := signal ++ List.replicate (h - 1 + (k - 1)) fZero

/-- APPLY on an engine: a fresh stream, every call, and the outputs from call D on (R287).  DESIGN CHOICE (assumption log 21): for
L = 0 R287's prose calls every output +0.0, while its pseudocode can give -0.0, or NaN from a kernel that is not finite; the
pseudocode is followed. -/
def ConvEngine.apply (g : Strategy) (e : ConvEngine) (signal : List Word) : ConvEngine × List Word :=
  let h := e.h.toNat
  let r := ConvEngine.calls g e.restart (applyInputs signal h e.k.toNat)
  (r.1, r.2.drop (h - 1))

/-- The unit's CFG bit is 0 (60_exceptions.md R424). -/
def convUnconfigured (g : Strategy) (s : State) : Option ErrorCode :=
  if (s.engine g).cfg then none else some .notConfigured

/-- APPLY's checks: NotConfigured, then InvalidLength (R287, 60_exceptions.md R423). -/
def convApplyFailure (g : Strategy) (s : State) : Option ErrorCode :=
  if (s.engine g).cfg then (if Config.lMax < s.arg0Nat then some .invalidLength else none) else some .notConfigured

/-- PROC's effect: one call on ARG0, its output in RESULT (R283). -/
def convProcess (g : Strategy) (s : State) : State :=
  let c := (s.engine g).call g s.arg0
  (s.setEngine c.1 g).setResult c.2

/-- APPLY's effect: SIGOUT[0..L+K-2], RESULT = L + K - 1 and the stream state (R287). -/
def convApply (g : Strategy) (s : State) : State :=
  let r := (s.engine g).apply g (s.ramWords g.sigin s.arg0Nat)
  ((s.setEngine r.1 g).setRam g.sigout r.2).setResult (BitVec.ofNat 32 (s.arg0Nat + (s.engine g).k.toNat - 1))

/-- RST's effect (R286). -/
def convRestart (g : Strategy) (s : State) : State := s.setEngine (s.engine g).restart g

end Sys2Proof.Machine
end

