-- ==== Sys2Proof/Machine/OverlapAdd.lean ====
section
/-! DEFINITION. The commands of the OLA unit (spec 44_overlap_add_engine.md R311 to R314). -/

namespace Sys2Proof.Machine

/-- OLA.CFG (R311). -/
def execOlaCfg (s : State) : Host.Outcome State Fault Refusal := s.run .olaCfg convCfgFailure (convConfigure .overlapAdd)

/-- OLA.PROC (R312). -/
def execOlaProc (s : State) : Host.Outcome State Fault Refusal :=
  s.run .olaProc (convUnconfigured .overlapAdd) (convProcess .overlapAdd)

/-- OLA.APPLY (R313). -/
def execOlaApply (s : State) : Host.Outcome State Fault Refusal :=
  s.run .olaApply (convApplyFailure .overlapAdd) (convApply .overlapAdd)

/-- OLA.RST (R314). -/
def execOlaRst (s : State) : Host.Outcome State Fault Refusal :=
  s.run .olaRst (convUnconfigured .overlapAdd) (convRestart .overlapAdd)

end Sys2Proof.Machine
end

