-- ==== Sys2Proof/Machine/OverlapSave.lean ====
section
/-! DEFINITION. The commands of the OLS unit (spec 45_overlap_save_engine.md R341 to R344). -/

namespace Sys2Proof.Machine

/-- OLS.CFG (R341). -/
def execOlsCfg (s : State) : Host.Outcome State Fault Refusal := s.run .olsCfg convCfgFailure (convConfigure .overlapSave)

/-- OLS.PROC (R342). -/
def execOlsProc (s : State) : Host.Outcome State Fault Refusal :=
  s.run .olsProc (convUnconfigured .overlapSave) (convProcess .overlapSave)

/-- OLS.APPLY (R343). -/
def execOlsApply (s : State) : Host.Outcome State Fault Refusal :=
  s.run .olsApply (convApplyFailure .overlapSave) (convApply .overlapSave)

/-- OLS.RST (R344). -/
def execOlsRst (s : State) : Host.Outcome State Fault Refusal :=
  s.run .olsRst (convUnconfigured .overlapSave) (convRestart .overlapSave)

end Sys2Proof.Machine
end

