-- ==== Sys2Proof/Machine/PhaseFunctions.lean ====
section
/-! DEFINITION. The OPEN functions of the phase vocoder under the constraints the spec puts on them (spec
46_phase_vocoder_resynth.md R371; assumption log 1), and the phase wrap (R372). -/

namespace Sys2Proof.Machine

/-- Is the word a value in [-b, b], for a finite positive b? -/
def within (b x : Word) : Bool := fMag x ≤ fMag b

/-- `F_atan2(y, x)`: NaN iff an argument is NaN, else in [-PI_F, PI_F] (R371 (a)); its value there is free. -/
def fAtan2 (y x : Word) : Word :=
  if isNaN y || isNaN x then fNaN
  else if within fPi (Config.rawAtan2 y x) then Config.rawAtan2 y x
  else fZero

/-- `F_cos(a)`: 1.0 at a zero, NaN at an infinity or NaN, else in [-1, 1] (R371 (b), (c)); its value there is free. -/
def fCos (a : Word) : Word :=
  if !isFinite a then fNaN
  else if isZero a then fOne
  else if within fOne (Config.rawCos a) then Config.rawCos a
  else fZero

/-- `F_sin(a)`: the zero itself at a zero, NaN at an infinity or NaN, else in [-1, 1] (R371 (b), (c)); its value there is
free. -/
def fSin (a : Word) : Word :=
  if !isFinite a then fNaN
  else if isZero a then a
  else if within fOne (Config.rawSin a) then Config.rawSin a
  else fZero

/-- `WRAP(d)` (R372). -/
def wrapPhase (d : Word) : Word := fsub d (fmul (fceil (fdiv (fsub d fPi) fTwoPi)) fTwoPi)

end Sys2Proof.Machine
end

