-- ==== Sys2Proof/Machine/StreamingFft.lean ====
section
/-! DEFINITION. The commands of the FFT unit (spec 42_streaming_fft.md R243 to R248). -/

namespace Sys2Proof.Machine

/-- FFT.CFG's check (R243). -/
def fftCfgFailure (s : State) : Option ErrorCode := if validSize s.arg0Nat then none else some .invalidSize

/-- FFT.CFG's effect: the packing table, FFT_N, FFT_STAT[0] and RESULT (R243). -/
def fftConfigure (s : State) : State :=
  (s.setFft { cfg := true, n := s.arg0, pk := packingTable s.arg0Nat }).setResult s.arg0

/-- `chk_cfg(FFT)` (60_exceptions.md R424). -/
def fftUnconfigured (s : State) : Option ErrorCode := if s.fft.cfg then none else some .notConfigured

/-- FFT_N as a number. -/
abbrev State.fftSize (s : State) : Nat := s.fft.n.toNat

/-- RFWD of X[0..N-1] with the unit's own table (R244). -/
def State.fftSpectrum (s : State) : Spectrum := rfwd s.fft.pk s.fftSize (s.ramWords .x s.fftSize)

/-- RINV of RE[0..N/2] and IM[0..N/2] with the unit's own table (R245). -/
def State.fftSamples (s : State) : List Word :=
  rinv s.fft.pk s.fftSize ⟨s.ramWords .re (s.fftSize / 2 + 1), s.ramWords .im (s.fftSize / 2 + 1)⟩

/-- RE[0..N/2] <- XR; IM[0..N/2] <- XI (R244). -/
def fftForward (s : State) : State := (s.setRam .re s.fftSpectrum.re).setRam .im s.fftSpectrum.im

/-- X[0..N-1] <- RINV (R245). -/
def fftInverse (s : State) : State := s.setRam .x s.fftSamples

/-- The optional normalisation by N/2: one product with the exact 2/N (R246, R247). -/
def normalised (norm : Bool) (n : Nat) (p : Word) : Word := if norm then fmul p (twoOverN n) else p

/-- The squared magnitude of a bin (R247). -/
def binPower (re im : Word) : Word := fadd (fmul re re) (fmul im im)

/-- The magnitude of a bin: the plain root of the sum of squares (R246). -/
def binMagnitude (re im : Word) : Word := fsqrt (binPower re im)

/-- P[0..N/2] of FFT.MAG (R246). -/
def magnitudes (norm : Bool) (n : Nat) (sp : Spectrum) : List Word :=
  sp.re.zipWith (fun re im => normalised norm n (binMagnitude re im)) sp.im

/-- P[0..N/2] of FFT.PWR (R247). -/
def powers (norm : Bool) (n : Nat) (sp : Spectrum) : List Word :=
  sp.re.zipWith (fun re im => normalised norm n (binPower re im)) sp.im

/-- FFT.MAG's effect: RE, IM and P (R246). -/
def fftMagnitude (norm : Bool) (s : State) : State :=
  (fftForward s).setRam .p (magnitudes norm s.fftSize s.fftSpectrum)

/-- FFT.PWR's effect: RE, IM and P (R247). -/
def fftPower (norm : Bool) (s : State) : State :=
  (fftForward s).setRam .p (powers norm s.fftSize s.fftSpectrum)

/-- FFT.CFG (R243). -/
def execFftCfg (s : State) : Host.Outcome State Fault Refusal := s.run .fftCfg fftCfgFailure fftConfigure

/-- FFT.FWD (R244). -/
def execFftFwd (s : State) : Host.Outcome State Fault Refusal := s.run .fftFwd fftUnconfigured fftForward

/-- FFT.INV (R245). -/
def execFftInv (s : State) : Host.Outcome State Fault Refusal := s.run .fftInv fftUnconfigured fftInverse

/-- FFT.MAG (R246). -/
def execFftMag (norm : Bool) (s : State) : Host.Outcome State Fault Refusal :=
  s.run (.fftMag norm) fftUnconfigured (fftMagnitude norm)

/-- FFT.PWR (R247). -/
def execFftPwr (norm : Bool) (s : State) : Host.Outcome State Fault Refusal :=
  s.run (.fftPwr norm) fftUnconfigured (fftPower norm)

end Sys2Proof.Machine
end

