-- ==== Sys2Proof/Machine/PhaseVocoder.lean ====
section
/-! DEFINITION. The phase vocoder: construction, the frame, the streaming call, and its commands (spec
46_phase_vocoder_resynth.md R370 to R390). -/

namespace Sys2Proof.Machine

/-- `WSQ(W)`: the sequential sum of squares in index order (R376). -/
def windowEnergy (w : List Word) : Word := w.foldl (fun acc x => fadd acc (fmul x x)) fZero

/-- PV_OMEGA (R378). -/
def expectedAdvance (n h : Nat) : Word := fdiv (fmul fTwoPi (i2f h)) (i2f n)

/-- PV_GAIN's default: H / sum(w²) (R377). -/
def defaultGain (h : Nat) (wsq : Word) : Word := fdiv (i2f h) wsq

/-- RESET_PV (R388). -/
def PvUnit.restart (u : PvUnit) : PvUnit :=
  let n := u.n.toNat
  let h := u.h.toNat
  { u with
    dl := List.replicate n fZero
    tail := List.replicate (n - h) fZero
    outq := List.replicate h fZero
    prev := List.replicate (n / 2 + 1) fZero
    psi := List.replicate (n / 2 + 1) fZero
    incnt := 0#32
    outptr := 0#32 }

/-- PV.CFG's checks, in the order of R374. -/
def pvCfgFailure (s : State) : Option ErrorCode :=
  let n := s.arg0Nat
  let h := s.arg1Nat
  if !validSize n then some .invalidSize
  else if h < 1 ∨ n ≤ h then some .invalidHopSize
  else if !validShift s.arg2 then some .invalidParam
  else if !validEnergy (windowEnergy (s.ramWords .pvWin n)) then some .invalidParam
  else none

/-- A newly configured vocoder (R374 to R378): the latched window, the derived constants and a fresh stream; PV_WET and PV_DRY
are not changed. -/
def PvUnit.configured (u : PvUnit) (n h : Nat) (shift : Word) (w : List Word) : PvUnit :=
  let wsq := windowEnergy w
  PvUnit.restart
    { u with
      cfg := true
      n := BitVec.ofNat 32 n
      h := BitVec.ofNat 32 h
      shift := shift
      wsq := wsq
      gain := defaultGain h wsq
      omega := expectedAdvance n h
      winl := w
      pk := packingTable n }

/-- PV.CFG's effect (R374). -/
def pvConfigure (s : State) : State :=
  (s.setPv (s.pv.configured s.arg0Nat s.arg1Nat s.arg2 (s.ramWords .pvWin s.arg0Nat))).setResult s.arg0

/-- What the analysis of one bin gives: its magnitude, its phase and its unwrapped advance per hop (R379). -/
structure BinAnalysis where
  mag : Word
  phase : Word
  frq : Word
  deriving DecidableEq, Repr

/-- The analysis and phase unwrapping of bin j (R379). -/
def analyseBin (omega : Word) (prev : Word) (j : Nat) (re im : Word) : BinAnalysis :=
  let phi := fAtan2 im re
  let om := fmul (i2f j) omega
  let dev := wrapPhase (fsub (fsub phi prev) om)
  { mag := binMagnitude re im, phase := phi, frq := fadd om dev }

/-- FRAME_PV, part 1: window, transform, analyse every bin (R379). -/
def PvUnit.analyse (u : PvUnit) : List BinAnalysis :=
  let n := u.n.toNat
  let sp := rfwd u.pk n ((List.range n).map (fun i => fmul (at0 u.dl i) (at0 u.winl i)))
  (List.range (n / 2 + 1)).map (fun j => analyseBin u.omega (at0 u.prev j) j (at0 sp.re j) (at0 sp.im j))

/-- The destination of source bin j, if it has one (R380). -/
def destination (nb : Nat) (shift : Word) (j : Nat) : Option Nat :=
  let p := fmul (i2f j) shift
  if flt p (i2f nb) then some (ftruncU p) else none

/-- A source at its destination, if it has one: its magnitude is added there, its frequency replaces the one there; a source
without a destination is dropped (R380). -/
def placeBin (dest : Option Nat) (shift : Word) (acc : List Word × List Word) (b : BinAnalysis) : List Word × List Word :=
  match dest with
  | some d => (acc.1.set d (fadd (at0 acc.1 d) b.mag), acc.2.set d (fmul b.frq shift))
  | none => acc

/-- One source of the spectral stretch (R380). -/
def stretchStep (nb : Nat) (shift : Word) (acc : List Word × List Word) (jb : Nat × BinAnalysis) : List Word × List Word :=
  placeBin (destination nb shift jb.1) shift acc jb.2

/-- FRAME_PV, part 2: MAGD and FRQD, cleared, then filled in increasing j (R380). -/
def stretch (nb : Nat) (shift : Word) (bins : List BinAnalysis) : List Word × List Word :=
  ((List.range bins.length).zip bins).foldl (stretchStep nb shift) (List.replicate nb fZero, List.replicate nb fZero)

/-- FRAME_PV, part 3: the synthesis phases (R381). -/
def accumulatePhase (nb : Nat) (psi frqd : List Word) : List Word :=
  (List.range nb).map (fun d => wrapPhase (fadd (at0 psi d) (at0 frqd d)))

/-- FRAME_PV, part 4: the synthesis spectrum (R382). -/
def synthesisSpectrum (nb : Nat) (magd psi : List Word) : Spectrum :=
  { re := (List.range nb).map (fun d => fmul (at0 magd d) (fCos (at0 psi d)))
    im := (List.range nb).map (fun d => fmul (at0 magd d) (fSin (at0 psi d))) }

/-- FRAME_PV, part 5: the inverse, windowed, then scaled by PV_GAIN (R383). -/
def PvUnit.synthesise (u : PvUnit) (sp : Spectrum) : List Word :=
  let n := u.n.toNat
  let y := rinv u.pk n sp
  (List.range n).map (fun i => fmul (fmul (at0 y i) (at0 u.winl i)) u.gain)

/-- FRAME_PV: the six stages (R370, R379 to R384). -/
def PvUnit.frame (u : PvUnit) : PvUnit :=
  let n := u.n.toNat
  let h := u.h.toNat
  let nb := n / 2 + 1
  let bins := u.analyse
  let d := stretch nb u.shift bins
  let psi := accumulatePhase nb u.psi d.2
  let sv := u.synthesise (synthesisSpectrum nb d.1 psi)
  let o := olaStep u.tail sv h (n - h)
  { u with prev := bins.map BinAnalysis.phase, psi := psi, outq := o.1, tail := o.2 }

/-- The sample enters the delay line, which keeps the newest N, and `cnt` advances (R385). -/
def PvUnit.feed (u : PvUnit) (x : Word) : PvUnit :=
  { u with dl := u.dl.drop 1 ++ [x], incnt := BitVec.ofNat 32 (u.incnt.toNat + 1) }

/-- Both counters return to 0 (R385). -/
def PvUnit.rewind (u : PvUnit) : PvUnit := { u with incnt := 0#32, outptr := 0#32 }

/-- A sample comes in; when H samples have come the frame runs and both counters return to 0 (R385). -/
def PvUnit.push (u : PvUnit) (x : Word) : PvUnit :=
  if u.incnt.toNat + 1 = u.h.toNat then (u.feed x).frame.rewind else u.feed x

/-- The wet/dry mix (R386). -/
def PvUnit.mix (u : PvUnit) (wet dry : Word) : Word := fadd (fmul u.wet wet) (fmul u.dry dry)

/-- `CALL_PV(x)`: one streaming call (R385). -/
def PvUnit.call (u : PvUnit) (x : Word) : PvUnit × Word :=
  let v := u.push x
  ({ v with outptr := BitVec.ofNat 32 (v.outptr.toNat + 1) }, v.mix (at0 v.outq v.outptr.toNat) (at0 v.dl 0))

/-- A run of calls, in order, with their outputs. -/
def PvUnit.calls : PvUnit → List Word → PvUnit × List Word
  | u, [] => (u, [])
  | u, x :: xs =>
    let c := u.call x
    let r := PvUnit.calls c.1 xs
    (r.1, c.2 :: r.2)

/-- The unit's CFG bit is 0 (60_exceptions.md R424). -/
def pvUnconfigured (s : State) : Option ErrorCode := if s.pv.cfg then none else some .notConfigured

/-- PV.PROC's effect: one call on ARG0, its output in RESULT (R387). -/
def pvProcess (s : State) : State :=
  let c := s.pv.call s.arg0
  (s.setPv c.1).setResult c.2

/-- PV.RST's effect (R388). -/
def pvRestart (s : State) : State := s.setPv s.pv.restart

/-- PV.CFG (R374). -/
def execPvCfg (s : State) : Host.Outcome State Fault Refusal := s.run .pvCfg pvCfgFailure pvConfigure

/-- PV.PROC (R387). -/
def execPvProc (s : State) : Host.Outcome State Fault Refusal := s.run .pvProc pvUnconfigured pvProcess

/-- PV.RST (R388). -/
def execPvRst (s : State) : Host.Outcome State Fault Refusal := s.run .pvRst pvUnconfigured pvRestart

end Sys2Proof.Machine
end

