-- ==== Sys2Proof/Machine/Dispatch.lean ====
section
/-! DEFINITION. The one dispatch of CORE: which meaning each command of spec 30_encoding.md R142 runs (R146). -/

namespace Sys2Proof.Machine

def exec (i : Instr) (s : State) : Host.Outcome State Fault Refusal :=
  match i with
  | .nop => Sys2Proof.Machine.execNop s
  | .srst => Sys2Proof.Machine.execSrst s
  | .fftCfg => Sys2Proof.Machine.execFftCfg s
  | .fftFwd => Sys2Proof.Machine.execFftFwd s
  | .fftInv => Sys2Proof.Machine.execFftInv s
  | .fftMag norm => Sys2Proof.Machine.execFftMag norm s
  | .fftPwr norm => Sys2Proof.Machine.execFftPwr norm s
  | .olaCfg => Sys2Proof.Machine.execOlaCfg s
  | .olaProc => Sys2Proof.Machine.execOlaProc s
  | .olaApply => Sys2Proof.Machine.execOlaApply s
  | .olaRst => Sys2Proof.Machine.execOlaRst s
  | .olsCfg => Sys2Proof.Machine.execOlsCfg s
  | .olsProc => Sys2Proof.Machine.execOlsProc s
  | .olsApply => Sys2Proof.Machine.execOlsApply s
  | .olsRst => Sys2Proof.Machine.execOlsRst s
  | .pvCfg => Sys2Proof.Machine.execPvCfg s
  | .pvProc => Sys2Proof.Machine.execPvProc s
  | .pvRst => Sys2Proof.Machine.execPvRst s

end Sys2Proof.Machine
end

