-- ==== Sys2Proof/Machine/Port.lean ====
section
/-! DEFINITION. The host port (spec 20_memory.md R103 to R107, R110; 30_encoding.md R146, R147): host reads, host writes, and
the execution of a word written to CMD. -/

namespace Sys2Proof.Machine

/-- The value a host read of a register returns (10_state.md R41 to R63); CMD reads 0 (R46). -/
def State.regValue (s : State) : Reg → Word
  | .id => Config.idValue | .version => Config.versionValue | .caps => Config.capsValue
  | .gstatus => s.gstatus | .cmd => 0#32
  | .arg0 => s.arg0 | .arg1 => s.arg1 | .arg2 => s.arg2 | .result => s.result
  | .err => s.err | .errInfo => s.errInfo | .errCmd => s.errCmd | .errAddr => s.errAddr | .irqEn => s.irqEn
  | .fftStat => statWord s.fft.cfg | .fftN => s.fft.n
  | .olaStat => statWord s.ola.cfg | .olaN => s.ola.n | .olaK => s.ola.k | .olaH => s.ola.h
  | .olaIncnt => s.ola.incnt | .olaOutptr => s.ola.outptr
  | .olsStat => statWord s.ols.cfg | .olsN => s.ols.n | .olsK => s.ols.k | .olsH => s.ols.h
  | .olsIncnt => s.ols.incnt | .olsOutptr => s.ols.outptr
  | .pvStat => statWord s.pv.cfg | .pvN => s.pv.n | .pvH => s.pv.h | .pvShift => s.pv.shift
  | .pvIncnt => s.pv.incnt | .pvOutptr => s.pv.outptr | .pvWsq => s.pv.wsq
  | .pvGain => s.pv.gain | .pvWet => s.pv.wet | .pvDry => s.pv.dry

/-- A host write of a register other than CMD (R107): ERR is write-1-to-clear (10_state.md R47), IRQ_EN keeps its enable bits
(R51), the read-only registers are unchanged (R67).  CMD holds no state (R46). -/
def State.writeReg (s : State) (v : Word) : Reg → State
  | .arg0 => { s with arg0 := v }
  | .arg1 => { s with arg1 := v }
  | .arg2 => { s with arg2 := v }
  | .err => { s with err := s.err &&& ~~~(v &&& errMask) }
  | .irqEn => { s with irqEn := v &&& errMask }
  | .pvGain => s.setPv { s.pv with gain := v }
  | .pvWet => s.setPv { s.pv with wet := v }
  | .pvDry => s.setPv { s.pv with dry := v }
  | .id | .version | .caps | .gstatus | .cmd | .result | .errInfo | .errCmd | .errAddr => s
  | .fftStat | .fftN | .olaStat | .olaN | .olaK | .olaH | .olaIncnt | .olaOutptr => s
  | .olsStat | .olsN | .olsK | .olsH | .olsIncnt | .olsOutptr => s
  | .pvStat | .pvN | .pvH | .pvShift | .pvIncnt | .pvOutptr | .pvWsq => s

/-- Execute a word written to CMD: a defined word runs its command, any other raises IllegalCommand with the word as written
(30_encoding.md R146, R147; 60_exceptions.md R421, R425). -/
def State.execute (s : State) (v : Word) : Host.Outcome State Fault Refusal :=
  match decodeWord v with
  | .command i => exec i s
  | .illegal _ => .next (s.raise .illegalCommand v)

/-- A host read of a mapped word (R106): no side effect, the value is answered. -/
def State.hostRead (s : State) (t : Target) : State :=
  match t with
  | .reg r => s.respond (.data (s.regValue r))
  | .ram r i => s.respond (.data (Memory.word s.mem (r.wordAddr i)))

/-- A host write of a mapped word (R107).  The write to CMD completes with its command (R104). -/
def State.hostWrite (s : State) (t : Target) (v : Word) : Host.Outcome State Fault Refusal :=
  match t with
  | .reg .cmd => (s.respond .written).execute v
  | .reg r => .next ((s.writeReg v r).respond .written)
  | .ram r i => .next ({ s with mem := Memory.writeWords s.mem (r.wordAddr i) [v] }.respond .written)

/-- An access that raises BusError: a read returns 0 with the error response, a write changes nothing else (R110). -/
def State.busFault (s : State) (a : HostAccess) : State :=
  let s1 := s.raiseBusError a.addr
  match a.kind with
  | .read => s1.respond (.busErrorData 0#32)
  | .write _ => s1.respond .written

/-- One host access, one atomic step (R104). -/
def State.hostAccess (s : State) (a : HostAccess) : Host.Outcome State Fault Refusal :=
  match a.target? with
  | none => .next (s.busFault a)
  | some t =>
    match a.kind with
    | .read => .next (s.hostRead t)
    | .write v => s.hostWrite t v

/-- The reset input: the registers and arrays at their reset values, the data RAMs unchanged, the port idle (70_reset_and_hazards.md
R460, R461). -/
def State.hardReset (s : State) : State := s.softReset.respond .idle

/-- One event from outside. -/
def State.event (s : State) : HostEvent → Host.Outcome State Fault Refusal
  | .access a => s.hostAccess a
  | .hardReset => .next s.hardReset

/-- The host access that writes a command word to CMD. -/
def cmdWrite (v : Word) : HostEvent := .access { width := .bits32, addr := 0x000010#23, kind := .write v }

end Sys2Proof.Machine
end

