-- ==== Sys2Proof/Machine/Step.lean ====
section
/-! DEFINITION. One step of CORE: the next host event, or nothing when the host issues none (spec 10_state.md R40,
20_memory.md R104, 60_exceptions.md R436). -/

namespace Sys2Proof.Machine

/-- The step takes the oldest event the host has issued (R104).  With none, CORE does nothing and holds its state (R40, R436). -/
def step (s : State) : Host.Outcome State Fault Refusal :=
  match s.port with
  | [] => .next s
  | e :: rest => State.event { s with port := rest } e

/-- The next event is the host's write of this word to CMD, which is how a command reaches CORE (R43, R46; assumption log 2). -/
def State.withFetchWord (s : State) (nbits w : Nat) : State :=
  { s with port := cmdWrite (BitVec.ofNat 32 (w % 2 ^ nbits)) :: s.port }

end Sys2Proof.Machine
end

