-- ==== Sys2Proof/Machine/Invariant.lean ====
section
/-! DEFINITION. The invariant of CORE: what every reachable state satisfies.  It says in one place the facts the spec states
between commands: reserved bits read 0 (10_state.md R47, R51, R66), an unconfigured unit is as reset left it (R65, R70), a
configured unit has legal sizes, its own tables and arrays of their lengths (R52 to R64), and the counters stay in their range
(R55, R61, 43_block_convolution.md R283). -/

namespace Sys2Proof.Machine

/-- The FFT unit between commands (10_state.md R52, R54). -/
structure FftUnit.Ok (u : FftUnit) : Prop where
  unconfigured : u.cfg = false → u = FftUnit.reset
  size : u.cfg = true → validSize u.n.toNat = true
  table : u.cfg = true → u.pk = packingTable u.n.toNat

/-- The sizes of a configured engine (43_block_convolution.md R281). -/
structure ConvEngine.Sized (e : ConvEngine) : Prop where
  size : validSize e.n.toNat = true
  kernel : 1 ≤ e.k.toNat ∧ e.k.toNat ≤ e.n.toNat
  hop : e.h.toNat = hopSize e.n.toNat e.k.toNat

/-- The stream state of a configured engine: array lengths and counters (10_state.md R55, R59; R283). -/
structure ConvEngine.Streaming (e : ConvEngine) : Prop where
  inbLength : e.inb.length = e.h.toNat
  tailLength : e.tail.length = e.k.toNat - 1
  outqLength : e.outq.length = e.h.toNat
  incntBelow : e.incnt.toNat < e.h.toNat
  outptrFollows : e.outptr.toNat = e.incnt.toNat ∨ e.outptr.toNat = e.incnt.toNat + 1

/-- A convolution engine between commands (10_state.md R55 to R59). -/
structure ConvEngine.Ok (e : ConvEngine) : Prop where
  unconfigured : e.cfg = false → e = ConvEngine.reset
  sized : e.cfg = true → e.Sized
  table : e.cfg = true → e.pk = packingTable e.n.toNat
  spectrum : e.cfg = true → e.kr.length = e.n.toNat / 2 + 1 ∧ e.ki.length = e.n.toNat / 2 + 1
  streaming : e.cfg = true → e.Streaming

/-- The configuration of a configured vocoder (46_phase_vocoder_resynth.md R374 to R378). -/
structure PvUnit.Sized (u : PvUnit) : Prop where
  size : validSize u.n.toNat = true
  hop : 1 ≤ u.h.toNat ∧ u.h.toNat < u.n.toNat
  shiftValid : validShift u.shift = true
  energyValid : validEnergy u.wsq = true
  winlLength : u.winl.length = u.n.toNat
  energy : u.wsq = windowEnergy u.winl
  advance : u.omega = expectedAdvance u.n.toNat u.h.toNat
  table : u.pk = packingTable u.n.toNat

/-- The stream state of a configured vocoder (10_state.md R61, R64; 46_phase_vocoder_resynth.md R385). -/
structure PvUnit.Streaming (u : PvUnit) : Prop where
  dlLength : u.dl.length = u.n.toNat
  tailLength : u.tail.length = u.n.toNat - u.h.toNat
  outqLength : u.outq.length = u.h.toNat
  prevLength : u.prev.length = u.n.toNat / 2 + 1
  psiLength : u.psi.length = u.n.toNat / 2 + 1
  incntBelow : u.incnt.toNat < u.h.toNat
  outptrFollows : u.outptr.toNat = u.incnt.toNat ∨ u.outptr.toNat = u.incnt.toNat + 1

/-- The vocoder between commands (10_state.md R60 to R64).  PV_GAIN, PV_WET and PV_DRY may hold anything: the host writes
them. -/
structure PvUnit.Ok (u : PvUnit) : Prop where
  unconfigured : u.cfg = false → u = { PvUnit.reset with gain := u.gain, wet := u.wet, dry := u.dry }
  sized : u.cfg = true → u.Sized
  streaming : u.cfg = true → u.Streaming

/-- The invariant of the whole state. -/
structure State.Inv (s : State) : Prop where
  memCanonical : Memory.wf s.mem
  memInRam : Memory.inRam s.mem
  errReserved : s.err &&& ~~~errMask = 0#32
  irqEnReserved : s.irqEn &&& ~~~errMask = 0#32
  errInfoFields : s.errInfo.toNat < 2 ^ 12 ∧ s.errInfo.toNat % 16 ≤ 8
  errAddrRange : s.errAddr.toNat < 2 ^ 23
  fft : s.fft.Ok
  ola : s.ola.Ok
  ols : s.ols.Ok
  pv : s.pv.Ok

end Sys2Proof.Machine
end

