-- ==== Sys2Proof/Safety.lean ====
section
/-! DEFINITION. What counts as a safe run of CORE: every state it reaches can step on, with no fault and no refusal (spec
60_exceptions.md R427, R429), and satisfies the invariant. -/

namespace Sys2Proof

open Sys2Proof.Machine

/-- The states a run from `s` reaches. -/
inductive Reaches (s : State) : State → Prop where
  | refl : Reaches s s
  | step {t u : State} : Reaches s t → Machine.step t = .next u → Reaches s u

/-- A step that goes on. -/
def Steps (s : State) : Prop := ∃ t, Machine.step s = .next t

/-- Every state reached from `s` goes on and keeps the invariant. -/
def SafeFrom (s : State) : Prop := ∀ t, Reaches s t → Steps t ∧ t.Inv

end Sys2Proof
end

