-- ==== Sys2Proof/Certificates/Slice0/Obligations.lean ====
section
/-! DEFINITION. The statements for the provers.  Each says what a numbered rule of the spec says the machine does; the helpers
before them restate the spec's terms (the error record of 60_exceptions.md R421, the reset table of 10_state.md R70, spans of RAM
words). -/

namespace Sys2Proof.Statements

open Sys2Proof.Machine

/-- `s` with error `code` of command `i` recorded, and nothing else changed (60_exceptions.md R421): ERR[code] is set, ERRINFO is
[11:8] OP, [7:4] UNIT, [3:0] CODE, ERRCMD is the command's word. -/
def recorded (s : State) (code : Nat) (i : Instr) : State :=
  { s with
    err := s.err ||| BitVec.ofNat 32 (2 ^ code)
    errInfo := BitVec.ofNat 32 (code + 16 * i.unit + 256 * i.op)
    errCmd := encode i }

/-- The error record of two states is the same. -/
def SameRecord (s t : State) : Prop :=
  t.err = s.err ∧ t.errInfo = s.errInfo ∧ t.errCmd = s.errCmd ∧ t.errAddr = s.errAddr

/-- The byte address `a` lies outside the first `n` words of a RAM. -/
def Outside (r : Ram) (n a : Nat) : Prop := a < r.base ∨ r.base + 4 * n ≤ a

/-- The first `n` words of a RAM hold `f 0`, ..., `f (n-1)`. -/
def Holds (m : Memory) (r : Ram) (n : Nat) (f : Nat → Word) : Prop := ∀ i, i < n → Memory.word m (r.wordAddr i) = f i

/-- Every element of a streaming array is +0.0. -/
def Silent (a : List Word) : Prop := ∀ x ∈ a, x = 0#32

/-- A convolution engine at the values of R70; its cached tables are unspecified there. -/
def EngineAtReset (e : ConvEngine) : Prop :=
  e.cfg = false ∧ e.n = 0#32 ∧ e.k = 0#32 ∧ e.h = 0#32 ∧ e.incnt = 0#32 ∧ e.outptr = 0#32 ∧
  Silent e.inb ∧ Silent e.tail ∧ Silent e.outq

/-- The vocoder at the values of R70; its latched tables are unspecified there. -/
def VocoderAtReset (u : PvUnit) : Prop :=
  u.cfg = false ∧ u.n = 0#32 ∧ u.h = 0#32 ∧ u.shift = 0#32 ∧ u.incnt = 0#32 ∧ u.outptr = 0#32 ∧ u.wsq = 0#32 ∧
  u.gain = 0#32 ∧ u.wet = 0x3F800000#32 ∧ u.dry = 0#32 ∧
  Silent u.dl ∧ Silent u.tail ∧ Silent u.outq ∧ Silent u.prev ∧ Silent u.psi

/-- Every register and streaming array at its reset value (10_state.md R70). -/
def AtReset (t : State) : Prop :=
  t.arg0 = 0#32 ∧ t.arg1 = 0#32 ∧ t.arg2 = 0#32 ∧ t.result = 0#32 ∧
  t.regValue .id = 0x4E575643#32 ∧ t.regValue .version = 0x00070100#32 ∧ t.regValue .caps = 0x0000100C#32 ∧
  t.regValue .gstatus = 0#32 ∧ t.err = 0#32 ∧ t.errInfo = 0#32 ∧ t.errCmd = 0#32 ∧ t.errAddr = 0#32 ∧ t.irqEn = 0#32 ∧
  t.fft.cfg = false ∧ t.fft.n = 0#32 ∧ EngineAtReset t.ola ∧ EngineAtReset t.ols ∧ VocoderAtReset t.pv ∧ t.irq = false

/-- The CFG command of an engine. -/
def cfgOf : Strategy → Instr
  | .overlapAdd => .olaCfg
  | .overlapSave => .olsCfg

/-- The PROC command of an engine. -/
def procOf : Strategy → Instr
  | .overlapAdd => .olaProc
  | .overlapSave => .olsProc

/-- The APPLY command of an engine. -/
def applyOf : Strategy → Instr
  | .overlapAdd => .olaApply
  | .overlapSave => .olsApply

/-- The RST command of an engine. -/
def rstOf : Strategy → Instr
  | .overlapAdd => .olaRst
  | .overlapSave => .olsRst

/-- A command that runs only on a configured unit (60_exceptions.md R424), with that unit's CFG bit. -/
def needsConfig (s : State) : Instr → Option Bool
  | .fftFwd | .fftInv | .fftMag _ | .fftPwr _ => some s.fft.cfg
  | .olaProc | .olaApply | .olaRst => some s.ola.cfg
  | .olsProc | .olsApply | .olsRst => some s.ols.cfg
  | .pvProc | .pvRst => some s.pv.cfg
  | .nop | .srst | .fftCfg | .olaCfg | .olsCfg | .pvCfg => none

/-- The circular convolution of a frame with the cached kernel spectrum, product by product (43_block_convolution.md R282). -/
def circular (e : ConvEngine) (f : List Word) : List Word :=
  let n := e.n.toNat
  let sp := rfwd e.pk n f
  rinv e.pk n
    { re := (List.range (n / 2 + 1)).map (fun k =>
        fsub (fmul (at0 sp.re k) (at0 e.kr k)) (fmul (at0 sp.im k) (at0 e.ki k)))
      im := (List.range (n / 2 + 1)).map (fun k =>
        fadd (fmul (at0 sp.re k) (at0 e.ki k)) (fmul (at0 sp.im k) (at0 e.kr k))) }

/-- A host access of a state's next event. -/
def NextAccess (s : State) (w : AccessWidth) (addr : Addr) (k : AccessKind) (rest : List HostEvent) : Prop :=
  s.port = .access { width := w, addr := addr, kind := k } :: rest

/-- A register or RAM word of the address map lies at the byte address (20_memory.md R109). -/
def Mapped (a : Nat) : Prop := (∃ r : Reg, r.addr = a) ∨ (∃ (r : Ram) (i : Nat), i < r.words ∧ r.wordAddr i = a)

/-- The words R142 lists (30_encoding.md). -/
def definedWords : List Word :=
  [0x00000000#32, 0x00000001#32, 0x00000010#32, 0x00000011#32, 0x00000012#32, 0x00000013#32, 0x00000113#32, 0x00000014#32,
   0x00000114#32, 0x00000020#32, 0x00000021#32, 0x00000022#32, 0x00000023#32, 0x00000030#32, 0x00000031#32, 0x00000032#32,
   0x00000033#32, 0x00000040#32, 0x00000041#32, 0x00000043#32]

/-- The words R147 names as reserved and illegal, bullet by bullet (30_encoding.md): MBZ not zero; NORM = 1 on another command than
FFT.MAG and FFT.PWR; an OP its UNIT does not have; a UNIT of 5 to 15. -/
def ReservedWord (v : Word) : Prop :=
  v.toNat / 512 ≠ 0 ∨
  (v.toNat / 256 % 2 = 1 ∧ ¬ (v.toNat / 16 % 16 = 1 ∧ (v.toNat % 16 = 3 ∨ v.toNat % 16 = 4))) ∨
  (v.toNat / 16 % 16 = 0 ∧ 2 ≤ v.toNat % 16) ∨
  (v.toNat / 16 % 16 = 1 ∧ 5 ≤ v.toNat % 16) ∨
  ((v.toNat / 16 % 16 = 2 ∨ v.toNat / 16 % 16 = 3) ∧ 4 ≤ v.toNat % 16) ∨
  (v.toNat / 16 % 16 = 4 ∧ (v.toNat % 16 = 2 ∨ 4 ≤ v.toNat % 16)) ∨
  5 ≤ v.toNat / 16 % 16

/-- A STAT register's word: bit 0 is CFG, the others read 0 (10_state.md R52, R55, R61). -/
def statOf (cfg : Bool) : Word := if cfg then 0x00000001#32 else 0x00000000#32

/-- The `l`-bit reversal: bit b of `i` becomes bit l-1-b of the result (42_streaming_fft.md R231). -/
def bitReversed (l i : Nat) : Nat := ((List.range l).map (fun b => i / 2 ^ b % 2 * 2 ^ (l - 1 - b))).sum

/-- `BFLY_FWD` as R233 writes it. -/
def forwardButterfly (a b : Cx) (c sn : Word) : Cx × Cx :=
  let tr := fadd (fmul c b.re) (fmul sn b.im)
  let ti := fsub (fmul c b.im) (fmul sn b.re)
  (⟨fadd a.re tr, fadd a.im ti⟩, ⟨fsub a.re tr, fsub a.im ti⟩)

/-- `BFLY_INV` as R234 writes it. -/
def inverseButterfly (a b : Cx) (c sn : Word) : Cx × Cx :=
  let tr := fsub (fmul c b.re) (fmul sn b.im)
  let ti := fadd (fmul c b.im) (fmul sn b.re)
  (⟨fadd a.re tr, fadd a.im ti⟩, ⟨fsub a.re tr, fsub a.im ti⟩)

/-- `w` is the complex FFT of the M = 2^l elements `z` with the given butterfly (R231, R232): Z 0 is the bit-reversed `z`; stage s
combines the elements g·span + j and g·span + j + half by the butterfly whose twiddle stands at N-index 2m, m = j·(M/span), in the
ROM of stride N_MAX/N (41_fft_twiddle_rom.md R202); `w` is the last stage.  The equations leave Z no freedom. -/
def IsComplexFft (bfly : Cx → Cx → Word → Word → Cx × Cx) (l : Nat) (z w : Nat → Cx) : Prop :=
  ∃ Z : Nat → Nat → Cx,
    (∀ i < 2 ^ l, Z 0 i = z (bitReversed l i)) ∧
    (∀ s g j, 1 ≤ s → s ≤ l → g < 2 ^ l / 2 ^ s → j < 2 ^ (s - 1) →
      let p := g * 2 ^ s + j
      let q := p + 2 ^ (s - 1)
      let k := 2 * (j * (2 ^ l / 2 ^ s)) * (4096 / 2 ^ (l + 1))
      (Z s p, Z s q) = bfly (Z (s - 1) p) (Z (s - 1) q) (romC k) (romS k)) ∧
    ∀ i < 2 ^ l, w i = Z l i

/-- The word of 2^(1-e): INV_M and TWO_OVER_N of a transform of size 2^e (00_scope.md R16). -/
def powerOfHalf (e : Nat) : Word := BitVec.ofNat 32 ((128 - e) * 2 ^ 23)

end Sys2Proof.Statements

open Sys2Proof Sys2Proof.Machine Sys2Proof.Statements

/-! ### Encoding (30_encoding.md) -/

/-- Words written out from R142 decode to the commands they stand for. -/
def Obligations.SpecWordsDecode : Prop :=
  decodeWord 0x00000000#32 = .command .nop ∧ decodeWord 0x00000001#32 = .command .srst ∧
  decodeWord 0x00000010#32 = .command .fftCfg ∧ decodeWord 0x00000113#32 = .command (.fftMag true) ∧
  decodeWord 0x00000014#32 = .command (.fftPwr false) ∧ decodeWord 0x00000022#32 = .command .olaApply ∧
  decodeWord 0x00000033#32 = .command .olsRst ∧ decodeWord 0x00000041#32 = .command .pvProc ∧
  decodeWord 0x00000043#32 = .command .pvRst

/-- Decoding and encoding agree in both directions: a word is the command `i` exactly when it is `i`'s word, and the four bytes of
`i`'s word decode to `i` whatever follows (R142, R148). -/
def Obligations.DecodeInvertsEncode : Prop :=
  (∀ (v : Word) (i : Instr), decodeWord v = .command i ↔ v = encode i) ∧
  (∀ (i : Instr) (rest : List Byte), decodeBytes (encodeBytes i ++ rest) = .command i)

/-- The decoder rejects exactly the words R147's list names (R146, R147). -/
def Obligations.IllegalWordsAreThoseListed : Prop :=
  ∀ v : Word, (∃ why, decodeWord v = .illegal why) ↔ ReservedWord v

/-- The words R142 does not list are those R147 names; a CMD write of one raises IllegalCommand, whatever the state, with the fields
of the word as written and ERRCMD the word, and has no other effect (R147, 60_exceptions.md R425). -/
def Obligations.UndefinedWordRaisesIllegalCommand : Prop :=
  (∀ v : Word, v ∉ definedWords ↔ ReservedWord v) ∧
  ∀ (s : State) (v : Word) (rest : List HostEvent), s.port = cmdWrite v :: rest → v ∉ definedWords →
    step s = .next { s with
      err := s.err ||| 0x00000020#32
      errInfo := BitVec.ofNat 32 (5 + 16 * (v.toNat / 16 % 16) + 256 * (v.toNat % 16))
      errCmd := v
      port := rest
      resp := .written }

/-! ### The step and the host port (20_memory.md) -/

/-- A step whose event is the write of a command's word to CMD is that command's meaning, on the state whose event is taken and
whose write is answered (R104, 30_encoding.md R146). -/
def Obligations.StepRunsDecodedCommand : Prop :=
  ∀ (s : State) (v : Word) (i : Instr) (rest : List HostEvent), s.port = cmdWrite v :: rest → decodeWord v = .command i →
    step s = exec i { s with port := rest, resp := .written }

/-- With no host event CORE does nothing and holds its state (10_state.md R40, 60_exceptions.md R436). -/
def Obligations.IdleStepHoldsState : Prop := ∀ s : State, s.port = [] → step s = .next s

/-- No step stops: no fault, no refusal, whatever ERR holds (60_exceptions.md R427, R429). -/
def Obligations.EveryStepGoesOn : Prop := ∀ s : State, ∃ t, step s = .next t

/-- The address map names exactly the words R109 lists, each by one target: no two of its windows overlap, and nothing else is
mapped (R109, R111). -/
def Obligations.AddressMapIsExact : Prop :=
  (∀ (addr : Addr) (r : Reg), target addr = some (.reg r) ↔ r.addr = addr.toNat) ∧
  (∀ (addr : Addr) (r : Ram) (i : Nat), target addr = some (.ram r i) ↔ i < r.words ∧ r.wordAddr i = addr.toNat)

/-- A host access of another width, at a misaligned address or at an unmapped one raises BusError and changes nothing else; a read
returns 0 with the error response (R110). -/
def Obligations.BadAccessRaisesBusError : Prop :=
  ∀ (s : State) (w : AccessWidth) (addr : Addr) (k : AccessKind) (rest : List HostEvent), NextAccess s w addr k rest →
    (w ≠ .bits32 ∨ addr.toNat % 4 ≠ 0 ∨ ¬ Mapped addr.toNat) →
    ∃ t, step s = .next t ∧
      t = { s with
        err := s.err ||| 0x00000100#32
        errInfo := 0x00000008#32
        errAddr := addr.setWidth 32
        port := rest
        resp := t.resp } ∧
      (k = .read → t.resp = .busErrorData 0#32)

/-- A host read of a register answers its value, of CMD 0, of a RAM word the word, and changes nothing (R106, 10_state.md R67); and
the value of each register is the field it names, a STAT register its CFG bit, an identity register its constant (10_state.md R41 to
R63). -/
def Obligations.HostReadHasNoSideEffect : Prop :=
  (∀ (s : State) (r : Reg) (addr : Addr) (rest : List HostEvent), NextAccess s .bits32 addr .read rest → r.addr = addr.toNat →
    step s = .next { s with port := rest, resp := .data (s.regValue r) }) ∧
  (∀ (s : State) (r : Ram) (i : Nat) (addr : Addr) (rest : List HostEvent), NextAccess s .bits32 addr .read rest →
    i < r.words → r.wordAddr i = addr.toNat →
    step s = .next { s with port := rest, resp := .data (Memory.word s.mem addr.toNat) }) ∧
  (∀ s : State,
    (s.regValue .id = 0x4E575643#32 ∧ s.regValue .version = 0x00070100#32 ∧ s.regValue .caps = 0x0000100C#32 ∧
      s.regValue .gstatus = s.gstatus ∧ s.regValue .cmd = 0#32 ∧ s.regValue .arg0 = s.arg0 ∧ s.regValue .arg1 = s.arg1 ∧
      s.regValue .arg2 = s.arg2 ∧ s.regValue .result = s.result ∧ s.regValue .err = s.err ∧
      s.regValue .errInfo = s.errInfo ∧ s.regValue .errCmd = s.errCmd ∧ s.regValue .errAddr = s.errAddr ∧
      s.regValue .irqEn = s.irqEn) ∧
    (s.regValue .fftStat = statOf s.fft.cfg ∧ s.regValue .fftN = s.fft.n) ∧
    (s.regValue .olaStat = statOf s.ola.cfg ∧ s.regValue .olaN = s.ola.n ∧ s.regValue .olaK = s.ola.k ∧
      s.regValue .olaH = s.ola.h ∧ s.regValue .olaIncnt = s.ola.incnt ∧ s.regValue .olaOutptr = s.ola.outptr) ∧
    (s.regValue .olsStat = statOf s.ols.cfg ∧ s.regValue .olsN = s.ols.n ∧ s.regValue .olsK = s.ols.k ∧
      s.regValue .olsH = s.ols.h ∧ s.regValue .olsIncnt = s.ols.incnt ∧ s.regValue .olsOutptr = s.ols.outptr) ∧
    (s.regValue .pvStat = statOf s.pv.cfg ∧ s.regValue .pvN = s.pv.n ∧ s.regValue .pvH = s.pv.h ∧
      s.regValue .pvShift = s.pv.shift ∧ s.regValue .pvIncnt = s.pv.incnt ∧ s.regValue .pvOutptr = s.pv.outptr ∧
      s.regValue .pvWsq = s.pv.wsq ∧ s.regValue .pvGain = s.pv.gain ∧ s.regValue .pvWet = s.pv.wet ∧
      s.regValue .pvDry = s.pv.dry))

/-- A host write of a RAM word is read back from that word, leaves every other byte, and changes nothing else (R107, R114); so a
write to a kernel or window RAM leaves the engine that latched it as it was (R118). -/
def Obligations.RamWriteReadsBack : Prop :=
  ∀ (s : State) (r : Ram) (i : Nat) (v : Word) (addr : Addr) (rest : List HostEvent),
    NextAccess s .bits32 addr (.write v) rest → i < r.words → r.wordAddr i = addr.toNat →
    ∃ t, step s = .next t ∧ t = { s with mem := t.mem, port := rest, resp := .written } ∧
      Memory.word t.mem (r.wordAddr i) = v ∧
      ∀ a, a < addr.toNat ∨ addr.toNat + 4 ≤ a → Memory.byte t.mem a = Memory.byte s.mem a

/-- A host write of ERR clears exactly the bits 1 to 8 that are written as 1, and changes nothing else (10_state.md R47). -/
def Obligations.ErrIsWriteOneToClear : Prop :=
  ∀ (s : State) (v : Word) (rest : List HostEvent), NextAccess s .bits32 0x000024#23 (.write v) rest →
    ∃ t, step s = .next t ∧ t = { s with err := t.err, port := rest, resp := .written } ∧
      ∀ i < 32, t.err.getLsbD i = (s.err.getLsbD i && !(v.getLsbD i && decide (1 ≤ i ∧ i ≤ 8)))

/-- A host write stores the word in ARG0 to ARG2, PV_GAIN, PV_WET or PV_DRY, and its bits 1 to 8 in IRQ_EN; it changes nothing
else (R107, 10_state.md R41, R51, R62, R63). -/
def Obligations.WritableRegistersStore : Prop :=
  ∀ (s : State) (v : Word) (rest : List HostEvent),
    (NextAccess s .bits32 0x000014#23 (.write v) rest → step s = .next { s with arg0 := v, port := rest, resp := .written }) ∧
    (NextAccess s .bits32 0x000018#23 (.write v) rest → step s = .next { s with arg1 := v, port := rest, resp := .written }) ∧
    (NextAccess s .bits32 0x00001C#23 (.write v) rest → step s = .next { s with arg2 := v, port := rest, resp := .written }) ∧
    (NextAccess s .bits32 0x000034#23 (.write v) rest →
      step s = .next { s with irqEn := v &&& 0x000001FE#32, port := rest, resp := .written }) ∧
    (NextAccess s .bits32 0x00041C#23 (.write v) rest →
      step s = .next { s with pv := { s.pv with gain := v }, port := rest, resp := .written }) ∧
    (NextAccess s .bits32 0x000420#23 (.write v) rest →
      step s = .next { s with pv := { s.pv with wet := v }, port := rest, resp := .written }) ∧
    (NextAccess s .bits32 0x000424#23 (.write v) rest →
      step s = .next { s with pv := { s.pv with dry := v }, port := rest, resp := .written })

/-- A host write to a read-only register completes, changes nothing and raises no error; CMD reads 0; no register read has a side
effect (10_state.md R67). -/
def Obligations.ReadOnlyRegistersIgnoreWrites : Prop :=
  (∀ (s : State) (v : Word) (r : Reg) (addr : Addr) (rest : List HostEvent),
    r ∈ [Reg.id, .version, .caps, .gstatus, .result, .errInfo, .errCmd, .errAddr, .fftStat, .fftN,
      .olaStat, .olaN, .olaK, .olaH, .olaIncnt, .olaOutptr, .olsStat, .olsN, .olsK, .olsH, .olsIncnt, .olsOutptr,
      .pvStat, .pvN, .pvH, .pvShift, .pvIncnt, .pvOutptr, .pvWsq] →
    NextAccess s .bits32 addr (.write v) rest → r.addr = addr.toNat →
    step s = .next { s with port := rest, resp := .written }) ∧
  (∀ (s : State) (rest : List HostEvent), NextAccess s .bits32 0x000010#23 .read rest →
    step s = .next { s with port := rest, resp := .data 0#32 }) ∧
  (∀ (s : State) (r : Reg) (addr : Addr) (rest : List HostEvent), NextAccess s .bits32 addr .read rest → r.addr = addr.toNat →
    ∃ v, step s = .next { s with port := rest, resp := .data v })

/-! ### Status and interrupt (10_state.md, 60_exceptions.md) -/

/-- GSTATUS copies the four CFG bits in [3:0], ERR_ANY in [8] and the IRQ level in [9]; its other bits read 0, and so does the whole
of it after reset; a write to it is ignored (10_state.md R45). -/
def Obligations.GstatusBits : Prop :=
  (∀ s : State,
    s.gstatus.getLsbD 0 = s.fft.cfg ∧ s.gstatus.getLsbD 1 = s.ola.cfg ∧ s.gstatus.getLsbD 2 = s.ols.cfg ∧
    s.gstatus.getLsbD 3 = s.pv.cfg ∧ (s.gstatus.getLsbD 8 = true ↔ s.err ≠ 0#32) ∧ s.gstatus.getLsbD 9 = s.irq ∧
    (∀ i, 4 ≤ i → i ≠ 8 → i ≠ 9 → s.gstatus.getLsbD i = false)) ∧
  State.reset.gstatus = 0#32 ∧
  (∀ (s : State) (v : Word) (rest : List HostEvent), NextAccess s .bits32 0x00000C#23 (.write v) rest →
    step s = .next { s with port := rest, resp := .written })

/-- In every state, so after every access, the interrupt output is high exactly when some error code 1 to 8 is both recorded in ERR
and enabled in IRQ_EN, and GSTATUS[9] reads its level (60_exceptions.md R430). -/
def Obligations.InterruptLineIsOrOfEnabledErrors : Prop :=
  ∀ s : State, (s.irq = true ↔ ∃ i, 1 ≤ i ∧ i ≤ 8 ∧ s.err.getLsbD i = true ∧ s.irqEn.getLsbD i = true) ∧
    s.gstatus.getLsbD 9 = s.irq

/-! ### Reset and the global commands (10_state.md R70, 40_global.md, 70_reset_and_hazards.md) -/

/-- SRST, the reset input and power-on put every register and streaming array at its reset value; SRST and the reset input leave
the data RAMs, power-on takes any draw of them (10_state.md R70, 40_global.md R181, 70_reset_and_hazards.md R460, R461).  The model's
choices: what becomes of the port and of resp (assumption logs 2, 11), the draw held as cells (log 3), streaming arrays that hold
only their elements in use (log 4).  The cached tables, unspecified in R70, are not stated. -/
def Obligations.ResetSetsEveryValue : Prop :=
  (∀ s : State, ∃ t, exec .srst s = .next t ∧ AtReset t ∧ t.mem = s.mem ∧ t.port = s.port ∧ t.resp = s.resp) ∧
  (∀ (s : State) (rest : List HostEvent), s.port = .hardReset :: rest →
    ∃ t, step s = .next t ∧ AtReset t ∧ t.mem = s.mem ∧ t.port = rest) ∧
  (∀ ram : Memory, AtReset (State.powerOn ram) ∧ (State.powerOn ram).mem = ram) ∧
  AtReset State.reset

/-- The word 0 is NOP, and NOP changes nothing, in any state (40_global.md R180). -/
def Obligations.NopChangesNothing : Prop :=
  decodeWord 0x00000000#32 = .command .nop ∧ ∀ s : State, exec .nop s = .next s

/-! ### Errors (60_exceptions.md) -/

/-- Every command of the units but CFG raises NotConfigured while its unit's CFG bit is 0, and changes nothing but the error record;
a CFG command never raises it (60_exceptions.md R424). -/
def Obligations.UnconfiguredUnitRefuses : Prop :=
  (∀ (s : State) (i : Instr), needsConfig s i = some false → exec i s = .next (recorded s 4 i)) ∧
  (∀ (s t : State) (i : Instr), i ∈ [Instr.fftCfg, .olaCfg, .olsCfg, .pvCfg] → exec i s = .next t →
    t.err.getLsbD 4 = s.err.getLsbD 4)

/-- A command raises at most one error: either one code 1 to 7 is recorded and nothing else changes, or (SRST aside) the error
record is left as it was (60_exceptions.md R421 to R423). -/
def Obligations.OneErrorAndNoPartialEffect : Prop :=
  ∀ (s t : State) (i : Instr), exec i s = .next t →
    (∃ code, 1 ≤ code ∧ code ≤ 7 ∧ t = recorded s code i) ∨ i = .srst ∨ SameRecord s t

/-- RESULT is written by a successful CFG, PROC or APPLY only, and cleared by SRST: NOP, the FFT data commands and the RST commands
leave it, and so does every command that records an error (10_state.md R42, 60_exceptions.md R422). -/
def Obligations.ResultIsWrittenOnlyByItsCommands : Prop :=
  ∀ (s t : State) (i : Instr), exec i s = .next t →
    (i ∈ [Instr.nop, .fftFwd, .fftInv, .fftMag false, .fftMag true, .fftPwr false, .fftPwr true, .olaRst, .olsRst, .pvRst] →
      t.result = s.result) ∧
    (i ≠ .srst → ¬ SameRecord s t → t.result = s.result) ∧
    (i = .srst → t.result = 0#32)

/-- A CFG bit is set only by its unit's CFG and cleared only by SRST (10_state.md R65). -/
def Obligations.CfgBitsChangeOnlyByConfigAndReset : Prop :=
  ∀ (s t : State) (i : Instr), exec i s = .next t → i ≠ .srst →
    (t.fft.cfg = s.fft.cfg ∨ (i = .fftCfg ∧ t.fft.cfg = true)) ∧
    (t.ola.cfg = s.ola.cfg ∨ (i = .olaCfg ∧ t.ola.cfg = true)) ∧
    (t.ols.cfg = s.ols.cfg ∨ (i = .olsCfg ∧ t.ols.cfg = true)) ∧
    (t.pv.cfg = s.pv.cfg ∨ (i = .pvCfg ∧ t.pv.cfg = true))

/-- No command but SRST writes ARG0 to ARG2, IRQ_EN, ERRADDR, PV_WET or PV_DRY, and only PV.CFG writes PV_GAIN; no command touches
the port (10_state.md R41, R50, R51, R62, R63). -/
def Obligations.CommandsLeaveHostRegisters : Prop :=
  ∀ (s t : State) (i : Instr), exec i s = .next t →
    t.port = s.port ∧ t.resp = s.resp ∧
    (i ≠ .srst → t.arg0 = s.arg0 ∧ t.arg1 = s.arg1 ∧ t.arg2 = s.arg2 ∧ t.irqEn = s.irqEn ∧ t.errAddr = s.errAddr ∧
      t.pv.wet = s.pv.wet ∧ t.pv.dry = s.pv.dry ∧ (i ≠ .pvCfg → t.pv.gain = s.pv.gain))

/-! ### The twiddle ROM and the packing tables (41_fft_twiddle_rom.md) -/

/-- The ROM's exact entries, its worked entries, and its symmetries; at N_MAX/4 both C entries are the one +0.0 (R200, R203, R204;
assumption log 7). -/
def Obligations.TwiddleRomSymmetries : Prop :=
  romC 0 = 0x3F800000#32 ∧ romS 0 = 0#32 ∧ romC 1024 = 0#32 ∧ romS 1024 = 0x3F800000#32 ∧ romC 2048 = 0xBF800000#32 ∧
  romS 2048 = 0#32 ∧
  [1, 2, 256, 512, 768, 1536, 2047].map (fun k => (romC k, romS k)) =
    [(0x3F7FFFEC#32, 0x3AC90FD5#32), (0x3F7FFFB1#32, 0x3B490FC6#32), (0x3F6C835E#32, 0x3EC3EF15#32),
     (0x3F3504F3#32, 0x3F3504F3#32), (0x3EC3EF15#32, 0x3F6C835E#32), (0xBF3504F3#32, 0x3F3504F3#32),
     (0xBF7FFFEC#32, 0x3AC90FD5#32)] ∧
  (∀ k ≤ 1024, romS k = romC (1024 - k)) ∧
  (∀ k ≤ 2048, romS (2048 - k) = romS k) ∧
  (∀ k ≤ 2048, k ≠ 1024 → romC (2048 - k) = romC k ^^^ 0x80000000#32)

/-- The packing tables: PK[0], PK[N/4] and Bi = -Ai exactly, for every legal size; the transforms of size 2 never read theirs; the
worked entries of N = 8 (R206); and every entry by the operations of R205 on the ROM read with stride N_MAX/N (R202). -/
def Obligations.PackingTableFacts : Prop :=
  (∀ e, 1 ≤ e → e ≤ 12 →
    (packingTable (2 ^ e)).length = 2 ^ e / 2 ∧
    (packingTable (2 ^ e))[0]? = some ⟨0x3F000000#32, 0xBF000000#32, 0x3F000000#32, 0x3F000000#32⟩ ∧
    (2 ≤ e → (packingTable (2 ^ e))[2 ^ e / 4]? = some ⟨0x00000000#32, 0x80000000#32, 0x3F800000#32, 0x00000000#32⟩) ∧
    (∀ p ∈ packingTable (2 ^ e), p.bi = p.ai ^^^ 0x80000000#32) ∧
    (∀ k, k < 2 ^ e / 2 →
      let c := romC (k * (4096 / 2 ^ e))
      let sn := romS (k * (4096 / 2 ^ e))
      (packingTable (2 ^ e))[k]? = some
        ⟨fmul 0x3F000000#32 (fsub 0x3F800000#32 sn), fmul 0xBF000000#32 c,
          fmul 0x3F000000#32 (fadd 0x3F800000#32 sn), fmul 0x3F000000#32 c⟩)) ∧
  (∀ (pk pk' : List Pk) (x : List Word) (sp : Spectrum), rfwd pk 2 x = rfwd pk' 2 x ∧ rinv pk 2 sp = rinv pk' 2 sp) ∧
  (packingTable 8).drop 1 =
    [⟨0x3E15F61A#32, 0xBEB504F3#32, 0x3F5A827A#32, 0x3EB504F3#32⟩,
     ⟨0x00000000#32, 0x80000000#32, 0x3F800000#32, 0x00000000#32⟩,
     ⟨0x3E15F61A#32, 0x3EB504F3#32, 0x3F5A827A#32, 0xBEB504F3#32⟩]

/-! ### binary32 (00_scope.md R15, R17) -/

/-- Rounding gives the nearest binary32 magnitude, ties to the even one, and infinity exactly from the overflow threshold on: for a
magnitude num/den in units of 2^-149, no other finite encoding `m` is nearer, and at equal distance the result is the even one
(R15; IEEE 754's roundTiesToEven, assumption log 8). -/
def Obligations.RoundingIsToNearestEven : Prop :=
  ∀ num den : Nat, 0 < den →
    (roundMag num den = infMag ↔ (2 ^ 25 - 1) * 2 ^ 252 * den ≤ num) ∧
    (roundMag num den < infMag → ∀ m : Nat, m < infMag →
      let u := fUnits (packWord false (roundMag num den)) * den
      let w := fUnits (packWord false m) * den
      Int.natAbs ((u : Int) - num) ≤ Int.natAbs ((w : Int) - num) ∧
      (Int.natAbs ((u : Int) - num) = Int.natAbs ((w : Int) - num) → m = roundMag num den ∨ roundMag num den % 2 = 0))

/-- What a word stands for (R18), and every binary32 operation on finite words as its exact result rounded once (R15): the sum,
difference, product and quotient by `roundMag`; the root as the magnitude nearest to the real root of n = u·2^149 squared units (the
root lies on the result's side of the midpoint to any other magnitude, and at a tie the result is even), over the exact integer root;
fceil the least integral value at or above, with the operand's sign; i2f, ftrunc_u and flt. -/
def Obligations.OperationsRoundTheExactResult : Prop :=
  (∀ x : Word,
    fSign x = x.getLsbD 31 ∧ (isFinite x = true ↔ x.toNat / 2 ^ 23 % 2 ^ 8 ≠ 255) ∧
    fUnits x = (if x.toNat / 2 ^ 23 % 2 ^ 8 = 0 then x.toNat % 2 ^ 23
      else (2 ^ 23 + x.toNat % 2 ^ 23) * 2 ^ (x.toNat / 2 ^ 23 % 2 ^ 8 - 1)) ∧
    fValue x = (if fSign x then -(fUnits x : Int) else (fUnits x : Int))) ∧
  (∀ (neg : Bool) (m : Nat), m < 2 ^ 31 → (packWord neg m).toNat = (if neg then 2 ^ 31 else 0) + m) ∧
  (∀ a b : Word, isFinite a = true → isFinite b = true →
    (fValue a + fValue b ≠ 0 →
      fadd a b = packWord (decide (fValue a + fValue b < 0)) (roundMag (fValue a + fValue b).natAbs 1)) ∧
    (fValue a - fValue b ≠ 0 →
      fsub a b = packWord (decide (fValue a - fValue b < 0)) (roundMag (fValue a - fValue b).natAbs 1)) ∧
    fmul a b = packWord (fSign a != fSign b) (roundMag (fUnits a * fUnits b) (2 ^ 149)) ∧
    (fUnits b ≠ 0 → fdiv a b = packWord (fSign a != fSign b) (roundMag (fUnits a * 2 ^ 149) (fUnits b))) ∧
    (flt a b = true ↔ fValue a < fValue b)) ∧
  (∀ n : Nat, isqrt n * isqrt n ≤ n ∧ n < (isqrt n + 1) * (isqrt n + 1)) ∧
  (∀ a : Word, isFinite a = true → fSign a = false → fUnits a ≠ 0 →
    let n := fUnits a * 2 ^ 149
    let u := fUnits (fsqrt a)
    isFinite (fsqrt a) = true ∧ fSign (fsqrt a) = false ∧
    ∀ m, m < infMag →
      let w := fUnits (packWord false m)
      (u < w → 4 * n ≤ (u + w) ^ 2) ∧ (w < u → (u + w) ^ 2 ≤ 4 * n) ∧
      (u ≠ w → (u + w) ^ 2 = 4 * n → fMag (fsqrt a) % 2 = 0)) ∧
  (∀ a : Word, isFinite a = true →
    isFinite (fceil a) = true ∧ fSign (fceil a) = fSign a ∧ (2 : Int) ^ 149 ∣ fValue (fceil a) ∧
    fValue a ≤ fValue (fceil a) ∧ fValue (fceil a) < fValue a + 2 ^ 149) ∧
  (∀ n : Nat, i2f n = packWord false (roundMag (n * 2 ^ 149) 1)) ∧
  (∀ p : Word, isFinite p = true → fSign p = false → ftruncU p = fUnits p / 2 ^ 149)

/-- The special values (R17): when an operation's result is NaN, and that it is then the canonical NaN whatever the payloads; the
infinities and the divisions by zero; the sign of an exact zero sum or difference; the roots and ceilings of zeros and infinities; flt
with NaN and infinities. -/
def Obligations.NanIsCanonicalAndZeroSumsAreSigned : Prop :=
  (∀ a b : Word, ∀ r ∈ [fadd a b, fsub a b, fmul a b, fdiv a b, fsqrt a, fceil a], isNaN r = true → r = 0x7FC00000#32) ∧
  (∀ a b : Word,
    (isNaN (fadd a b) = true ↔
      isNaN a = true ∨ isNaN b = true ∨ (isInf a = true ∧ isInf b = true ∧ fSign a ≠ fSign b)) ∧
    (isNaN (fsub a b) = true ↔
      isNaN a = true ∨ isNaN b = true ∨ (isInf a = true ∧ isInf b = true ∧ fSign a = fSign b)) ∧
    (isNaN (fmul a b) = true ↔
      isNaN a = true ∨ isNaN b = true ∨ (isInf a = true ∧ isZero b = true) ∨ (isZero a = true ∧ isInf b = true)) ∧
    (isNaN (fdiv a b) = true ↔
      isNaN a = true ∨ isNaN b = true ∨ (isInf a = true ∧ isInf b = true) ∨ (isZero a = true ∧ isZero b = true)) ∧
    (isNaN (fsqrt a) = true ↔ isNaN a = true ∨ (fSign a = true ∧ isZero a = false)) ∧
    (isNaN (fceil a) = true ↔ isNaN a = true) ∧
    (isNaN a = true ∨ isNaN b = true → flt a b = false)) ∧
  (∀ a b : Word, isInf a = true → isFinite b = true →
    fadd a b = a ∧ fadd b a = a ∧ fsub a b = a ∧ fsub b a = packWord (!fSign a) infMag ∧
    fdiv a b = packWord (fSign a != fSign b) infMag ∧ fdiv b a = packWord (fSign b != fSign a) 0 ∧
    (isZero b = false →
      fmul a b = packWord (fSign a != fSign b) infMag ∧ fmul b a = packWord (fSign b != fSign a) infMag) ∧
    flt a b = fSign a ∧ flt b a = !fSign a) ∧
  (∀ a b : Word, isInf a = true → isInf b = true →
    (fSign a = fSign b → fadd a b = a) ∧ (fSign a ≠ fSign b → fsub a b = a) ∧
    fmul a b = packWord (fSign a != fSign b) infMag ∧ flt a b = (fSign a && !fSign b)) ∧
  (∀ a b : Word, isFinite a = true → isZero a = false → isZero b = true →
    fdiv a b = packWord (fSign a != fSign b) infMag) ∧
  (∀ a b : Word, isFinite a = true → isFinite b = true →
    (fValue a + fValue b = 0 → fadd a b = if fSign a && fSign b then 0x80000000#32 else 0x00000000#32) ∧
    (fValue a - fValue b = 0 → fsub a b = if fSign a && !fSign b then 0x80000000#32 else 0x00000000#32)) ∧
  (∀ a : Word, (isZero a = true → fsqrt a = a) ∧ (isInf a = true → fSign a = false → fsqrt a = a) ∧
    (isInf a = true → fceil a = a))

/-! ### streaming_fft (42_streaming_fft.md) -/

/-- FFT.CFG, the word 0x10: a power of two in 2..4096 configures the unit, any other ARG0 raises InvalidSize; nothing else changes
(R243). -/
def Obligations.FftCfgConfiguresOrRefuses : Prop :=
  decodeWord 0x00000010#32 = .command .fftCfg ∧
  ∀ s : State,
    ((∃ e, 1 ≤ e ∧ e ≤ 12 ∧ s.arg0.toNat = 2 ^ e) →
      exec .fftCfg s = .next { s with
        fft := { cfg := true, n := s.arg0, pk := packingTable s.arg0.toNat }
        result := s.arg0 }) ∧
    ((¬ ∃ e, 1 ≤ e ∧ e ≤ 12 ∧ s.arg0.toNat = 2 ^ e) → exec .fftCfg s = .next (recorded s 1 .fftCfg))

/-- RFWD of size N = 2^e, whatever the samples: the packed samples go through the forward complex FFT, stage by stage (R231 to R233,
R236); the real parts of bins 0 and M are the sum and the difference of the parts of Z[0], their imaginary parts +0.0 whatever the
input (R237); the bins between are unpacked left to right with the table's entries (R238). -/
def Obligations.DcAndNyquistAndInnerBins : Prop :=
  ∀ (pk : List Pk) (e : Nat) (x : List Word), 1 ≤ e → e ≤ 12 →
    let m := 2 ^ (e - 1)
    let sp := rfwd pk (2 ^ e) x
    ∃ z : Nat → Cx,
      IsComplexFft forwardButterfly (e - 1) (fun i => ⟨at0 x (2 * i), at0 x (2 * i + 1)⟩) z ∧
      sp.re.length = m + 1 ∧ sp.im.length = m + 1 ∧
      at0 sp.re 0 = fadd (z 0).re (z 0).im ∧ at0 sp.im 0 = 0x00000000#32 ∧
      at0 sp.re m = fsub (z 0).re (z 0).im ∧ at0 sp.im m = 0x00000000#32 ∧
      ∀ k, 1 ≤ k → k < m → ∀ p, pk[k]? = some p →
        at0 sp.re k =
          fadd (fadd (fsub (fmul (z k).re p.ar) (fmul (z k).im p.ai)) (fmul (z (m - k)).re p.br)) (fmul (z (m - k)).im p.bi) ∧
        at0 sp.im k =
          fsub (fadd (fadd (fmul (z k).im p.ar) (fmul (z k).re p.ai)) (fmul (z (m - k)).re p.bi)) (fmul (z (m - k)).im p.br)

/-- The inverse transform never reads the imaginary parts of bins 0 and N/2: two spectra that differ only there give the same N
samples (R239). -/
def Obligations.InverseIgnoresEndImaginaries : Prop :=
  ∀ (pk : List Pk) (n : Nat) (a b : Spectrum), validSize n = true → a.re = b.re →
    (∀ k, 1 ≤ k → k < n / 2 → at0 a.im k = at0 b.im k) →
    rinv pk n a = rinv pk n b ∧ (rinv pk n a).length = n

/-- FFT.FWD, the word 0x11, of a configured unit: RE and IM [0..N/2] hold the forward transform of X[0..N-1]; every other byte of RAM, X among
them, and everything else of the state are unchanged; an unconfigured unit refuses (R244). -/
def Obligations.FftFwdWritesSpectrum : Prop :=
  decodeWord 0x00000011#32 = .command .fftFwd ∧
  (∀ s : State, s.fft.cfg = false → exec .fftFwd s = .next (recorded s 4 .fftFwd)) ∧
  ∀ s : State, s.Inv → s.fft.cfg = true →
    let n := s.fft.n.toNat
    let sp := rfwd s.fft.pk n ((List.range n).map (fun i => Memory.word s.mem (Ram.x.wordAddr i)))
    ∃ t, exec .fftFwd s = .next t ∧ t = { s with mem := t.mem } ∧
      Holds t.mem .re (n / 2 + 1) (at0 sp.re) ∧ Holds t.mem .im (n / 2 + 1) (at0 sp.im) ∧
      ∀ a, Outside .re (n / 2 + 1) a → Outside .im (n / 2 + 1) a → Memory.byte t.mem a = Memory.byte s.mem a

/-- FFT.INV, the word 0x12, of a configured unit: X[0..N-1] holds the inverse transform of RE and IM [0..N/2]; every other byte of RAM and
everything else of the state are unchanged; an unconfigured unit refuses (R245).  RINV of size N = 2^e: the spectrum is repacked left
to right with the table's entries (R239), goes through the inverse complex FFT stage by stage (R234, R240), and is de-interleaved and
multiplied by INV_M = 2^(1-e) (R241). -/
def Obligations.FftInvWritesSamples : Prop :=
  decodeWord 0x00000012#32 = .command .fftInv ∧
  (∀ s : State, s.fft.cfg = false → exec .fftInv s = .next (recorded s 4 .fftInv)) ∧
  (∀ (pk : List Pk) (e : Nat) (sp : Spectrum), 1 ≤ e → e ≤ 12 →
    let m := 2 ^ (e - 1)
    let xr := at0 sp.re
    let xi := at0 sp.im
    let y := rinv pk (2 ^ e) sp
    ∃ z w : Nat → Cx,
      z 0 = ⟨fmul 0x3F000000#32 (fadd (xr 0) (xr m)), fmul 0x3F000000#32 (fsub (xr 0) (xr m))⟩ ∧
      (∀ k, 1 ≤ k → k < m → ∀ p, pk[k]? = some p → z k =
        ⟨fsub (fadd (fadd (fmul (xr k) p.ar) (fmul (xi k) p.ai)) (fmul (xr (m - k)) p.br)) (fmul (xi (m - k)) p.bi),
          fsub (fsub (fsub (fmul (xi k) p.ar) (fmul (xr k) p.ai)) (fmul (xr (m - k)) p.bi)) (fmul (xi (m - k)) p.br)⟩) ∧
      IsComplexFft inverseButterfly (e - 1) z w ∧ y.length = 2 ^ e ∧
      ∀ i, i < m → at0 y (2 * i) = fmul (w i).re (powerOfHalf e) ∧ at0 y (2 * i + 1) = fmul (w i).im (powerOfHalf e)) ∧
  ∀ s : State, s.Inv → s.fft.cfg = true →
    let n := s.fft.n.toNat
    let sp : Spectrum :=
      { re := (List.range (n / 2 + 1)).map (fun i => Memory.word s.mem (Ram.re.wordAddr i))
        im := (List.range (n / 2 + 1)).map (fun i => Memory.word s.mem (Ram.im.wordAddr i)) }
    ∃ t, exec .fftInv s = .next t ∧ t = { s with mem := t.mem } ∧
      Holds t.mem .x n (at0 (rinv s.fft.pk n sp)) ∧
      ∀ a, Outside .x n a → Memory.byte t.mem a = Memory.byte s.mem a

/-- FFT.MAG, the words 0x13 and 0x113, of a configured unit: RE and IM as FFT.FWD, and P[k] the root of the sum of the squared parts, times the exact 2/N when
NORM is 1; nothing else changes; an unconfigured unit refuses (R246). -/
def Obligations.FftMagWritesMagnitudes : Prop :=
  decodeWord 0x00000013#32 = .command (.fftMag false) ∧ decodeWord 0x00000113#32 = .command (.fftMag true) ∧
  (∀ (s : State) (norm : Bool), s.fft.cfg = false → exec (.fftMag norm) s = .next (recorded s 4 (.fftMag norm))) ∧
  ∀ (s : State) (norm : Bool), s.Inv → s.fft.cfg = true →
    let n := s.fft.n.toNat
    let sp := rfwd s.fft.pk n ((List.range n).map (fun i => Memory.word s.mem (Ram.x.wordAddr i)))
    let mag (k : Nat) : Word := fsqrt (fadd (fmul (at0 sp.re k) (at0 sp.re k)) (fmul (at0 sp.im k) (at0 sp.im k)))
    ∃ t, exec (.fftMag norm) s = .next t ∧ t = { s with mem := t.mem } ∧
      Holds t.mem .re (n / 2 + 1) (at0 sp.re) ∧ Holds t.mem .im (n / 2 + 1) (at0 sp.im) ∧
      Holds t.mem .p (n / 2 + 1) (fun k => if norm then fmul (mag k) (powerOfHalf (Nat.log2 n)) else mag k) ∧
      ∀ a, Outside .re (n / 2 + 1) a → Outside .im (n / 2 + 1) a → Outside .p (n / 2 + 1) a →
        Memory.byte t.mem a = Memory.byte s.mem a

/-- FFT.PWR, the words 0x14 and 0x114, of a configured unit: RE and IM as FFT.FWD, and P[k] the sum of the squared parts, times the exact 2/N once when NORM
is 1; nothing else changes; an unconfigured unit refuses (R247). -/
def Obligations.FftPwrWritesPowers : Prop :=
  decodeWord 0x00000014#32 = .command (.fftPwr false) ∧ decodeWord 0x00000114#32 = .command (.fftPwr true) ∧
  (∀ (s : State) (norm : Bool), s.fft.cfg = false → exec (.fftPwr norm) s = .next (recorded s 4 (.fftPwr norm))) ∧
  ∀ (s : State) (norm : Bool), s.Inv → s.fft.cfg = true →
    let n := s.fft.n.toNat
    let sp := rfwd s.fft.pk n ((List.range n).map (fun i => Memory.word s.mem (Ram.x.wordAddr i)))
    let pwr (k : Nat) : Word := fadd (fmul (at0 sp.re k) (at0 sp.re k)) (fmul (at0 sp.im k) (at0 sp.im k))
    ∃ t, exec (.fftPwr norm) s = .next t ∧ t = { s with mem := t.mem } ∧
      Holds t.mem .re (n / 2 + 1) (at0 sp.re) ∧ Holds t.mem .im (n / 2 + 1) (at0 sp.im) ∧
      Holds t.mem .p (n / 2 + 1) (fun k => if norm then fmul (pwr k) (powerOfHalf (Nat.log2 n)) else pwr k) ∧
      ∀ a, Outside .re (n / 2 + 1) a → Outside .im (n / 2 + 1) a → Outside .p (n / 2 + 1) a →
        Memory.byte t.mem a = Memory.byte s.mem a

/-! ### Block convolution (43_block_convolution.md, 44_overlap_add_engine.md, 45_overlap_save_engine.md) -/

/-- OLA.CFG and OLS.CFG: N is the least power of two at or above max(ARG0, 2); N above 4096 raises InvalidSize, before any check of
K; K = 0 or K > N raises InvalidKernelSize; otherwise the command succeeds with RESULT = N and 1 <= H = N - K + 1, so
InvalidHopSize is never raised (R281). -/
def Obligations.ConvCfgChecksSizes : Prop :=
  ∀ (g : Strategy) (s : State) (n : Nat),
    max s.arg0.toNat 2 ≤ 2 ^ n → (∀ m, max s.arg0.toNat 2 ≤ 2 ^ m → n ≤ m) →
    (12 < n → exec (cfgOf g) s = .next (recorded s 1 (cfgOf g))) ∧
    (n ≤ 12 → (s.arg1.toNat = 0 ∨ 2 ^ n < s.arg1.toNat) → exec (cfgOf g) s = .next (recorded s 2 (cfgOf g))) ∧
    (n ≤ 12 → 1 ≤ s.arg1.toNat → s.arg1.toNat ≤ 2 ^ n →
      ∃ t, exec (cfgOf g) s = .next t ∧ t.result.toNat = 2 ^ n ∧ (t.engine g).n.toNat = 2 ^ n ∧
        (t.engine g).h.toNat + s.arg1.toNat = 2 ^ n + 1 ∧ 1 ≤ (t.engine g).h.toNat ∧ t.err = s.err)

/-- A successful OLA.CFG or OLS.CFG: the engine's own packing table, the kernel's spectrum from KRAM[0..K-1] padded with +0.0, the
sizes, a silent stream, CFG = 1 and RESULT = N; nothing else changes (R280, R286, R289). -/
def Obligations.ConvCfgBuildsEngine : Prop :=
  ∀ (g : Strategy) (s : State) (n : Nat),
    n ≤ 12 → max s.arg0.toNat 2 ≤ 2 ^ n → (∀ m, max s.arg0.toNat 2 ≤ 2 ^ m → n ≤ m) →
    1 ≤ s.arg1.toNat → s.arg1.toNat ≤ 2 ^ n →
    let k := s.arg1.toNat
    let h := 2 ^ n - k + 1
    let pk := packingTable (2 ^ n)
    let kernel := (List.range (2 ^ n)).map (fun i => if i < k then Memory.word s.mem (g.kram.wordAddr i) else 0#32)
    let sp := rfwd pk (2 ^ n) kernel
    let e : ConvEngine :=
      { cfg := true, n := BitVec.ofNat 32 (2 ^ n), k := s.arg1, h := BitVec.ofNat 32 h, incnt := 0#32, outptr := 0#32,
        pk := pk, kr := sp.re, ki := sp.im,
        inb := List.replicate h 0#32, tail := List.replicate (k - 1) 0#32, outq := List.replicate h 0#32 }
    (g = .overlapAdd → exec .olaCfg s = .next { s with ola := e, result := BitVec.ofNat 32 (2 ^ n) }) ∧
    (g = .overlapSave → exec .olsCfg s = .next { s with ols := e, result := BitVec.ofNat 32 (2 ^ n) })

/-- OLA.PROC and OLS.PROC while the hop is not yet full: the sample is buffered, both counters advance and RESULT is the next sample
of OUTQ; nothing else changes (R283). -/
def Obligations.ProcBuffersSample : Prop :=
  ∀ (g : Strategy) (s : State), s.Inv → (s.engine g).cfg = true →
    let e := s.engine g
    let wp := e.incnt.toNat
    let rp := e.outptr.toNat
    wp + 1 < e.h.toNat →
    let e' : ConvEngine :=
      { e with inb := e.inb.set wp s.arg0, incnt := BitVec.ofNat 32 (wp + 1), outptr := BitVec.ofNat 32 (rp + 1) }
    rp < e.outq.length ∧
    (g = .overlapAdd → exec .olaProc s = .next { s with ola := e', result := at0 e.outq rp }) ∧
    (g = .overlapSave → exec .olsProc s = .next { s with ols := e', result := at0 e.outq rp })

/-- OLA.PROC that fills the hop: the hop padded with K-1 zeros is convolved; each of the H outputs and the K-1 carried samples is the
sum with the old tail where that reaches and a copy where it does not; RESULT is the first output, the counters are 0 and 1;
nothing else changes (R283, R290, R310). -/
def Obligations.OlaProcRunsBlock : Prop :=
  ∀ s : State, s.Inv → s.ola.cfg = true → s.ola.incnt.toNat + 1 = s.ola.h.toNat →
    let e := s.ola
    let h := e.h.toNat
    let t := e.k.toNat - 1
    let inb := e.inb.set e.incnt.toNat s.arg0
    let r := circular e (inb ++ List.replicate t 0#32)
    let sum (i : Nat) : Word := if i < t then fadd (at0 e.tail i) (at0 r i) else at0 r i
    let outq := (List.range h).map sum
    exec .olaProc s = .next { s with
      ola := { e with inb := inb, incnt := 0#32, outptr := 1#32, outq := outq, tail := (List.range t).map (fun j => sum (h + j)) }
      result := sum 0 }

/-- OLS.PROC that fills the hop: the K-1 carried samples and the hop are convolved, the last H samples of the result are the
outputs, the newest K-1 samples of the frame are carried; RESULT is the first output, the counters are 0 and 1; nothing else
changes (R283, R340). -/
def Obligations.OlsProcRunsBlock : Prop :=
  ∀ s : State, s.Inv → s.ols.cfg = true → s.ols.incnt.toNat + 1 = s.ols.h.toNat →
    let e := s.ols
    let h := e.h.toNat
    let t := e.k.toNat - 1
    let inb := e.inb.set e.incnt.toNat s.arg0
    let f := e.tail ++ inb
    let r := circular e f
    exec .olsProc s = .next { s with
      ols := { e with
        inb := inb, incnt := 0#32, outptr := 1#32
        outq := (List.range h).map (fun i => at0 r (t + i))
        tail := (List.range t).map (fun j => at0 f (h + j)) }
      result := at0 r t }

/-- OLA.APPLY and OLS.APPLY of a configured engine with L = ARG0 <= 65536: the stream is reset, the L words of SIGIN and then
(H-1)+(K-1) zeros are fed in order; SIGOUT[n] is output number n+H-1 for n < L+K-1, RESULT is L+K-1, the stream state is the one
after the last call; every other byte of RAM and everything else of the state are unchanged (R287).  For L = 0 the outputs are those
of R287's pseudocode, the model's choice (assumption log 21). -/
def Obligations.ApplyWritesFilteredSignal : Prop :=
  ∀ (g : Strategy) (s : State), s.Inv → (s.engine g).cfg = true → s.arg0.toNat ≤ 65536 →
    let e := s.engine g
    let l := s.arg0.toNat
    let h := e.h.toNat
    let k := e.k.toNat
    let fed := (List.range (l + (h - 1) + (k - 1))).map
      (fun c => if c < l then Memory.word s.mem (g.sigin.wordAddr c) else 0#32)
    let r := ConvEngine.calls g e.restart fed
    ∃ t, exec (applyOf g) s = .next t ∧
      t = { s with
        mem := t.mem
        result := BitVec.ofNat 32 (l + k - 1)
        ola := if g = .overlapAdd then r.1 else s.ola
        ols := if g = .overlapSave then r.1 else s.ols } ∧
      Holds t.mem g.sigout (l + k - 1) (fun n => at0 r.2 (n + (h - 1))) ∧
      ∀ a, Outside g.sigout (l + k - 1) a → Memory.byte t.mem a = Memory.byte s.mem a

/-- OLA.APPLY and OLS.APPLY with L > 65536 raise InvalidLength on a configured engine and change nothing but the error record (R287,
60_exceptions.md R420, R422). -/
def Obligations.ApplyRefusesLongSignal : Prop :=
  ∀ (g : Strategy) (s : State), (s.engine g).cfg = true → 65536 < s.arg0.toNat →
    exec (applyOf g) s = .next (recorded s 6 (applyOf g))

/-- OLA.RST and OLS.RST, the words 0x23 and 0x33, of a configured engine: INB, TAIL and OUTQ are +0.0 and the counters 0; the
configuration and the cached spectrum stay; nothing else changes; an unconfigured engine refuses (R286, R314, R344). -/
def Obligations.ConvRstClearsStream : Prop :=
  decodeWord 0x00000023#32 = .command .olaRst ∧ decodeWord 0x00000033#32 = .command .olsRst ∧
  (∀ (g : Strategy) (s : State), (s.engine g).cfg = false → exec (rstOf g) s = .next (recorded s 4 (rstOf g))) ∧
  ∀ (g : Strategy) (s : State), (s.engine g).cfg = true →
    let e := s.engine g
    let e' : ConvEngine :=
      { e with
        inb := List.replicate e.h.toNat 0#32, tail := List.replicate (e.k.toNat - 1) 0#32
        outq := List.replicate e.h.toNat 0#32, incnt := 0#32, outptr := 0#32 }
    (g = .overlapAdd → exec .olaRst s = .next { s with ola := e' }) ∧
    (g = .overlapSave → exec .olsRst s = .next { s with ols := e' })

/-- The first H-1 calls after a RESET return +0.0, whatever is fed (R284). -/
def Obligations.SilenceBeforeFirstBlock : Prop :=
  ∀ (g : Strategy) (e : ConvEngine) (xs : List Word), e.Sized → xs.length ≤ e.h.toNat - 1 →
    (ConvEngine.calls g e.restart xs).2 = List.replicate xs.length 0#32

/-- A whole hop of calls from the start of a hop runs exactly one block, on exactly the samples fed, and returns the rest of the old
OUTQ and then the first sample of the new one: the latency is H-1 calls (R283, R285). -/
def Obligations.OneBlockPerHop : Prop :=
  ∀ (g : Strategy) (e : ConvEngine) (xs : List Word), e.Sized → e.Streaming → e.incnt = 0#32 → xs.length = e.h.toNat →
    let b := ConvEngine.block g { e with inb := xs }
    (ConvEngine.calls g e xs).1 = { b with incnt := 0#32, outptr := 1#32 } ∧
    (ConvEngine.calls g e xs).2 = (e.outq.drop e.outptr.toNat).take (e.h.toNat - 1) ++ [at0 b.outq 0]

/-- For K = 1 the two strategies give identical bits, call by call, and identical states, for every input (R345). -/
def Obligations.SingleTapStrategiesAgree : Prop :=
  ∀ (e : ConvEngine) (xs : List Word), e.Sized → e.Streaming → e.k = 1#32 →
    ConvEngine.calls .overlapAdd e xs = ConvEngine.calls .overlapSave e xs

/-! ### phase_vocoder_resynth (46_phase_vocoder_resynth.md) -/

/-- PV.CFG's refusals, in the order of the checks: the size, the hop, the shift, the window's energy; each changes nothing but the
error record (R374). -/
def Obligations.PvCfgRefusesInOrder : Prop :=
  ∀ s : State,
    let n := s.arg0.toNat
    let h := s.arg1.toNat
    let wsq := ((List.range n).map (fun i => Memory.word s.mem (Ram.pvWin.wordAddr i))).foldl
      (fun acc x => fadd acc (fmul x x)) 0#32
    let sizeOk := ∃ e, 1 ≤ e ∧ e ≤ 12 ∧ n = 2 ^ e
    let hopOk := 1 ≤ h ∧ h < n
    let shiftOk := isFinite s.arg2 = true ∧ (fSign s.arg2 = false ∨ s.arg2 = 0x80000000#32)
    let energyOk := isFinite wsq = true ∧ flt 0#32 wsq = true
    (¬ sizeOk → exec .pvCfg s = .next (recorded s 1 .pvCfg)) ∧
    (sizeOk → ¬ hopOk → exec .pvCfg s = .next (recorded s 3 .pvCfg)) ∧
    (sizeOk → hopOk → ¬ shiftOk → exec .pvCfg s = .next (recorded s 7 .pvCfg)) ∧
    (sizeOk → hopOk → shiftOk → ¬ energyOk → exec .pvCfg s = .next (recorded s 7 .pvCfg))

/-- A successful PV.CFG: the window is latched and its energy summed in index order, the default gain is H/energy, the expected
advance (2π·H)/N, the stream is silent, PV_WET and PV_DRY stay, RESULT = N; nothing else changes (R374 to R378, R388). -/
def Obligations.PvCfgBuildsVocoder : Prop :=
  ∀ s : State,
    let n := s.arg0.toNat
    let h := s.arg1.toNat
    let win := (List.range n).map (fun i => Memory.word s.mem (Ram.pvWin.wordAddr i))
    let wsq := win.foldl (fun acc x => fadd acc (fmul x x)) 0#32
    (∃ e, 1 ≤ e ∧ e ≤ 12 ∧ n = 2 ^ e) → 1 ≤ h → h < n →
    isFinite s.arg2 = true → (fSign s.arg2 = false ∨ s.arg2 = 0x80000000#32) →
    isFinite wsq = true → flt 0#32 wsq = true →
    exec .pvCfg s = .next { s with
      result := s.arg0
      pv := {
        cfg := true, n := s.arg0, h := s.arg1, shift := s.arg2, incnt := 0#32, outptr := 0#32
        wsq := wsq, gain := fdiv (i2f h) wsq, wet := s.pv.wet, dry := s.pv.dry
        omega := fdiv (fmul 0x40C90FDB#32 (i2f h)) (i2f n)
        winl := win, pk := packingTable n
        dl := List.replicate n 0#32, tail := List.replicate (n - h) 0#32, outq := List.replicate h 0#32
        prev := List.replicate (n / 2 + 1) 0#32, psi := List.replicate (n / 2 + 1) 0#32 } }

/-- PV.PROC while the hop is not yet full: the delay line takes the sample, both counters advance, RESULT is the wet/dry mix of the
next sample of OUTQ and the oldest sample of the delay line; nothing else changes (R385, R386, R387). -/
def Obligations.PvProcBetweenFrames : Prop :=
  ∀ s : State, s.Inv → s.pv.cfg = true → s.pv.incnt.toNat + 1 < s.pv.h.toNat →
    let u := s.pv
    let dl := u.dl.drop 1 ++ [s.arg0]
    exec .pvProc s = .next { s with
      pv := { u with
        dl := dl, incnt := BitVec.ofNat 32 (u.incnt.toNat + 1), outptr := BitVec.ofNat 32 (u.outptr.toNat + 1) }
      result := fadd (fmul u.wet (at0 u.outq u.outptr.toNat)) (fmul u.dry (at0 dl 0)) }

/-- PV.PROC that fills the hop: the frame runs on the delay line with the sample in it.  The new phases are F_atan2 of the windowed
frame's spectrum; the synthesis phases are the wrapped sums with the stretched frequencies; the resynthesised, windowed and
scaled frame is overlap-added into OUTQ and TAIL; RESULT is the mix of the first output; nothing else changes (R379, R381 to
R387). -/
def Obligations.PvProcRunsFrame : Prop :=
  ∀ s : State, s.Inv → s.pv.cfg = true → s.pv.incnt.toNat + 1 = s.pv.h.toNat →
    let u := s.pv
    let n := u.n.toNat
    let h := u.h.toNat
    let nb := n / 2 + 1
    let dl := u.dl.drop 1 ++ [s.arg0]
    let sp := rfwd u.pk n ((List.range n).map (fun i => fmul (at0 dl i) (at0 u.winl i)))
    let phase (j : Nat) : Word := fAtan2 (at0 sp.im j) (at0 sp.re j)
    let om (j : Nat) : Word := fmul (i2f j) u.omega
    let bins := (List.range nb).map (fun j =>
      ({ mag := fsqrt (fadd (fmul (at0 sp.re j) (at0 sp.re j)) (fmul (at0 sp.im j) (at0 sp.im j)))
         phase := phase j
         frq := fadd (om j) (wrapPhase (fsub (fsub (phase j) (at0 u.prev j)) (om j))) } : BinAnalysis))
    let d := stretch nb u.shift bins
    let psi := (List.range nb).map (fun j => wrapPhase (fadd (at0 u.psi j) (at0 d.2 j)))
    let y := rinv u.pk n
      { re := (List.range nb).map (fun j => fmul (at0 d.1 j) (fCos (at0 psi j)))
        im := (List.range nb).map (fun j => fmul (at0 d.1 j) (fSin (at0 psi j))) }
    let sv := (List.range n).map (fun i => fmul (fmul (at0 y i) (at0 u.winl i)) u.gain)
    let sum (i : Nat) : Word := if i < n - h then fadd (at0 u.tail i) (at0 sv i) else at0 sv i
    exec .pvProc s = .next { s with
      pv := { u with
        dl := dl, incnt := 0#32, outptr := 1#32, prev := (List.range nb).map phase, psi := psi
        outq := (List.range h).map sum, tail := (List.range (n - h)).map (fun j => sum (h + j)) }
      result := fadd (fmul u.wet (sum 0)) (fmul u.dry (at0 dl 0)) }

/-- PV.RST, the word 0x43, of a configured vocoder: the delay line, TAIL, OUTQ, PREV and PSI are +0.0 and the counters 0; everything
else stays; an unconfigured vocoder refuses (R388). -/
def Obligations.PvRstClearsStream : Prop :=
  decodeWord 0x00000043#32 = .command .pvRst ∧
  (∀ s : State, s.pv.cfg = false → exec .pvRst s = .next (recorded s 4 .pvRst)) ∧
  ∀ s : State, s.pv.cfg = true →
    exec .pvRst s = .next { s with
      pv := { s.pv with
        dl := List.replicate s.pv.n.toNat 0#32, tail := List.replicate (s.pv.n.toNat - s.pv.h.toNat) 0#32
        outq := List.replicate s.pv.h.toNat 0#32, prev := List.replicate (s.pv.n.toNat / 2 + 1) 0#32
        psi := List.replicate (s.pv.n.toNat / 2 + 1) 0#32, incnt := 0#32, outptr := 0#32 } }

/-- The spectral stretch: at each destination the magnitudes of its sources are summed from +0.0 in increasing order, and the
frequency is the last source's times the shift; a destination without a source is +0.0 in both (R380). -/
def Obligations.StretchSumsAndLastSourceWins : Prop :=
  ∀ (nb : Nat) (shift : Word) (bins : List BinAnalysis) (d : Nat), bins.length = nb → d < nb →
    let sources := (List.range nb).filter (fun j => destination nb shift j == some d)
    let mag (j : Nat) : Word := (bins.map BinAnalysis.mag).getD j 0#32
    let frq (j : Nat) : Word := (bins.map BinAnalysis.frq).getD j 0#32
    at0 (stretch nb shift bins).1 d = sources.foldl (fun acc j => fadd acc (mag j)) 0#32 ∧
    at0 (stretch nb shift bins).2 d = (sources.getLast?.map (fun j => fmul (frq j) shift)).getD 0#32

/-- Where the stretch sends a bin: to the integer part of p = j·shift where p is below NB, else nowhere; never past the last bin; with shift 1.0 every bin to itself, with a zero shift every bin to 0
(R380, R389). -/
def Obligations.StretchDestinations : Prop :=
  ∀ n : Nat, validSize n = true →
    let nb := n / 2 + 1
    (∀ (shift : Word) (j : Nat), destination nb shift j =
      if flt (fmul (i2f j) shift) (i2f nb) then some (ftruncU (fmul (i2f j) shift)) else none) ∧
    (∀ (shift : Word) (j d : Nat), validShift shift = true → j < nb → destination nb shift j = some d → d < nb) ∧
    (∀ j, j < nb → destination nb 0x3F800000#32 j = some j) ∧
    (∀ j, j < nb → destination nb 0x00000000#32 j = some 0 ∧ destination nb 0x80000000#32 j = some 0)

/-- The constraints every choice of F_atan2, F_cos and F_sin satisfies (R371 (a) to (c)): NaN exactly from a NaN (for cos and sin also
from an infinity), within [-PI_F, PI_F] and [-1, 1], and exact at both zeros. -/
def Obligations.OpenFunctionsKeepTheirConstraints : Prop :=
  (∀ y x : Word, (isNaN (fAtan2 y x) = true ↔ isNaN y = true ∨ isNaN x = true) ∧
    (isNaN (fAtan2 y x) = false → fMag (fAtan2 y x) ≤ 0x40490FDB)) ∧
  (∀ a : Word, (isFinite a = true → fMag (fCos a) ≤ 0x3F800000 ∧ fMag (fSin a) ≤ 0x3F800000) ∧
    (isFinite a = false → isNaN (fCos a) = true ∧ isNaN (fSin a) = true)) ∧
  fCos 0x00000000#32 = 0x3F800000#32 ∧ fCos 0x80000000#32 = 0x3F800000#32 ∧
  fSin 0x00000000#32 = 0x00000000#32 ∧ fSin 0x80000000#32 = 0x80000000#32

/-- WRAP as R372 computes it, and the worked values of R373, among them the half-open ends, and NaN from every infinity and NaN (R372, R373). -/
def Obligations.WrapWorkedValues : Prop :=
  (∀ d : Word, wrapPhase d =
    fsub d (fmul (fceil (fdiv (fsub d 0x40490FDB#32) 0x40C90FDB#32)) 0x40C90FDB#32)) ∧
  wrapPhase 0x40800000#32 = 0xC0121FB6#32 ∧ wrapPhase 0xC0800000#32 = 0x40121FB6#32 ∧
  wrapPhase 0x40E00000#32 = 0x3F378128#32 ∧ wrapPhase 0x42C80000#32 = 0xBF07ED80#32 ∧
  wrapPhase 0x40490FDB#32 = 0x40490FDB#32 ∧ wrapPhase 0xC0490FDB#32 = 0x40490FDB#32 ∧
  wrapPhase 0x80000000#32 = 0x00000000#32 ∧ wrapPhase 0xC116CBE4#32 = 0x40490FDC#32 ∧
  wrapPhase 0x417B53D2#32 = 0x40490FDC#32 ∧
  (∀ d : Word, isFinite d = false → wrapPhase d = 0x7FC00000#32)

/-! ### The whole machine -/

/-- The invariant holds at power-on, for every canonical draw of the RAMs, and at `State.reset`.  The model's choices in it: the RAMs as
canonical cells (assumption log 3), streaming arrays of their elements in use (log 4), and the cached tables of an unconfigured unit,
unspecified in the spec, as reset leaves them in the model (log 5). -/
def Obligations.PowerOnSatisfiesInvariant : Prop :=
  State.reset.Inv ∧ ∀ ram : Memory, Memory.wf ram → Memory.inRam ram → (State.powerOn ram).Inv

/-- Every step keeps the invariant: the memory stays canonical and inside the RAMs, reserved bits stay 0, an unconfigured unit stays
as reset left it, and a configured unit keeps legal sizes, its own tables, its array lengths and its counters in their ranges.  The model's choices in it:
the port (assumption log 2), the canonical cells (log 3), the array lengths (log 4), and, for 'as reset left it', the cached tables of an
unconfigured unit, which the spec leaves unspecified (log 5). -/
def Obligations.StepKeepsInvariant : Prop := ∀ s t : State, s.Inv → step s = .next t → t.Inv

/-- From power-on, with any canonical draw of the RAMs and any sequence of host events, every reached state goes on and satisfies
the invariant (60_exceptions.md R427, R429).  The invariant rests on the model's choices of assumption logs 2 to 5. -/
def Obligations.EveryHostSequenceIsSafe : Prop :=
  ∀ (ram : Memory) (events : List HostEvent), Memory.wf ram → Memory.inRam ram →
    SafeFrom { State.powerOn ram with port := events }

/-- A command touches its own unit only: the other units' registers and arrays are unchanged, and a byte of RAM it changes lies in
its unit's output RAMs (X for FFT.INV; RE and IM, and P for FFT.MAG and FFT.PWR; the engine's SIGOUT for APPLY), so never in X for a
forward command, nor in any KRAM, SIGIN or PV_WIN (20_memory.md R100, R115; 60_exceptions.md R434). -/
def Obligations.UnitsAreIsolated : Prop :=
  ∀ (s t : State) (i : Instr), s.Inv → exec i s = .next t → i ≠ .srst →
    (i.unit ≠ 1 → t.fft = s.fft) ∧ (i.unit ≠ 2 → t.ola = s.ola) ∧ (i.unit ≠ 3 → t.ols = s.ols) ∧ (i.unit ≠ 4 → t.pv = s.pv) ∧
    (∀ a, Memory.byte t.mem a ≠ Memory.byte s.mem a →
      (i = .fftInv ∧ Ram.x.holds a = true) ∨
      ((i = .fftFwd ∨ (∃ b, i = .fftMag b) ∨ (∃ b, i = .fftPwr b)) ∧ (Ram.re.holds a = true ∨ Ram.im.holds a = true)) ∨
      (((∃ b, i = .fftMag b) ∨ (∃ b, i = .fftPwr b)) ∧ Ram.p.holds a = true) ∨
      (i = .olaApply ∧ Ram.olaSigout.holds a = true) ∨ (i = .olsApply ∧ Ram.olsSigout.holds a = true))

/-- A write keeps the canonical form, a canonical memory is determined by what its bytes read as, and so writing words back as they
read gives the same memory (the model's own memory, assumption log 3; 20_memory.md R102, R114). -/
def Obligations.RewritingWordsIsIdentity : Prop :=
  (∀ (m : Memory) (a : Nat) (bs : List Byte), Memory.wf m → Memory.wf (Memory.write m a bs)) ∧
  (∀ m m' : Memory, Memory.wf m → Memory.wf m' → (∀ a, Memory.byte m a = Memory.byte m' a) → m = m') ∧
  ∀ (m : Memory) (a n : Nat), Memory.wf m → Memory.writeWords m a (Memory.words m a n) = m
end

