-- ==== Sys2Proof/Laws/Float32.lean ====
section
/-! SUPPORT. The parts of a binary32 word built by `packWord`, and that rounding never passes infinity (spec 00_scope.md R15,
R17, R18); a proof about an operation cites these and does not evaluate it. -/

namespace Sys2Proof.Machine

theorem packWord_toNat (neg : Bool) (m : Nat) (h : m < 2 ^ 31) : (packWord neg m).toNat = (if neg then 2 ^ 31 else 0) + m := by
  unfold packWord
  rw [BitVec.toNat_ofNat]
  cases neg
  · simp only [Bool.false_eq_true, if_false]; omega
  · simp only [if_true]; omega

theorem packWord_mag (neg : Bool) (m : Nat) (h : m < 2 ^ 31) : fMag (packWord neg m) = m := by
  unfold fMag
  rw [packWord_toNat neg m h]
  cases neg
  · simp only [Bool.false_eq_true, if_false]; omega
  · simp only [if_true]; omega

theorem packWord_sign (neg : Bool) (m : Nat) (h : m < 2 ^ 31) : fSign (packWord neg m) = neg := by
  unfold fSign
  rw [packWord_toNat neg m h]
  cases neg
  · simp only [Bool.false_eq_true, if_false, decide_eq_false_iff_not]; omega
  · simp only [if_true, decide_eq_true_eq]; omega

/-- A rounded magnitude is finite or infinity, never a NaN's (R15, R17). -/
theorem roundMag_le (num den : Nat) : roundMag num den ≤ infMag := by
  unfold roundMag
  extract_lets
  split
  · exact Nat.le_refl _
  · omega

theorem roundMag_lt (num den : Nat) : roundMag num den < 2 ^ 31 := Nat.lt_of_le_of_lt (roundMag_le num den) (by decide)

theorem isNaN_packWord_roundMag (neg : Bool) (num den : Nat) : isNaN (packWord neg (roundMag num den)) = false := by
  unfold isNaN
  rw [packWord_mag _ _ (roundMag_lt num den)]
  exact decide_eq_false (Nat.not_lt.mpr (roundMag_le num den))

theorem fMag_lt (x : Word) : fMag x < 2 ^ 31 := Nat.mod_lt _ (by decide)

theorem fNeg_mag (x : Word) : fMag (fNeg x) = fMag x := packWord_mag _ _ (fMag_lt x)

theorem fNeg_sign (x : Word) : fSign (fNeg x) = !fSign x := packWord_sign _ _ (fMag_lt x)

theorem fFrac_eq (x : Word) : fFrac x = fMag x % 2 ^ 23 := by unfold fFrac fMag; omega

end Sys2Proof.Machine
end

