-- ==== Sys2Proof/Laws/Memory.lean ====
section
/-! SUPPORT. What the memory operations do: read after write, and that every write keeps the canonical form (spec 20_memory.md
R102, R114). -/

namespace Sys2Proof.Machine

theorem lookup_filter_of_pos (p : Nat → Bool) (m : Memory) (x : Nat) (h : p x = true) :
    (m.filter (fun c => p c.1)).lookup x = m.lookup x := by
  induction m with
  | nil => rfl
  | cons c m ih =>
    by_cases hx : x = c.1
    · subst hx; simp [List.filter, h, List.lookup]
    · by_cases hp : p c.1 = true <;> simp [List.filter, hp, List.lookup, beq_eq_false_iff_ne.mpr hx, ih]

theorem lookup_filter_of_neg (p : Nat → Bool) (m : Memory) (x : Nat) (h : p x = false) :
    (m.filter (fun c => p c.1)).lookup x = none := by
  induction m with
  | nil => rfl
  | cons c m ih =>
    by_cases hx : x = c.1
    · subst hx; simp [List.filter, h, ih]
    · by_cases hp : p c.1 = true <;> simp [List.filter, hp, List.lookup, beq_eq_false_iff_ne.mpr hx, ih]

theorem lookup_append (l r : Memory) (x : Nat) : (l ++ r).lookup x = (l.lookup x).or (r.lookup x) := by
  induction l with
  | nil => simp
  | cons c l ih =>
    by_cases hx : x = c.1
    · subst hx; simp [List.lookup]
    · simp [List.lookup, beq_eq_false_iff_ne.mpr hx, ih]

/-- Every cell of `cellsFrom a bs` lies in the span written and holds a byte that must be listed. -/
theorem mem_cellsFrom {a : Nat} {bs : List Byte} {c : Host.Cell} (h : c ∈ cellsFrom a bs) :
    a ≤ c.1 ∧ c.1 < a + bs.length ∧ c.2 ≠ Config.unlistedByte := by
  induction bs generalizing a with
  | nil => simp [cellsFrom] at h
  | cons b bs ih =>
    simp only [cellsFrom] at h
    split at h
    · have := ih h; simp only [List.length_cons]; exact ⟨by omega, by omega, this.2.2⟩
    · rcases List.mem_cons.mp h with rfl | h
      · exact ⟨Nat.le_refl _, by simp, ‹_›⟩
      · have := ih h; simp only [List.length_cons]; exact ⟨by omega, by omega, this.2.2⟩

theorem lookup_cellsFrom_outside {a x : Nat} {bs : List Byte} (h : x < a ∨ a + bs.length ≤ x) :
    (cellsFrom a bs).lookup x = none := by
  rw [List.lookup_eq_none_iff]
  intro c hc
  have := mem_cellsFrom hc
  simp only [bne_iff_ne, ne_eq]; omega

theorem lookup_cellsFrom_inside {a i : Nat} {bs : List Byte} (h : i < bs.length) :
    ((cellsFrom a bs).lookup (a + i)).getD Config.unlistedByte = bs[i] := by
  induction bs generalizing a i with
  | nil => simp at h
  | cons b bs ih =>
    cases i with
    | zero =>
      simp only [cellsFrom, Nat.add_zero]
      split
      · rename_i hb
        rw [lookup_cellsFrom_outside (Or.inl (Nat.lt_succ_self a))]
        simpa using hb.symm
      · simp [List.lookup]
    | succ i =>
      have hi : i < bs.length := by simpa using h
      have hne : (a + (i + 1) == a) = false := by simp
      have hre : a + (i + 1) = a + 1 + i := by omega
      simp only [cellsFrom]
      split
      · rw [hre]; simpa using ih hi
      · rw [List.lookup, hne, hre]; simpa using ih hi

theorem cellsFrom_sorted (a : Nat) (bs : List Byte) : (cellsFrom a bs).Pairwise (fun c d => c.1 < d.1) := by
  induction bs generalizing a with
  | nil => simp [cellsFrom]
  | cons b bs ih =>
    simp only [cellsFrom]
    split
    · exact ih _
    · refine List.pairwise_cons.mpr ⟨fun c hc => ?_, ih _⟩
      have := mem_cellsFrom hc
      simp only; omega

namespace Memory

/-- A byte outside the span written reads as before. -/
theorem byte_write_outside (m : Memory) {a x : Nat} {bs : List Byte} (h : x < a ∨ a + bs.length ≤ x) :
    Memory.byte (Memory.write m a bs) x = Memory.byte m x := by
  unfold Memory.byte Memory.write
  rw [lookup_append, lookup_append, lookup_cellsFrom_outside h]
  rcases h with h | h
  · rw [lookup_filter_of_pos (fun y => decide (y < a)) m x (by simpa using h),
      lookup_filter_of_neg (fun y => decide (a + bs.length ≤ y)) m x (by simp; omega)]
    simp
  · rw [lookup_filter_of_neg (fun y => decide (y < a)) m x (by simp; omega),
      lookup_filter_of_pos (fun y => decide (a + bs.length ≤ y)) m x (by simpa using h)]
    simp

/-- A byte of the span written reads as what was written. -/
theorem byte_write_inside (m : Memory) {a i : Nat} {bs : List Byte} (h : i < bs.length) :
    Memory.byte (Memory.write m a bs) (a + i) = bs[i] := by
  unfold Memory.byte Memory.write
  rw [lookup_append, lookup_append,
    lookup_filter_of_neg (fun y => decide (y < a)) m (a + i) (by simp),
    lookup_filter_of_neg (fun y => decide (a + bs.length ≤ y)) m (a + i) (by simp; omega)]
  simpa using lookup_cellsFrom_inside h

/-- Every write keeps the canonical form. -/
theorem wf_write {m : Memory} (h : Memory.wf m) (a : Nat) (bs : List Byte) : Memory.wf (Memory.write m a bs) := by
  obtain ⟨hs, hn⟩ := h
  refine ⟨?_, ?_⟩
  · unfold Memory.write
    rw [List.pairwise_append, List.pairwise_append]
    refine ⟨⟨hs.filter _, cellsFrom_sorted a bs, ?_⟩, hs.filter _, ?_⟩
    · intro c hc d hd
      have h1 := (List.mem_filter.mp hc).2
      have h2 := mem_cellsFrom hd
      simp only [decide_eq_true_eq] at h1; omega
    · intro c hc d hd
      have h2 := (List.mem_filter.mp hd).2
      simp only [decide_eq_true_eq] at h2
      rcases List.mem_append.mp hc with hc | hc
      · have h1 := (List.mem_filter.mp hc).2
        simp only [decide_eq_true_eq] at h1; omega
      · have h1 := mem_cellsFrom hc; omega
  · intro c hc
    unfold Memory.write at hc
    simp only [List.mem_append, List.mem_filter] at hc
    rcases hc with (hc | hc) | hc
    · exact hn c hc.1
    · exact (mem_cellsFrom hc).2.2
    · exact hn c hc.1

/-- A cell after a write was there before, or lies in the span written. -/
theorem mem_write {m : Memory} {a : Nat} {bs : List Byte} {c : Host.Cell} (hc : c ∈ Memory.write m a bs) :
    c ∈ m ∨ (a ≤ c.1 ∧ c.1 < a + bs.length) := by
  unfold Memory.write at hc
  simp only [List.mem_append, List.mem_filter] at hc
  rcases hc with (hc | hc) | hc
  · exact Or.inl hc.1
  · have := mem_cellsFrom hc; exact Or.inr ⟨this.1, this.2.1⟩
  · exact Or.inl hc.1

/-- A write inside one RAM's words keeps every cell inside the RAMs. -/
theorem inRam_write {m : Memory} (h : Memory.inRam m) (r : Ram) {a : Nat} {bs : List Byte}
    (h1 : r.base ≤ a) (h2 : a + bs.length ≤ r.base + 4 * r.words) : Memory.inRam (Memory.write m a bs) := by
  intro c hc
  rcases mem_write hc with hc | hc
  · exact h c hc
  · refine List.any_eq_true.mpr ⟨r, by cases r <;> simp [Ram.all], ?_⟩
    simp only [Ram.holds, Bool.and_eq_true, decide_eq_true_eq]; omega

theorem wf_empty : Memory.wf [] := by decide

/-- A listed address reads as its cell in a canonical memory. -/
theorem byte_of_mem {m : Memory} (h : Memory.wf m) {c : Host.Cell} (hc : c ∈ m) : Memory.byte m c.1 = c.2 := by
  induction m with
  | nil => simp at hc
  | cons d m ih =>
    obtain ⟨hs, hn⟩ := h
    rw [List.pairwise_cons] at hs
    rcases List.mem_cons.mp hc with rfl | hc
    · simp [Memory.byte, List.lookup]
    · have hlt := hs.1 c hc
      have hne : (c.1 == d.1) = false := by simp only [beq_eq_false_iff_ne]; omega
      have := ih ⟨hs.2, fun e he => hn e (List.mem_cons_of_mem _ he)⟩ hc
      unfold Memory.byte at this ⊢
      rw [List.lookup, hne]; exact this

theorem byte_eq_unlisted {m : Memory} {x : Nat} (h : ∀ c ∈ m, c.1 ≠ x) : Memory.byte m x = Config.unlistedByte := by
  have : m.lookup x = none := by
    rw [List.lookup_eq_none_iff]
    intro c hc
    have := h c hc
    simp only [bne_iff_ne, ne_eq]; omega
  simp [Memory.byte, this]

/-- Equal memories are equal data: two canonical memories that read alike everywhere are one list. -/
theorem ext {m m' : Memory} (h : Memory.wf m) (h' : Memory.wf m') (hb : ∀ x, Memory.byte m x = Memory.byte m' x) : m = m' := by
  have sub : ∀ {m m' : Memory}, Memory.wf m → Memory.wf m' → (∀ x, Memory.byte m x = Memory.byte m' x) →
      ∀ c ∈ m, c ∈ m' := by
    intro m m' h h' hb c hc
    by_contra hcon
    have h1 := byte_of_mem h hc
    have h2 := h.2 c hc
    rw [hb c.1] at h1
    by_cases hx : ∃ d ∈ m', d.1 = c.1
    · obtain ⟨d, hd, hdc⟩ := hx
      have h3 := byte_of_mem h' hd
      rw [hdc, h1] at h3
      exact hcon (by rw [show c = d from Prod.ext hdc.symm h3]; exact hd)
    · have h3 : Memory.byte m' c.1 = Config.unlistedByte := byte_eq_unlisted (fun d hd hdc => hx ⟨d, hd, hdc⟩)
      rw [h3] at h1
      exact h2 h1.symm
  have nodup : ∀ {m : Memory}, Memory.wf m → m.Nodup := by
    intro m h
    exact h.1.imp (fun {c d} hcd heq => by rw [heq] at hcd; omega)
  have hperm : m.Perm m' :=
    (List.perm_ext_iff_of_nodup (nodup h) (nodup h')).mpr (fun c => ⟨sub h h' hb c, sub h' h (fun x => (hb x).symm) c⟩)
  exact hperm.eq_of_pairwise (le := fun c d => c.1 < d.1)
    (fun a b _ _ h1 h2 => absurd (Nat.lt_trans h1 h2) (Nat.lt_irrefl _)) h.1 h'.1

end Memory

@[simp] theorem bytesOfWord_length (v : Word) : (bytesOfWord v).length = 4 := rfl

@[simp] theorem flatMap_bytes_length (ws : List Word) : (ws.flatMap bytesOfWord).length = 4 * ws.length := by
  induction ws with
  | nil => rfl
  | cons w ws ih => simp only [List.flatMap_cons, List.length_append, bytesOfWord_length, List.length_cons, ih]; omega

/-- The four bytes of a word give the word back (R102). -/
theorem wordOfBytes_bytesOfWord (v : Word) :
    wordOfBytes (BitVec.ofNat 8 v.toNat) (BitVec.ofNat 8 (v.toNat / 2 ^ 8)) (BitVec.ofNat 8 (v.toNat / 2 ^ 16))
      (BitVec.ofNat 8 (v.toNat / 2 ^ 24)) = v := by
  apply BitVec.eq_of_toNat_eq
  have := v.isLt
  simp only [wordOfBytes, BitVec.toNat_ofNat]
  omega

theorem getElem_flatMap_bytes (ws : List Word) {i j : Nat} (hi : i < ws.length) (hj : j < 4) :
    (ws.flatMap bytesOfWord)[4 * i + j]'(by rw [flatMap_bytes_length]; omega) =
      (bytesOfWord ws[i])[j]'(by simpa using hj) := by
  induction ws generalizing i with
  | nil => simp at hi
  | cons w ws ih =>
    cases i with
    | zero =>
      simp only [List.flatMap_cons, Nat.mul_zero, Nat.zero_add, List.getElem_cons_zero]
      exact List.getElem_append_left (by simpa using hj)
    | succ i =>
      simp only [List.flatMap_cons, List.getElem_cons_succ]
      rw [List.getElem_append_right (by simp; omega)]
      have := ih (i := i) (by simpa using hi)
      simp only [bytesOfWord_length]
      rw [← this]
      congr 1
      omega

namespace Memory

@[simp] theorem words_length (m : Memory) (a n : Nat) : (Memory.words m a n).length = n := by simp [Memory.words]

theorem words_getElem (m : Memory) (a n i : Nat) (h : i < (Memory.words m a n).length) :
    (Memory.words m a n)[i] = Memory.word m (a + 4 * i) := by simp [Memory.words]

theorem wf_writeWords {m : Memory} (h : Memory.wf m) (a : Nat) (ws : List Word) : Memory.wf (Memory.writeWords m a ws) :=
  wf_write h a _

theorem inRam_writeWords {m : Memory} (h : Memory.inRam m) (r : Ram) {a : Nat} {ws : List Word}
    (h1 : r.base ≤ a) (h2 : a + 4 * ws.length ≤ r.base + 4 * r.words) : Memory.inRam (Memory.writeWords m a ws) :=
  inRam_write h r h1 (by rw [flatMap_bytes_length]; exact h2)

/-- A byte outside the words written reads as before. -/
theorem byte_writeWords_outside (m : Memory) {a x : Nat} {ws : List Word} (h : x < a ∨ a + 4 * ws.length ≤ x) :
    Memory.byte (Memory.writeWords m a ws) x = Memory.byte m x :=
  byte_write_outside m (by rw [flatMap_bytes_length]; exact h)

/-- A word written reads back. -/
theorem word_writeWords_inside (m : Memory) {a i : Nat} {ws : List Word} (h : i < ws.length) :
    Memory.word (Memory.writeWords m a ws) (a + 4 * i) = ws[i] := by
  have key : ∀ j, (hj : j < 4) → Memory.byte (Memory.writeWords m a ws) (a + 4 * i + j) =
      (bytesOfWord ws[i])[j]'(by simpa using hj) := by
    intro j hj
    have hlen : 4 * i + j < (ws.flatMap bytesOfWord).length := by rw [flatMap_bytes_length]; omega
    rw [Nat.add_assoc, Memory.writeWords, byte_write_inside m hlen]
    exact getElem_flatMap_bytes ws h hj
  have h0 := key 0 (by omega)
  have h1 := key 1 (by omega)
  have h2 := key 2 (by omega)
  have h3 := key 3 (by omega)
  rw [Nat.add_zero] at h0
  unfold Memory.word
  rw [h0, h1, h2, h3]
  exact wordOfBytes_bytesOfWord ws[i]

/-- A word clear of the words written reads as before. -/
theorem word_writeWords_outside (m : Memory) {a x : Nat} {ws : List Word} (h : x + 4 ≤ a ∨ a + 4 * ws.length ≤ x) :
    Memory.word (Memory.writeWords m a ws) x = Memory.word m x := by
  unfold Memory.word
  rw [byte_writeWords_outside m (by omega), byte_writeWords_outside m (by omega), byte_writeWords_outside m (by omega),
    byte_writeWords_outside m (by omega)]

end Memory

end Sys2Proof.Machine
end

