-- ==== Sys2Proof/Laws/PerInstr.lean ====
section
/-! SUPPORT. Facts proved once per constructor of Instr: the fields of a command's word (spec 30_encoding.md R140, R142, R144). -/

namespace Sys2Proof.Laws.WordFields

/-- The word of a command holds its UNIT, OP and NORM in their fields, and MBZ is zero. -/
def Statement (i : Instr) : Prop :=
  fieldUnit (encode i) = i.unit ∧ fieldOp (encode i) = i.op ∧ fieldNorm (encode i) = i.norm.toNat ∧ fieldMbz (encode i) = 0

theorem nop : Statement .nop := ⟨rfl, rfl, rfl, rfl⟩
theorem srst : Statement .srst := ⟨rfl, rfl, rfl, rfl⟩
theorem fftCfg : Statement .fftCfg := ⟨rfl, rfl, rfl, rfl⟩
theorem fftFwd : Statement .fftFwd := ⟨rfl, rfl, rfl, rfl⟩
theorem fftInv : Statement .fftInv := ⟨rfl, rfl, rfl, rfl⟩
theorem fftMag (norm : Bool) : Statement (.fftMag norm) := by cases norm <;> exact ⟨rfl, rfl, rfl, rfl⟩
theorem fftPwr (norm : Bool) : Statement (.fftPwr norm) := by cases norm <;> exact ⟨rfl, rfl, rfl, rfl⟩
theorem olaCfg : Statement .olaCfg := ⟨rfl, rfl, rfl, rfl⟩
theorem olaProc : Statement .olaProc := ⟨rfl, rfl, rfl, rfl⟩
theorem olaApply : Statement .olaApply := ⟨rfl, rfl, rfl, rfl⟩
theorem olaRst : Statement .olaRst := ⟨rfl, rfl, rfl, rfl⟩
theorem olsCfg : Statement .olsCfg := ⟨rfl, rfl, rfl, rfl⟩
theorem olsProc : Statement .olsProc := ⟨rfl, rfl, rfl, rfl⟩
theorem olsApply : Statement .olsApply := ⟨rfl, rfl, rfl, rfl⟩
theorem olsRst : Statement .olsRst := ⟨rfl, rfl, rfl, rfl⟩
theorem pvCfg : Statement .pvCfg := ⟨rfl, rfl, rfl, rfl⟩
theorem pvProc : Statement .pvProc := ⟨rfl, rfl, rfl, rfl⟩
theorem pvRst : Statement .pvRst := ⟨rfl, rfl, rfl, rfl⟩

end Sys2Proof.Laws.WordFields
end

