-- ==== Sys2Proof/Laws/State.lean ====
section
/-! SUPPORT. One lemma per field per update of the state, so that no proof unfolds a record update. -/

namespace Sys2Proof.Machine.State

/-! ### setRam -/

@[simp] theorem setRam_arg0 (s : State) (r : Ram) (ws : List Word) : (s.setRam r ws).arg0 = s.arg0 := rfl
@[simp] theorem setRam_arg1 (s : State) (r : Ram) (ws : List Word) : (s.setRam r ws).arg1 = s.arg1 := rfl
@[simp] theorem setRam_arg2 (s : State) (r : Ram) (ws : List Word) : (s.setRam r ws).arg2 = s.arg2 := rfl
@[simp] theorem setRam_result (s : State) (r : Ram) (ws : List Word) : (s.setRam r ws).result = s.result := rfl
@[simp] theorem setRam_err (s : State) (r : Ram) (ws : List Word) : (s.setRam r ws).err = s.err := rfl
@[simp] theorem setRam_errInfo (s : State) (r : Ram) (ws : List Word) : (s.setRam r ws).errInfo = s.errInfo := rfl
@[simp] theorem setRam_errCmd (s : State) (r : Ram) (ws : List Word) : (s.setRam r ws).errCmd = s.errCmd := rfl
@[simp] theorem setRam_errAddr (s : State) (r : Ram) (ws : List Word) : (s.setRam r ws).errAddr = s.errAddr := rfl
@[simp] theorem setRam_irqEn (s : State) (r : Ram) (ws : List Word) : (s.setRam r ws).irqEn = s.irqEn := rfl
@[simp] theorem setRam_fft (s : State) (r : Ram) (ws : List Word) : (s.setRam r ws).fft = s.fft := rfl
@[simp] theorem setRam_ola (s : State) (r : Ram) (ws : List Word) : (s.setRam r ws).ola = s.ola := rfl
@[simp] theorem setRam_ols (s : State) (r : Ram) (ws : List Word) : (s.setRam r ws).ols = s.ols := rfl
@[simp] theorem setRam_pv (s : State) (r : Ram) (ws : List Word) : (s.setRam r ws).pv = s.pv := rfl
@[simp] theorem setRam_mem (s : State) (r : Ram) (ws : List Word) : (s.setRam r ws).mem = Memory.writeWords s.mem r.base ws := rfl
@[simp] theorem setRam_port (s : State) (r : Ram) (ws : List Word) : (s.setRam r ws).port = s.port := rfl
@[simp] theorem setRam_resp (s : State) (r : Ram) (ws : List Word) : (s.setRam r ws).resp = s.resp := rfl

/-! ### setResult -/

@[simp] theorem setResult_arg0 (s : State) (v : Word) : (s.setResult v).arg0 = s.arg0 := rfl
@[simp] theorem setResult_arg1 (s : State) (v : Word) : (s.setResult v).arg1 = s.arg1 := rfl
@[simp] theorem setResult_arg2 (s : State) (v : Word) : (s.setResult v).arg2 = s.arg2 := rfl
@[simp] theorem setResult_result (s : State) (v : Word) : (s.setResult v).result = v := rfl
@[simp] theorem setResult_err (s : State) (v : Word) : (s.setResult v).err = s.err := rfl
@[simp] theorem setResult_errInfo (s : State) (v : Word) : (s.setResult v).errInfo = s.errInfo := rfl
@[simp] theorem setResult_errCmd (s : State) (v : Word) : (s.setResult v).errCmd = s.errCmd := rfl
@[simp] theorem setResult_errAddr (s : State) (v : Word) : (s.setResult v).errAddr = s.errAddr := rfl
@[simp] theorem setResult_irqEn (s : State) (v : Word) : (s.setResult v).irqEn = s.irqEn := rfl
@[simp] theorem setResult_fft (s : State) (v : Word) : (s.setResult v).fft = s.fft := rfl
@[simp] theorem setResult_ola (s : State) (v : Word) : (s.setResult v).ola = s.ola := rfl
@[simp] theorem setResult_ols (s : State) (v : Word) : (s.setResult v).ols = s.ols := rfl
@[simp] theorem setResult_pv (s : State) (v : Word) : (s.setResult v).pv = s.pv := rfl
@[simp] theorem setResult_mem (s : State) (v : Word) : (s.setResult v).mem = s.mem := rfl
@[simp] theorem setResult_port (s : State) (v : Word) : (s.setResult v).port = s.port := rfl
@[simp] theorem setResult_resp (s : State) (v : Word) : (s.setResult v).resp = s.resp := rfl

/-! ### setFft -/

@[simp] theorem setFft_arg0 (s : State) (u : FftUnit) : (s.setFft u).arg0 = s.arg0 := rfl
@[simp] theorem setFft_arg1 (s : State) (u : FftUnit) : (s.setFft u).arg1 = s.arg1 := rfl
@[simp] theorem setFft_arg2 (s : State) (u : FftUnit) : (s.setFft u).arg2 = s.arg2 := rfl
@[simp] theorem setFft_result (s : State) (u : FftUnit) : (s.setFft u).result = s.result := rfl
@[simp] theorem setFft_err (s : State) (u : FftUnit) : (s.setFft u).err = s.err := rfl
@[simp] theorem setFft_errInfo (s : State) (u : FftUnit) : (s.setFft u).errInfo = s.errInfo := rfl
@[simp] theorem setFft_errCmd (s : State) (u : FftUnit) : (s.setFft u).errCmd = s.errCmd := rfl
@[simp] theorem setFft_errAddr (s : State) (u : FftUnit) : (s.setFft u).errAddr = s.errAddr := rfl
@[simp] theorem setFft_irqEn (s : State) (u : FftUnit) : (s.setFft u).irqEn = s.irqEn := rfl
@[simp] theorem setFft_fft (s : State) (u : FftUnit) : (s.setFft u).fft = u := rfl
@[simp] theorem setFft_ola (s : State) (u : FftUnit) : (s.setFft u).ola = s.ola := rfl
@[simp] theorem setFft_ols (s : State) (u : FftUnit) : (s.setFft u).ols = s.ols := rfl
@[simp] theorem setFft_pv (s : State) (u : FftUnit) : (s.setFft u).pv = s.pv := rfl
@[simp] theorem setFft_mem (s : State) (u : FftUnit) : (s.setFft u).mem = s.mem := rfl
@[simp] theorem setFft_port (s : State) (u : FftUnit) : (s.setFft u).port = s.port := rfl
@[simp] theorem setFft_resp (s : State) (u : FftUnit) : (s.setFft u).resp = s.resp := rfl

/-! ### setPv -/

@[simp] theorem setPv_arg0 (s : State) (u : PvUnit) : (s.setPv u).arg0 = s.arg0 := rfl
@[simp] theorem setPv_arg1 (s : State) (u : PvUnit) : (s.setPv u).arg1 = s.arg1 := rfl
@[simp] theorem setPv_arg2 (s : State) (u : PvUnit) : (s.setPv u).arg2 = s.arg2 := rfl
@[simp] theorem setPv_result (s : State) (u : PvUnit) : (s.setPv u).result = s.result := rfl
@[simp] theorem setPv_err (s : State) (u : PvUnit) : (s.setPv u).err = s.err := rfl
@[simp] theorem setPv_errInfo (s : State) (u : PvUnit) : (s.setPv u).errInfo = s.errInfo := rfl
@[simp] theorem setPv_errCmd (s : State) (u : PvUnit) : (s.setPv u).errCmd = s.errCmd := rfl
@[simp] theorem setPv_errAddr (s : State) (u : PvUnit) : (s.setPv u).errAddr = s.errAddr := rfl
@[simp] theorem setPv_irqEn (s : State) (u : PvUnit) : (s.setPv u).irqEn = s.irqEn := rfl
@[simp] theorem setPv_fft (s : State) (u : PvUnit) : (s.setPv u).fft = s.fft := rfl
@[simp] theorem setPv_ola (s : State) (u : PvUnit) : (s.setPv u).ola = s.ola := rfl
@[simp] theorem setPv_ols (s : State) (u : PvUnit) : (s.setPv u).ols = s.ols := rfl
@[simp] theorem setPv_pv (s : State) (u : PvUnit) : (s.setPv u).pv = u := rfl
@[simp] theorem setPv_mem (s : State) (u : PvUnit) : (s.setPv u).mem = s.mem := rfl
@[simp] theorem setPv_port (s : State) (u : PvUnit) : (s.setPv u).port = s.port := rfl
@[simp] theorem setPv_resp (s : State) (u : PvUnit) : (s.setPv u).resp = s.resp := rfl

/-! ### respond -/

@[simp] theorem respond_arg0 (s : State) (r : PortResponse) : (s.respond r).arg0 = s.arg0 := rfl
@[simp] theorem respond_arg1 (s : State) (r : PortResponse) : (s.respond r).arg1 = s.arg1 := rfl
@[simp] theorem respond_arg2 (s : State) (r : PortResponse) : (s.respond r).arg2 = s.arg2 := rfl
@[simp] theorem respond_result (s : State) (r : PortResponse) : (s.respond r).result = s.result := rfl
@[simp] theorem respond_err (s : State) (r : PortResponse) : (s.respond r).err = s.err := rfl
@[simp] theorem respond_errInfo (s : State) (r : PortResponse) : (s.respond r).errInfo = s.errInfo := rfl
@[simp] theorem respond_errCmd (s : State) (r : PortResponse) : (s.respond r).errCmd = s.errCmd := rfl
@[simp] theorem respond_errAddr (s : State) (r : PortResponse) : (s.respond r).errAddr = s.errAddr := rfl
@[simp] theorem respond_irqEn (s : State) (r : PortResponse) : (s.respond r).irqEn = s.irqEn := rfl
@[simp] theorem respond_fft (s : State) (r : PortResponse) : (s.respond r).fft = s.fft := rfl
@[simp] theorem respond_ola (s : State) (r : PortResponse) : (s.respond r).ola = s.ola := rfl
@[simp] theorem respond_ols (s : State) (r : PortResponse) : (s.respond r).ols = s.ols := rfl
@[simp] theorem respond_pv (s : State) (r : PortResponse) : (s.respond r).pv = s.pv := rfl
@[simp] theorem respond_mem (s : State) (r : PortResponse) : (s.respond r).mem = s.mem := rfl
@[simp] theorem respond_port (s : State) (r : PortResponse) : (s.respond r).port = s.port := rfl
@[simp] theorem respond_resp (s : State) (r : PortResponse) : (s.respond r).resp = r := rfl

/-! ### raise -/

@[simp] theorem raise_arg0 (s : State) (c : ErrorCode) (v : Word) : (s.raise c v).arg0 = s.arg0 := rfl
@[simp] theorem raise_arg1 (s : State) (c : ErrorCode) (v : Word) : (s.raise c v).arg1 = s.arg1 := rfl
@[simp] theorem raise_arg2 (s : State) (c : ErrorCode) (v : Word) : (s.raise c v).arg2 = s.arg2 := rfl
@[simp] theorem raise_result (s : State) (c : ErrorCode) (v : Word) : (s.raise c v).result = s.result := rfl
@[simp] theorem raise_err (s : State) (c : ErrorCode) (v : Word) : (s.raise c v).err = s.err ||| c.bit := rfl
@[simp] theorem raise_errInfo (s : State) (c : ErrorCode) (v : Word) : (s.raise c v).errInfo = errInfoOf c v := rfl
@[simp] theorem raise_errCmd (s : State) (c : ErrorCode) (v : Word) : (s.raise c v).errCmd = v := rfl
@[simp] theorem raise_errAddr (s : State) (c : ErrorCode) (v : Word) : (s.raise c v).errAddr = s.errAddr := rfl
@[simp] theorem raise_irqEn (s : State) (c : ErrorCode) (v : Word) : (s.raise c v).irqEn = s.irqEn := rfl
@[simp] theorem raise_fft (s : State) (c : ErrorCode) (v : Word) : (s.raise c v).fft = s.fft := rfl
@[simp] theorem raise_ola (s : State) (c : ErrorCode) (v : Word) : (s.raise c v).ola = s.ola := rfl
@[simp] theorem raise_ols (s : State) (c : ErrorCode) (v : Word) : (s.raise c v).ols = s.ols := rfl
@[simp] theorem raise_pv (s : State) (c : ErrorCode) (v : Word) : (s.raise c v).pv = s.pv := rfl
@[simp] theorem raise_mem (s : State) (c : ErrorCode) (v : Word) : (s.raise c v).mem = s.mem := rfl
@[simp] theorem raise_port (s : State) (c : ErrorCode) (v : Word) : (s.raise c v).port = s.port := rfl
@[simp] theorem raise_resp (s : State) (c : ErrorCode) (v : Word) : (s.raise c v).resp = s.resp := rfl

/-! ### raiseBusError -/

@[simp] theorem raiseBusError_arg0 (s : State) (a : Addr) : (s.raiseBusError a).arg0 = s.arg0 := rfl
@[simp] theorem raiseBusError_arg1 (s : State) (a : Addr) : (s.raiseBusError a).arg1 = s.arg1 := rfl
@[simp] theorem raiseBusError_arg2 (s : State) (a : Addr) : (s.raiseBusError a).arg2 = s.arg2 := rfl
@[simp] theorem raiseBusError_result (s : State) (a : Addr) : (s.raiseBusError a).result = s.result := rfl
@[simp] theorem raiseBusError_err (s : State) (a : Addr) : (s.raiseBusError a).err = s.err ||| ErrorCode.busError.bit := rfl
@[simp] theorem raiseBusError_errInfo (s : State) (a : Addr) : (s.raiseBusError a).errInfo = BitVec.ofNat 32 ErrorCode.busError.toNat := rfl
@[simp] theorem raiseBusError_errCmd (s : State) (a : Addr) : (s.raiseBusError a).errCmd = s.errCmd := rfl
@[simp] theorem raiseBusError_errAddr (s : State) (a : Addr) : (s.raiseBusError a).errAddr = a.setWidth 32 := rfl
@[simp] theorem raiseBusError_irqEn (s : State) (a : Addr) : (s.raiseBusError a).irqEn = s.irqEn := rfl
@[simp] theorem raiseBusError_fft (s : State) (a : Addr) : (s.raiseBusError a).fft = s.fft := rfl
@[simp] theorem raiseBusError_ola (s : State) (a : Addr) : (s.raiseBusError a).ola = s.ola := rfl
@[simp] theorem raiseBusError_ols (s : State) (a : Addr) : (s.raiseBusError a).ols = s.ols := rfl
@[simp] theorem raiseBusError_pv (s : State) (a : Addr) : (s.raiseBusError a).pv = s.pv := rfl
@[simp] theorem raiseBusError_mem (s : State) (a : Addr) : (s.raiseBusError a).mem = s.mem := rfl
@[simp] theorem raiseBusError_port (s : State) (a : Addr) : (s.raiseBusError a).port = s.port := rfl
@[simp] theorem raiseBusError_resp (s : State) (a : Addr) : (s.raiseBusError a).resp = s.resp := rfl

/-! ### softReset -/

@[simp] theorem softReset_arg0 (s : State) : (s.softReset).arg0 = 0#32 := rfl
@[simp] theorem softReset_arg1 (s : State) : (s.softReset).arg1 = 0#32 := rfl
@[simp] theorem softReset_arg2 (s : State) : (s.softReset).arg2 = 0#32 := rfl
@[simp] theorem softReset_result (s : State) : (s.softReset).result = 0#32 := rfl
@[simp] theorem softReset_err (s : State) : (s.softReset).err = 0#32 := rfl
@[simp] theorem softReset_errInfo (s : State) : (s.softReset).errInfo = 0#32 := rfl
@[simp] theorem softReset_errCmd (s : State) : (s.softReset).errCmd = 0#32 := rfl
@[simp] theorem softReset_errAddr (s : State) : (s.softReset).errAddr = 0#32 := rfl
@[simp] theorem softReset_irqEn (s : State) : (s.softReset).irqEn = 0#32 := rfl
@[simp] theorem softReset_fft (s : State) : (s.softReset).fft = FftUnit.reset := rfl
@[simp] theorem softReset_ola (s : State) : (s.softReset).ola = ConvEngine.reset := rfl
@[simp] theorem softReset_ols (s : State) : (s.softReset).ols = ConvEngine.reset := rfl
@[simp] theorem softReset_pv (s : State) : (s.softReset).pv = PvUnit.reset := rfl
@[simp] theorem softReset_mem (s : State) : (s.softReset).mem = s.mem := rfl
@[simp] theorem softReset_port (s : State) : (s.softReset).port = s.port := rfl
@[simp] theorem softReset_resp (s : State) : (s.softReset).resp = s.resp := rfl

/-! ### setEngine -/

@[simp] theorem setEngine_arg0 (s : State) (e : ConvEngine) (g : Strategy) : (s.setEngine e g).arg0 = s.arg0 := by cases g <;> rfl
@[simp] theorem setEngine_arg1 (s : State) (e : ConvEngine) (g : Strategy) : (s.setEngine e g).arg1 = s.arg1 := by cases g <;> rfl
@[simp] theorem setEngine_arg2 (s : State) (e : ConvEngine) (g : Strategy) : (s.setEngine e g).arg2 = s.arg2 := by cases g <;> rfl
@[simp] theorem setEngine_result (s : State) (e : ConvEngine) (g : Strategy) : (s.setEngine e g).result = s.result := by cases g <;> rfl
@[simp] theorem setEngine_err (s : State) (e : ConvEngine) (g : Strategy) : (s.setEngine e g).err = s.err := by cases g <;> rfl
@[simp] theorem setEngine_errInfo (s : State) (e : ConvEngine) (g : Strategy) : (s.setEngine e g).errInfo = s.errInfo := by cases g <;> rfl
@[simp] theorem setEngine_errCmd (s : State) (e : ConvEngine) (g : Strategy) : (s.setEngine e g).errCmd = s.errCmd := by cases g <;> rfl
@[simp] theorem setEngine_errAddr (s : State) (e : ConvEngine) (g : Strategy) : (s.setEngine e g).errAddr = s.errAddr := by cases g <;> rfl
@[simp] theorem setEngine_irqEn (s : State) (e : ConvEngine) (g : Strategy) : (s.setEngine e g).irqEn = s.irqEn := by cases g <;> rfl
@[simp] theorem setEngine_fft (s : State) (e : ConvEngine) (g : Strategy) : (s.setEngine e g).fft = s.fft := by cases g <;> rfl
@[simp] theorem setEngine_pv (s : State) (e : ConvEngine) (g : Strategy) : (s.setEngine e g).pv = s.pv := by cases g <;> rfl
@[simp] theorem setEngine_mem (s : State) (e : ConvEngine) (g : Strategy) : (s.setEngine e g).mem = s.mem := by cases g <;> rfl
@[simp] theorem setEngine_port (s : State) (e : ConvEngine) (g : Strategy) : (s.setEngine e g).port = s.port := by cases g <;> rfl
@[simp] theorem setEngine_resp (s : State) (e : ConvEngine) (g : Strategy) : (s.setEngine e g).resp = s.resp := by cases g <;> rfl
@[simp] theorem setEngine_overlapAdd_ola (s : State) (e : ConvEngine) : (s.setEngine e .overlapAdd).ola = e := rfl
@[simp] theorem setEngine_overlapAdd_ols (s : State) (e : ConvEngine) : (s.setEngine e .overlapAdd).ols = s.ols := rfl
@[simp] theorem setEngine_overlapSave_ols (s : State) (e : ConvEngine) : (s.setEngine e .overlapSave).ols = e := rfl
@[simp] theorem setEngine_overlapSave_ola (s : State) (e : ConvEngine) : (s.setEngine e .overlapSave).ola = s.ola := rfl
@[simp] theorem engine_setEngine (s : State) (e : ConvEngine) (g : Strategy) : (s.setEngine e g).engine g = e := by
  cases g <;> rfl
@[simp] theorem engine_overlapAdd (s : State) : s.engine .overlapAdd = s.ola := rfl
@[simp] theorem engine_overlapSave (s : State) : s.engine .overlapSave = s.ols := rfl
@[simp] theorem engine_setResult (s : State) (v : Word) (g : Strategy) : (s.setResult v).engine g = s.engine g := by
  cases g <;> rfl
@[simp] theorem engine_setRam (s : State) (r : Ram) (ws : List Word) (g : Strategy) : (s.setRam r ws).engine g = s.engine g := by
  cases g <;> rfl
@[simp] theorem engine_respond (s : State) (r : PortResponse) (g : Strategy) : (s.respond r).engine g = s.engine g := by
  cases g <;> rfl

end Sys2Proof.Machine.State
end

