-- ==== Sys2Proof/Laws/Run.lean ====
section
/-! SUPPORT. What a command can do, said once: its checks' first failure is raised, or its effect happens (spec 60_exceptions.md
R421 to R423); every proof about `exec` starts here. -/

namespace Sys2Proof.Machine

theorem State.run_of_failure {s : State} {i : Instr} {f : State → Option ErrorCode} {e : State → State} {c : ErrorCode}
    (h : f s = some c) : s.run i f e = .next (s.raise c (encode i)) := by simp [State.run, h]

theorem State.run_of_pass {s : State} {i : Instr} {f : State → Option ErrorCode} {e : State → State}
    (h : f s = none) : s.run i f e = .next (e s) := by simp [State.run, h]

theorem State.run_cases {s t : State} {i : Instr} {f : State → Option ErrorCode} {e : State → State}
    (h : s.run i f e = .next t) : (∃ c, f s = some c ∧ t = s.raise c (encode i)) ∨ (f s = none ∧ t = e s) := by
  unfold State.run at h
  split at h <;> cases h
  · exact .inl ⟨_, ‹_›, rfl⟩
  · exact .inr ⟨‹_›, rfl⟩

/-- The checks of a command, in the order its pseudocode lists them (R423). -/
def failureOf : Instr → State → Option ErrorCode
  | .nop | .srst => noFailure
  | .fftCfg => fftCfgFailure
  | .fftFwd | .fftInv | .fftMag _ | .fftPwr _ => fftUnconfigured
  | .olaCfg | .olsCfg => convCfgFailure
  | .olaProc | .olaRst => convUnconfigured .overlapAdd
  | .olsProc | .olsRst => convUnconfigured .overlapSave
  | .olaApply => convApplyFailure .overlapAdd
  | .olsApply => convApplyFailure .overlapSave
  | .pvCfg => pvCfgFailure
  | .pvProc | .pvRst => pvUnconfigured

/-- The effect of a command whose checks pass. -/
def effectOf : Instr → State → State
  | .nop => id
  | .srst => State.softReset
  | .fftCfg => fftConfigure
  | .fftFwd => fftForward
  | .fftInv => fftInverse
  | .fftMag norm => fftMagnitude norm
  | .fftPwr norm => fftPower norm
  | .olaCfg => convConfigure .overlapAdd
  | .olaProc => convProcess .overlapAdd
  | .olaApply => convApply .overlapAdd
  | .olaRst => convRestart .overlapAdd
  | .olsCfg => convConfigure .overlapSave
  | .olsProc => convProcess .overlapSave
  | .olsApply => convApply .overlapSave
  | .olsRst => convRestart .overlapSave
  | .pvCfg => pvConfigure
  | .pvProc => pvProcess
  | .pvRst => pvRestart

/-- Every command is its checks and then its effect. -/
theorem exec_eq_run (i : Instr) (s : State) : exec i s = s.run i (failureOf i) (effectOf i) := by cases i <;> rfl

/-- A command answers with its error raised, or with its effect. -/
theorem exec_cases {i : Instr} {s t : State} (h : exec i s = .next t) :
    (∃ c, failureOf i s = some c ∧ t = s.raise c (encode i)) ∨ (failureOf i s = none ∧ t = effectOf i s) :=
  State.run_cases (exec_eq_run i s ▸ h)

theorem exec_of_pass {i : Instr} {s : State} (h : failureOf i s = none) : exec i s = .next (effectOf i s) := by
  rw [exec_eq_run]; exact State.run_of_pass h

theorem exec_of_failure {i : Instr} {s : State} {c : ErrorCode} (h : failureOf i s = some c) :
    exec i s = .next (s.raise c (encode i)) := by
  rw [exec_eq_run]; exact State.run_of_failure h

end Sys2Proof.Machine
end

