-- ==== Sys2Proof/Laws/Port.lean ====
section
/-! SUPPORT. What one host event does, by the kind of event and of target (spec 20_memory.md R104 to R107, R110; 70_reset_and_hazards.md
R460). -/

namespace Sys2Proof.Machine

/-- A step takes the oldest event (R104). -/
theorem step_of_event {s : State} {e : HostEvent} {rest : List HostEvent} (h : s.port = e :: rest) :
    step s = State.event { s with port := rest } e := by
  unfold step; rw [h]

/-- An access no address of the map answers is a bus error (R110). -/
theorem hostAccess_of_none {s : State} {a : HostAccess} (h : a.target? = none) : s.hostAccess a = .next (s.busFault a) := by
  unfold State.hostAccess; rw [h]

/-- A read of a mapped word (R106). -/
theorem hostAccess_read {s : State} {a : HostAccess} {t : Target} (h : a.target? = some t) (hk : a.kind = .read) :
    s.hostAccess a = .next (s.hostRead t) := by
  unfold State.hostAccess; rw [h]; simp only [hk]

/-- A write of a mapped word (R107). -/
theorem hostAccess_write {s : State} {a : HostAccess} {t : Target} {v : Word} (h : a.target? = some t) (hk : a.kind = .write v) :
    s.hostAccess a = s.hostWrite t v := by
  unfold State.hostAccess; rw [h]; simp only [hk]

/-- A command always answers a next state (60_exceptions.md R427, R429). -/
theorem exec_answers (i : Instr) (s : State) : ∃ t, exec i s = .next t := by
  rw [exec_eq_run]
  unfold State.run
  split <;> exact ⟨_, rfl⟩

end Sys2Proof.Machine
end

