-- ==== Sys2Proof/Laws/Transform.lean ====
section
/-! SUPPORT. Sizes: the legal transform sizes, and the lengths of what the transforms return (spec 00_scope.md R12,
42_streaming_fft.md R236 to R241); and the elements: the bit reversal as a permutation (R231) and the butterflies of a stage (R232). -/

namespace Sys2Proof.Machine

/-- The legal transform sizes are 2, 4, ..., 4096 (R12, R243). -/
theorem validSize_iff (n : Nat) : validSize n = true ↔ ∃ e, 1 ≤ e ∧ e ≤ 12 ∧ n = 2 ^ e := by
  constructor
  · intro h
    have hb : n < 4097 := by
      simp only [validSize, Bool.and_eq_true, decide_eq_true_eq] at h
      have := h.1.2
      simp only [Config.nMax, Config.log2NMax] at this
      omega
    have key : ∀ a < 65, ∀ b < 64, validSize (64 * a + b) = true →
        64 * a + b ∈ (List.range' 1 12).map (fun e => 2 ^ e) := by decide +kernel
    have hn : 64 * (n / 64) + n % 64 = n := Nat.div_add_mod n 64
    have := key (n / 64) (by omega) (n % 64) (by omega) (by rw [hn]; exact h)
    rw [hn] at this
    simp only [List.mem_map, List.mem_range'_1] at this
    obtain ⟨e, he, rfl⟩ := this
    exact ⟨e, by omega, by omega, rfl⟩
  · rintro ⟨e, h1, h2, rfl⟩
    have key : ∀ e < 13, 1 ≤ e → validSize (2 ^ e) = true := by decide +kernel
    exact key e (by omega) h1

theorem validSize_bounds {n : Nat} (h : validSize n = true) : 2 ≤ n ∧ n ≤ 4096 := by
  simp only [validSize, Bool.and_eq_true, decide_eq_true_eq] at h
  have := h.1.2
  simp only [Config.nMax, Config.log2NMax] at this
  exact ⟨h.1.1, by omega⟩

/-- A legal size is twice its half. -/
theorem validSize_half {n : Nat} (h : validSize n = true) : 2 * (n / 2) = n := by
  obtain ⟨e, h1, _, rfl⟩ := (validSize_iff n).mp h
  obtain ⟨d, rfl⟩ : ∃ d, e = d + 1 := ⟨e - 1, by omega⟩
  rw [Nat.pow_succ]; omega

@[simp] theorem packingTable_length (n : Nat) : (packingTable n).length = n / 2 := by simp [packingTable]

@[simp] theorem swapAt_length (z : List Cx) (i j : Nat) : (swapAt z i j).length = z.length := by simp [swapAt]

@[simp] theorem bitReverse_length (l : Nat) (z : List Cx) : (bitReverse l z).length = z.length := by
  unfold bitReverse
  generalize List.range (2 ^ l) = is
  induction is generalizing z with
  | nil => rfl
  | cons i is ih =>
    rw [List.foldl_cons, ih]
    split
    · exact swapAt_length _ _ _
    · rfl

theorem groupButterflies_length (dir : Dir) (tw : List (Word × Word)) (lo hi : List Cx) (h : Nat)
    (ht : tw.length = h) (hl : lo.length = h) (hh : hi.length = h) : (groupButterflies dir tw lo hi).length = 2 * h := by
  simp [groupButterflies, ht, hl, hh]; omega

theorem stageGroups_length (dir : Dir) (tw : List (Word × Word)) (half g : Nat) (z : List Cx)
    (ht : tw.length = half) (hz : z.length = g * (2 * half)) : (stageGroups dir tw half g z).length = z.length := by
  induction g generalizing z with
  | zero => simp [stageGroups, hz]
  | succ g ih =>
    have hz' : z.length = g * (2 * half) + 2 * half := by rw [hz]; ring
    have hlo : (z.take half).length = half := by simp; omega
    have hhi : ((z.drop half).take half).length = half := by simp; omega
    rw [stageGroups, List.length_append, groupButterflies_length dir tw _ _ half ht hlo hhi,
      ih (z.drop (2 * half)) (by rw [List.length_drop]; omega), List.length_drop]
    omega

/-- A stage of a legal size keeps the number of elements (R232). -/
theorem stage_length (dir : Dir) (l s : Nat) (z : List Cx) (h1 : 1 ≤ s) (h2 : s ≤ l) (hz : z.length = 2 ^ l) :
    (stage dir (2 ^ (l + 1)) s z).length = 2 ^ l := by
  have hhalf : 2 ^ (l + 1) / 2 = 2 ^ l := by rw [Nat.pow_succ]; omega
  have hspan : 2 * 2 ^ (s - 1) = 2 ^ s := by
    obtain ⟨d, rfl⟩ : ∃ d, s = d + 1 := ⟨s - 1, by omega⟩
    rw [Nat.pow_succ]; simp [Nat.mul_comm]
  unfold stage
  simp only [hhalf, hspan]
  rw [stageGroups_length _ _ _ _ _ (by simp [stageTwiddles]) ?_, hz]
  rw [hz, hspan]
  exact (Nat.div_mul_cancel (Nat.pow_dvd_pow 2 h2)).symm

/-- The complex FFT of a legal size keeps the number of elements (R232). -/
theorem cfft_length (dir : Dir) (l : Nat) (z : List Cx) (hz : z.length = 2 ^ l) :
    (cfft dir (2 ^ (l + 1)) z).length = 2 ^ l := by
  have hhalf : 2 ^ (l + 1) / 2 = 2 ^ l := by rw [Nat.pow_succ]; omega
  unfold cfft
  simp only [hhalf, Nat.log2_two_pow]
  have key : ∀ k ≤ l, ∀ z : List Cx, z.length = 2 ^ l →
      ((List.range k).foldl (fun z i => stage dir (2 ^ (l + 1)) (i + 1) z) z).length = 2 ^ l := by
    intro k
    induction k with
    | zero => intro _ z hz; simpa using hz
    | succ k ih =>
      intro hk z hz
      rw [List.range_succ, List.foldl_append]
      exact stage_length dir l (k + 1) _ (by omega) hk (ih (by omega) z hz)
  exact key l (Nat.le_refl l) _ (by rw [bitReverse_length, hz])

/-- The forward transform returns NB = n/2 + 1 real parts (R237, R238). -/
theorem rfwd_re_length (pk : List Pk) (n : Nat) (x : List Word) (h : 2 ≤ n) : (rfwd pk n x).re.length = n / 2 + 1 := by
  simp only [rfwd, unpackBins, List.length_cons, List.length_append, List.length_map, List.length_range', List.length_nil]
  omega

/-- The forward transform returns NB = n/2 + 1 imaginary parts. -/
theorem rfwd_im_length (pk : List Pk) (n : Nat) (x : List Word) (h : 2 ≤ n) : (rfwd pk n x).im.length = n / 2 + 1 := by
  simp only [rfwd, unpackBins, List.length_cons, List.length_append, List.length_map, List.length_range', List.length_nil]
  omega

theorem repackBins_length (pk : List Pk) (n : Nat) (sp : Spectrum) (h : 2 ≤ n) : (repackBins pk n sp).length = n / 2 := by
  simp only [repackBins, List.length_cons, List.length_map, List.length_range']
  omega

theorem deinterleave_length (n : Nat) (z : List Cx) : (deinterleave n z).length = 2 * z.length := by
  induction z with
  | nil => rfl
  | cons c z ih =>
    simp only [deinterleave, List.flatMap_cons, List.length_append, List.length_cons, List.length_nil] at ih ⊢
    omega

/-- The inverse transform of a legal size returns n samples (R241). -/
theorem rinv_length (pk : List Pk) (n : Nat) (sp : Spectrum) (h : validSize n = true) : (rinv pk n sp).length = n := by
  have hb := validSize_bounds h
  have hd := validSize_half h
  obtain ⟨e, h1, _, rfl⟩ := (validSize_iff n).mp h
  obtain ⟨l, rfl⟩ : ∃ l, e = l + 1 := ⟨e - 1, by omega⟩
  rw [rinv, deinterleave_length, cfft_length]
  · rw [Nat.pow_succ]; omega
  · rw [repackBins_length _ _ _ hb.1, Nat.pow_succ]; omega

/-! ### Elements -/

theorem bitrev_lt (l i : Nat) : bitrev l i < 2 ^ l := by
  induction l generalizing i with
  | zero => simp [bitrev]
  | succ l ih =>
    have := ih (i / 2)
    have h2 : i % 2 * 2 ^ l ≤ 1 * 2 ^ l := Nat.mul_le_mul_right _ (by omega)
    rw [bitrev, Nat.pow_succ]; omega

/-- A top bit becomes the bottom bit (R231). -/
theorem bitrev_top (l h r : Nat) (hh : h < 2) (hr : r < 2 ^ l) : bitrev (l + 1) (h * 2 ^ l + r) = h + 2 * bitrev l r := by
  induction l generalizing r with
  | zero =>
    obtain rfl : r = 0 := by simpa using hr
    simp [bitrev]; omega
  | succ l ih =>
    have hp : h * 2 ^ (l + 1) = 2 * (h * 2 ^ l) := by rw [Nat.pow_succ]; ring
    have hd : (h * 2 ^ (l + 1) + r) / 2 = h * 2 ^ l + r / 2 := by omega
    have hm : (h * 2 ^ (l + 1) + r) % 2 = r % 2 := by omega
    rw [Nat.pow_succ] at hr
    rw [bitrev, hd, hm, ih (r / 2) (by omega), bitrev, Nat.pow_succ]
    ring

/-- Reversing twice gives the index back (R231). -/
theorem bitrev_bitrev (l i : Nat) (h : i < 2 ^ l) : bitrev l (bitrev l i) = i := by
  induction l generalizing i with
  | zero => simp at h; simp [bitrev, h]
  | succ l ih =>
    rw [Nat.pow_succ] at h
    have hl := bitrev_lt l (i / 2)
    have he : bitrev (l + 1) i = i % 2 * 2 ^ l + bitrev l (i / 2) := rfl
    rw [he, bitrev_top l (i % 2) (bitrev l (i / 2)) (by omega) hl, ih (i / 2) (by omega)]
    omega

theorem swapAt_getD (z : List Cx) (i j k : Nat) (hi : i < z.length) (hj : j < z.length) :
    (swapAt z i j).getD k Cx.zero =
      if k = j then z.getD i Cx.zero else if k = i then z.getD j Cx.zero else z.getD k Cx.zero := by
  unfold swapAt
  simp only [List.getD_eq_getElem?_getD, List.getElem?_set, List.length_set]
  by_cases h1 : k = j
  · subst h1; simp [hj]
  · by_cases h2 : k = i
    · subst h2; simp [hi, h1, Ne.symm h1]
    · simp [h1, h2, Ne.symm h1, Ne.symm h2]

/-- The permutation moves element `bitrev l i` to place `i` (R231). -/
theorem bitReverse_getD (l : Nat) (z : List Cx) (hz : z.length = 2 ^ l) (i : Nat) (hi : i < 2 ^ l) :
    (bitReverse l z).getD i Cx.zero = z.getD (bitrev l i) Cx.zero := by
  have key : ∀ k ≤ 2 ^ l,
      ((List.range k).foldl (fun z i => if i < bitrev l i then swapAt z i (bitrev l i) else z) z).length = 2 ^ l ∧
      ∀ i < 2 ^ l, ((List.range k).foldl (fun z i => if i < bitrev l i then swapAt z i (bitrev l i) else z) z).getD i Cx.zero =
        if min i (bitrev l i) < k then z.getD (bitrev l i) Cx.zero else z.getD i Cx.zero := by
    intro k
    induction k with
    | zero => intro _; exact ⟨hz, fun i _ => by simp⟩
    | succ k ih =>
      intro hk
      obtain ⟨hlen, hget⟩ := ih (by omega)
      have hrk := bitrev_lt l k
      rw [List.range_succ, List.foldl_append]
      simp only [List.foldl_cons, List.foldl_nil]
      generalize List.foldl _ z (List.range k) = y at hlen hget
      by_cases hs : k < bitrev l k
      · rw [if_pos hs]
        refine ⟨by rw [swapAt_length]; exact hlen, fun i hi => ?_⟩
        rw [swapAt_getD _ _ _ _ (by omega) (by omega)]
        by_cases h1 : i = bitrev l k
        · have hb : bitrev l i = k := by rw [h1]; exact bitrev_bitrev l k (by omega)
          rw [if_pos h1, hget k (by omega), if_neg (by omega), if_pos (by omega), hb]
        · by_cases h2 : i = k
          · subst h2
            rw [if_neg h1, if_pos rfl, hget _ hrk, bitrev_bitrev l i hi, if_neg (by omega), if_pos (by omega)]
          · have hne : bitrev l i ≠ k := fun hc => h1 (by rw [← hc, bitrev_bitrev l i hi])
            rw [if_neg h1, if_neg h2, hget i hi]
            congr 1; exact propext (by omega)
      · rw [if_neg hs]
        refine ⟨hlen, fun i hi => ?_⟩
        rw [hget i hi]
        have hri := bitrev_bitrev l i hi
        by_cases h2 : i = k ∨ bitrev l i = k
        · have he : bitrev l i = i ∨ min i (bitrev l i) < k := by
            rcases h2 with h2 | h2
            · subst h2; omega
            · rw [h2] at hri; omega
          rcases he with he | he
          · rw [he]; simp
          · rw [if_pos he, if_pos (by omega)]
        · congr 1; exact propext (by omega)
  have := (key (2 ^ l) (Nat.le_refl _)).2 i hi
  rw [if_pos (by omega)] at this
  exact this

/-- Element j of each half of a group is the butterfly of both (R232). -/
theorem groupButterflies_getD (dir : Dir) (tw : List (Word × Word)) (lo hi : List Cx) (h j : Nat)
    (ht : tw.length = h) (hl : lo.length = h) (hh : hi.length = h) (hj : j < h) (t : Word × Word) (htj : tw[j]? = some t) :
    (groupButterflies dir tw lo hi).getD j Cx.zero = (butterfly dir (lo.getD j Cx.zero) (hi.getD j Cx.zero) t.1 t.2).1 ∧
    (groupButterflies dir tw lo hi).getD (h + j) Cx.zero =
      (butterfly dir (lo.getD j Cx.zero) (hi.getD j Cx.zero) t.1 t.2).2 := by
  have e1 : lo[j]? = some lo[j] := List.getElem?_eq_getElem _
  have e2 : hi[j]? = some hi[j] := List.getElem?_eq_getElem _
  simp only [groupButterflies, List.getD_eq_getElem?_getD]
  constructor
  · rw [List.getElem?_append_left (by simp; omega)]
    simp [List.getElem?_zipWith, List.zip, e1, e2, htj]
  · rw [List.getElem?_append_right (by simp; omega)]
    have : h + j - (List.map Prod.fst (List.zipWith (fun p w => butterfly dir p.1 p.2 w.1 w.2) (lo.zip hi) tw)).length = j := by
      simp; omega
    rw [this]
    simp [List.getElem?_zipWith, List.zip, e1, e2, htj]

/-- Every butterfly of every group of a stage (R232). -/
theorem stageGroups_getD (dir : Dir) (tw : List (Word × Word)) (half n g j : Nat) (z : List Cx)
    (ht : tw.length = half) (hz : z.length = n * (2 * half)) (hg : g < n) (hj : j < half) (t : Word × Word)
    (htj : tw[j]? = some t) :
    ((stageGroups dir tw half n z).getD (g * (2 * half) + j) Cx.zero,
      (stageGroups dir tw half n z).getD (g * (2 * half) + j + half) Cx.zero) =
    butterfly dir (z.getD (g * (2 * half) + j) Cx.zero) (z.getD (g * (2 * half) + j + half) Cx.zero) t.1 t.2 := by
  induction n generalizing z g with
  | zero => omega
  | succ n ih =>
    have hz' : z.length = n * (2 * half) + 2 * half := by rw [hz]; ring
    have hlo : (z.take half).length = half := by simp; omega
    have hhi : ((z.drop half).take half).length = half := by simp; omega
    have hlen := groupButterflies_length dir tw _ _ half ht hlo hhi
    rw [stageGroups]
    cases g with
    | zero =>
      obtain ⟨h1, h2⟩ := groupButterflies_getD dir tw _ _ half j ht hlo hhi hj t htj
      have a1 : (z.take half).getD j Cx.zero = z.getD j Cx.zero := by
        simp only [List.getD_eq_getElem?_getD, List.getElem?_take_of_lt hj]
      have a2 : ((z.drop half).take half).getD j Cx.zero = z.getD (j + half) Cx.zero := by
        simp only [List.getD_eq_getElem?_getD, List.getElem?_take_of_lt hj, List.getElem?_drop, Nat.add_comm]
      rw [a1, a2] at h1 h2
      simp only [Nat.zero_mul, Nat.zero_add]
      simp only [List.getD_eq_getElem?_getD] at h1 h2 ⊢
      rw [List.getElem?_append_left (by omega), List.getElem?_append_left (by omega), Nat.add_comm j half, h1, h2, Nat.add_comm j half]
    | succ g =>
      have := ih g (z.drop (2 * half)) (by rw [List.length_drop]; omega) (by omega)
      have hs : (g + 1) * (2 * half) = 2 * half + g * (2 * half) := by ring
      simp only [List.getD_eq_getElem?_getD, List.getElem?_drop] at this ⊢
      rw [List.getElem?_append_right (by omega), List.getElem?_append_right (by omega), hlen]
      have e1 : (g + 1) * (2 * half) + j - 2 * half = g * (2 * half) + j := by omega
      have e2 : (g + 1) * (2 * half) + j + half - 2 * half = g * (2 * half) + j + half := by omega
      rw [e1, e2, this, hs]
      simp only [Nat.add_assoc]

/-- Every butterfly of stage `s`: group g, element j, with the ROM's words at N-index 2m, m = j·(M/span) (R232). -/
theorem stage_getD (dir : Dir) (l s g j : Nat) (z : List Cx) (h1 : 1 ≤ s) (h2 : s ≤ l) (hz : z.length = 2 ^ l)
    (hg : g < 2 ^ l / 2 ^ s) (hj : j < 2 ^ (s - 1)) :
    ((stage dir (2 ^ (l + 1)) s z).getD (g * 2 ^ s + j) Cx.zero,
      (stage dir (2 ^ (l + 1)) s z).getD (g * 2 ^ s + j + 2 ^ (s - 1)) Cx.zero) =
    butterfly dir (z.getD (g * 2 ^ s + j) Cx.zero) (z.getD (g * 2 ^ s + j + 2 ^ (s - 1)) Cx.zero)
      (twiddleC (2 ^ (l + 1)) (2 * (j * (2 ^ l / 2 ^ s)))) (twiddleS (2 ^ (l + 1)) (2 * (j * (2 ^ l / 2 ^ s)))) := by
  have hhalf : 2 ^ (l + 1) / 2 = 2 ^ l := by rw [Nat.pow_succ]; omega
  have hspan : 2 * 2 ^ (s - 1) = 2 ^ s := by
    obtain ⟨d, rfl⟩ : ∃ d, s = d + 1 := ⟨s - 1, by omega⟩
    rw [Nat.pow_succ]; simp [Nat.mul_comm]
  have key := stageGroups_getD dir (stageTwiddles (2 ^ (l + 1)) (2 ^ (s - 1))) (2 ^ (s - 1)) (2 ^ l / 2 ^ s) g j z
    (by simp [stageTwiddles]) (by rw [hspan, hz]; exact (Nat.div_mul_cancel (Nat.pow_dvd_pow 2 h2)).symm) hg hj
    (twiddleC (2 ^ (l + 1)) (2 * (j * (2 ^ l / 2 ^ s))), twiddleS (2 ^ (l + 1)) (2 * (j * (2 ^ l / 2 ^ s))))
    (by simp only [stageTwiddles, hspan, hhalf]; simp [List.getElem?_range hj])
  rw [hspan] at key
  simpa only [stage, hhalf, hspan] using key

end Sys2Proof.Machine
end

