-- ==== Sys2Proof/Laws/Stream.lean ====
section
/-! SUPPORT. The streaming engines: which parts of an engine each operation changes, and that array lengths and counters keep
their ranges (spec 10_state.md R55, R59, R61, R64; 43_block_convolution.md R283, R286; 46_phase_vocoder_resynth.md R385). -/

namespace Sys2Proof.Machine

@[simp] theorem olaStep_out_length (tail r : List Word) (h t : Nat) : (olaStep tail r h t).1.length = h := by simp [olaStep]

@[simp] theorem olaStep_tail_length (tail r : List Word) (h t : Nat) : (olaStep tail r h t).2.length = t := by simp [olaStep]

/-- The convolution of a frame has N samples (R282). -/
theorem ConvEngine.convolve_length {e : ConvEngine} (h : e.Sized) (f : List Word) : (e.convolve f).length = e.n.toNat :=
  rinv_length _ _ _ h.size

/-! ### What does not change -/

/-- Two engines of one configuration: every field but the stream state (R286, R289). -/
structure ConvEngine.SameConfig (a b : ConvEngine) : Prop where
  cfg : a.cfg = b.cfg
  n : a.n = b.n
  k : a.k = b.k
  h : a.h = b.h
  pk : a.pk = b.pk
  kr : a.kr = b.kr
  ki : a.ki = b.ki

theorem ConvEngine.SameConfig.refl (a : ConvEngine) : a.SameConfig a := ⟨rfl, rfl, rfl, rfl, rfl, rfl, rfl⟩

theorem ConvEngine.SameConfig.trans {a b c : ConvEngine} (x : a.SameConfig b) (y : b.SameConfig c) : a.SameConfig c :=
  ⟨x.cfg.trans y.cfg, x.n.trans y.n, x.k.trans y.k, x.h.trans y.h, x.pk.trans y.pk, x.kr.trans y.kr, x.ki.trans y.ki⟩

theorem ConvEngine.SameConfig.sized {a b : ConvEngine} (x : a.SameConfig b) (h : b.Sized) : a.Sized :=
  ⟨by rw [x.n]; exact h.size, by rw [x.k, x.n]; exact h.kernel, by rw [x.h, x.n, x.k]; exact h.hop⟩

theorem ConvEngine.restart_sameConfig (e : ConvEngine) : e.restart.SameConfig e := ⟨rfl, rfl, rfl, rfl, rfl, rfl, rfl⟩

theorem ConvEngine.block_sameConfig (e : ConvEngine) (g : Strategy) : (e.block g).SameConfig e := by
  cases g <;> exact ⟨rfl, rfl, rfl, rfl, rfl, rfl, rfl⟩

theorem ConvEngine.buffer_sameConfig (e : ConvEngine) (x : Word) : (e.buffer x).SameConfig e :=
  ⟨rfl, rfl, rfl, rfl, rfl, rfl, rfl⟩

theorem ConvEngine.rewind_sameConfig (e : ConvEngine) : e.rewind.SameConfig e := ⟨rfl, rfl, rfl, rfl, rfl, rfl, rfl⟩

theorem ConvEngine.push_sameConfig (g : Strategy) (e : ConvEngine) (x : Word) : (e.push g x).SameConfig e := by
  unfold ConvEngine.push
  split
  · exact (((e.buffer x).block g).rewind_sameConfig.trans ((e.buffer x).block_sameConfig g)).trans (e.buffer_sameConfig x)
  · exact e.buffer_sameConfig x

theorem ConvEngine.call_sameConfig (g : Strategy) (e : ConvEngine) (x : Word) : (e.call g x).1.SameConfig e := by
  have := e.push_sameConfig g x
  exact ⟨this.cfg, this.n, this.k, this.h, this.pk, this.kr, this.ki⟩

theorem ConvEngine.calls_sameConfig (g : Strategy) (e : ConvEngine) (xs : List Word) : (e.calls g xs).1.SameConfig e := by
  induction xs generalizing e with
  | nil => exact .refl e
  | cons x xs ih => exact (ih (e.call g x).1).trans (e.call_sameConfig g x)

/-! ### Outputs of a run of calls -/

@[simp] theorem ConvEngine.calls_length (g : Strategy) (e : ConvEngine) (xs : List Word) :
    (e.calls g xs).2.length = xs.length := by
  induction xs generalizing e with
  | nil => rfl
  | cons x xs ih => simp [ConvEngine.calls, ih]

theorem ConvEngine.calls_append (g : Strategy) (e : ConvEngine) (xs ys : List Word) :
    e.calls g (xs ++ ys) = (((e.calls g xs).1.calls g ys).1, (e.calls g xs).2 ++ ((e.calls g xs).1.calls g ys).2) := by
  induction xs generalizing e with
  | nil => rfl
  | cons x xs ih => simp [ConvEngine.calls, ih]

theorem applyInputs_length (signal : List Word) (h k : Nat) :
    (applyInputs signal h k).length = signal.length + (h - 1 + (k - 1)) := by simp [applyInputs]

/-- APPLY of L samples gives L + K - 1 outputs (R287). -/
theorem ConvEngine.apply_length (g : Strategy) (e : ConvEngine) (signal : List Word) :
    (e.apply g signal).2.length = signal.length + (e.k.toNat - 1) := by
  simp [ConvEngine.apply, applyInputs]; omega

/-! ### The stream state keeps its ranges -/

theorem ConvEngine.Sized.bounds {e : ConvEngine} (h : e.Sized) :
    e.n.toNat ≤ 4096 ∧ 2 ≤ e.n.toNat ∧ 1 ≤ e.k.toNat ∧ e.k.toNat ≤ e.n.toNat ∧ 1 ≤ e.h.toNat ∧ e.h.toNat ≤ 4096 ∧
      e.h.toNat + (e.k.toNat - 1) = e.n.toNat := by
  have h1 := validSize_bounds h.size
  have h2 := h.kernel
  have h3 := h.hop
  unfold hopSize at h3
  omega

theorem ConvEngine.restart_streaming {e : ConvEngine} (h : e.Sized) : e.restart.Streaming := by
  have := h.bounds
  exact ⟨by simp [ConvEngine.restart], by simp [ConvEngine.restart], by simp [ConvEngine.restart],
    by simp [ConvEngine.restart]; omega, .inl rfl⟩

theorem ConvEngine.block_lengths (g : Strategy) {e : ConvEngine} (h : e.Sized) (hi : e.inb.length = e.h.toNat)
    (ht : e.tail.length = e.k.toNat - 1) :
    (e.block g).inb.length = e.h.toNat ∧ (e.block g).tail.length = e.k.toNat - 1 ∧ (e.block g).outq.length = e.h.toNat := by
  have hb := h.bounds
  cases g with
  | overlapAdd => exact ⟨hi, by simp [ConvEngine.block, ConvEngine.blockAdd], by simp [ConvEngine.block, ConvEngine.blockAdd]⟩
  | overlapSave =>
    refine ⟨hi, ?_, ?_⟩
    · simp [ConvEngine.block, ConvEngine.blockSave, hi, ht]
    · simp [ConvEngine.block, ConvEngine.blockSave, ConvEngine.convolve_length h]; omega

/-- A call that does not fill the hop buffers its sample and reads the next output (R283). -/
theorem ConvEngine.call_of_partial (g : Strategy) (e : ConvEngine) (x : Word) (h : e.incnt.toNat + 1 ≠ e.h.toNat) :
    e.call g x = (e.buffer x).pop := by
  unfold ConvEngine.call ConvEngine.push
  rw [if_neg h]

/-- A call that fills the hop runs the block, returns both counters to 0 and reads the first output (R283). -/
theorem ConvEngine.call_of_full (g : Strategy) (e : ConvEngine) (x : Word) (h : e.incnt.toNat + 1 = e.h.toNat) :
    e.call g x = (((e.buffer x).block g).rewind).pop := by
  unfold ConvEngine.call ConvEngine.push
  rw [if_pos h]

/-- The stream state after a sample has come in: `rp` is where the next output stands (R283). -/
theorem ConvEngine.push_lengths (g : Strategy) {e : ConvEngine} (x : Word) (h : e.Sized) (hs : e.Streaming) :
    (e.push g x).inb.length = e.h.toNat ∧ (e.push g x).tail.length = e.k.toNat - 1 ∧ (e.push g x).outq.length = e.h.toNat := by
  have hi : (e.buffer x).inb.length = (e.buffer x).h.toNat := by simpa [ConvEngine.buffer] using hs.inbLength
  unfold ConvEngine.push
  split
  · exact ConvEngine.block_lengths g ((e.buffer_sameConfig x).sized h) hi hs.tailLength
  · exact ⟨hi, hs.tailLength, hs.outqLength⟩

/-- The counters after a sample has come in: a full hop returns both to 0, else `wp` advances (R283). -/
theorem ConvEngine.push_counters (g : Strategy) {e : ConvEngine} (x : Word) (h : e.Sized) (hs : e.Streaming) :
    ((e.push g x).incnt.toNat = 0 ∧ (e.push g x).outptr.toNat = 0 ∧ e.incnt.toNat + 1 = e.h.toNat) ∨
    ((e.push g x).incnt.toNat = e.incnt.toNat + 1 ∧ (e.push g x).outptr = e.outptr ∧ e.incnt.toNat + 1 < e.h.toNat) := by
  have hb := h.bounds
  have hw := hs.incntBelow
  unfold ConvEngine.push
  split
  · exact .inl ⟨rfl, rfl, ‹_›⟩
  · refine .inr ⟨?_, rfl, by omega⟩
    simp only [ConvEngine.buffer, BitVec.toNat_ofNat]
    omega

/-- A call keeps the stream state in its ranges (R283). -/
theorem ConvEngine.call_streaming (g : Strategy) {e : ConvEngine} (x : Word) (h : e.Sized) (hs : e.Streaming) :
    (e.call g x).1.Streaming := by
  have hb := h.bounds
  have hr := hs.outptrFollows
  have hc := e.call_sameConfig g x
  obtain ⟨h1, h2, h3⟩ := ConvEngine.push_lengths g x h hs
  refine ⟨by rw [hc.h]; exact h1, by rw [hc.k]; exact h2, by rw [hc.h]; exact h3, ?_, ?_⟩
  · rw [hc.h]
    change (e.push g x).incnt.toNat < _
    rcases ConvEngine.push_counters g x h hs with h | h <;> omega
  · simp only [ConvEngine.call, ConvEngine.pop, BitVec.toNat_ofNat]
    rcases ConvEngine.push_counters g x h hs with ⟨ha, hp, _⟩ | ⟨ha, hp, _⟩
    · rw [ha, hp]; omega
    · rw [ha, hp]; omega

theorem ConvEngine.calls_streaming (g : Strategy) {e : ConvEngine} (xs : List Word) (h : e.Sized) (hs : e.Streaming) :
    (e.calls g xs).1.Streaming := by
  induction xs generalizing e with
  | nil => exact hs
  | cons x xs ih => exact ih ((e.call_sameConfig g x).sized h) (e.call_streaming g x h hs)

/-! ### The engine invariant -/

theorem ConvEngine.ok_of_sameConfig {a b : ConvEngine} (hc : a.SameConfig b) (hb : b.Ok) (ht : b.cfg = true)
    (hs : a.Streaming) : a.Ok :=
  ⟨fun h => absurd (hc.cfg.symm.trans h) (by simp [ht]), fun _ => hc.sized (hb.sized ht), fun _ => by rw [hc.pk, hc.n]; exact hb.table ht,
    fun _ => by rw [hc.kr, hc.ki, hc.n]; exact hb.spectrum ht, fun _ => hs⟩

theorem ConvEngine.reset_ok : ConvEngine.reset.Ok := by
  refine ⟨fun _ => rfl, ?_, ?_, ?_, ?_⟩ <;> intro h <;> cases h

theorem ConvEngine.restart_ok {e : ConvEngine} (h : e.Ok) (hc : e.cfg = true) : e.restart.Ok :=
  ConvEngine.ok_of_sameConfig e.restart_sameConfig h hc (ConvEngine.restart_streaming (h.sized hc))

theorem ConvEngine.call_ok (g : Strategy) {e : ConvEngine} (x : Word) (h : e.Ok) (hc : e.cfg = true) : (e.call g x).1.Ok :=
  ConvEngine.ok_of_sameConfig (e.call_sameConfig g x) h hc (e.call_streaming g x (h.sized hc) (h.streaming hc))

theorem ConvEngine.apply_ok (g : Strategy) {e : ConvEngine} (signal : List Word) (h : e.Ok) (hc : e.cfg = true) :
    (e.apply g signal).1.Ok := by
  have hr := ConvEngine.restart_ok h hc
  exact ConvEngine.ok_of_sameConfig ((e.restart.calls_sameConfig g _).trans e.restart_sameConfig) h hc
    (ConvEngine.calls_streaming g _ (hr.sized hc) (hr.streaming hc))

/-- A newly configured engine of legal sizes satisfies the engine invariant (R289). -/
theorem ConvEngine.configured_ok {n k : Nat} (kernel : List Word) (hn : validSize n = true) (h1 : 1 ≤ k) (h2 : k ≤ n) :
    (ConvEngine.configured n k kernel).Ok := by
  have hb := validSize_bounds hn
  have en : (BitVec.ofNat 32 n).toNat = n := by simp; omega
  have ek : (BitVec.ofNat 32 k).toNat = k := by simp; omega
  have eh : (BitVec.ofNat 32 (hopSize n k)).toNat = hopSize n k := by simp [hopSize]; omega
  have hs : (ConvEngine.configured n k kernel).Sized :=
    ⟨by simpa only [ConvEngine.configured, ConvEngine.restart, en] using hn,
     by simp only [ConvEngine.configured, ConvEngine.restart, en, ek]; exact ⟨h1, h2⟩,
     by simp only [ConvEngine.configured, ConvEngine.restart, en, ek, eh]⟩
  refine ⟨fun h => Bool.noConfusion h, fun _ => hs, fun _ => ?_, fun _ => ?_, fun _ => ?_⟩
  · simp only [ConvEngine.configured, ConvEngine.restart, en]
  · simp only [ConvEngine.configured, ConvEngine.restart, en, kernelSpectrum]
    exact ⟨rfwd_re_length _ _ _ hb.1, rfwd_im_length _ _ _ hb.1⟩
  · exact ConvEngine.restart_streaming (e := ConvEngine.configured n k kernel) hs

end Sys2Proof.Machine
end

