-- ==== Sys2Proof/Laws/Vocoder.lean ====
section
/-! SUPPORT. The phase vocoder: which parts each operation changes, and that array lengths and counters keep their ranges (spec
10_state.md R61, R64; 46_phase_vocoder_resynth.md R374, R385, R388). -/

namespace Sys2Proof.Machine

/-- Two vocoders of one configuration: every field but the stream state (R388). -/
structure PvUnit.SameConfig (a b : PvUnit) : Prop where
  cfg : a.cfg = b.cfg
  n : a.n = b.n
  h : a.h = b.h
  shift : a.shift = b.shift
  wsq : a.wsq = b.wsq
  gain : a.gain = b.gain
  wet : a.wet = b.wet
  dry : a.dry = b.dry
  omega : a.omega = b.omega
  winl : a.winl = b.winl
  pk : a.pk = b.pk

theorem PvUnit.SameConfig.sized {a b : PvUnit} (x : a.SameConfig b) (h : b.Sized) : a.Sized :=
  ⟨by rw [x.n]; exact h.size, by rw [x.h, x.n]; exact h.hop, by rw [x.shift]; exact h.shiftValid,
    by rw [x.wsq]; exact h.energyValid, by rw [x.winl, x.n]; exact h.winlLength, by rw [x.wsq, x.winl]; exact h.energy,
    by rw [x.omega, x.n, x.h]; exact h.advance, by rw [x.pk, x.n]; exact h.table⟩

theorem PvUnit.restart_sameConfig (u : PvUnit) : u.restart.SameConfig u :=
  ⟨rfl, rfl, rfl, rfl, rfl, rfl, rfl, rfl, rfl, rfl, rfl⟩

theorem PvUnit.frame_sameConfig (u : PvUnit) : u.frame.SameConfig u :=
  ⟨rfl, rfl, rfl, rfl, rfl, rfl, rfl, rfl, rfl, rfl, rfl⟩

theorem PvUnit.push_sameConfig (u : PvUnit) (x : Word) : (u.push x).SameConfig u := by
  unfold PvUnit.push
  split <;> exact ⟨rfl, rfl, rfl, rfl, rfl, rfl, rfl, rfl, rfl, rfl, rfl⟩

theorem PvUnit.call_sameConfig (u : PvUnit) (x : Word) : (u.call x).1.SameConfig u := by
  have := u.push_sameConfig x
  exact ⟨this.cfg, this.n, this.h, this.shift, this.wsq, this.gain, this.wet, this.dry, this.omega, this.winl, this.pk⟩

@[simp] theorem PvUnit.analyse_length (u : PvUnit) : u.analyse.length = u.n.toNat / 2 + 1 := by simp [PvUnit.analyse]

@[simp] theorem accumulatePhase_length (nb : Nat) (psi frqd : List Word) : (accumulatePhase nb psi frqd).length = nb := by
  simp [accumulatePhase]

@[simp] theorem PvUnit.calls_length (u : PvUnit) (xs : List Word) : (u.calls xs).2.length = xs.length := by
  induction xs generalizing u with
  | nil => rfl
  | cons x xs ih => simp [PvUnit.calls, ih]

theorem PvUnit.Sized.bounds {u : PvUnit} (h : u.Sized) :
    2 ≤ u.n.toNat ∧ u.n.toNat ≤ 4096 ∧ 1 ≤ u.h.toNat ∧ u.h.toNat < u.n.toNat := by
  have h1 := validSize_bounds h.size
  have h2 := h.hop
  omega

theorem PvUnit.restart_streaming {u : PvUnit} (h : u.Sized) : u.restart.Streaming := by
  have := h.bounds
  exact ⟨by simp [PvUnit.restart], by simp [PvUnit.restart], by simp [PvUnit.restart], by simp [PvUnit.restart],
    by simp [PvUnit.restart], by simp [PvUnit.restart]; omega, .inl rfl⟩

theorem PvUnit.push_lengths {u : PvUnit} (x : Word) (h : u.Sized) (hs : u.Streaming) :
    (u.push x).dl.length = u.n.toNat ∧ (u.push x).tail.length = u.n.toNat - u.h.toNat ∧
      (u.push x).outq.length = u.h.toNat ∧ (u.push x).prev.length = u.n.toNat / 2 + 1 ∧
      (u.push x).psi.length = u.n.toNat / 2 + 1 := by
  have hb := h.bounds
  have hd : (u.feed x).dl.length = u.n.toNat := by simp [PvUnit.feed, hs.dlLength]; omega
  unfold PvUnit.push
  split
  · exact ⟨hd, by simp [PvUnit.rewind, PvUnit.frame, PvUnit.feed], by simp [PvUnit.rewind, PvUnit.frame, PvUnit.feed],
      by simp [PvUnit.rewind, PvUnit.frame, PvUnit.feed], by simp [PvUnit.rewind, PvUnit.frame, PvUnit.feed]⟩
  · exact ⟨hd, hs.tailLength, hs.outqLength, hs.prevLength, hs.psiLength⟩

/-- The counters after a sample has come in: a full hop returns both to 0, else `cnt` advances (R385). -/
theorem PvUnit.push_counters {u : PvUnit} (x : Word) (h : u.Sized) (hs : u.Streaming) :
    ((u.push x).incnt.toNat = 0 ∧ (u.push x).outptr.toNat = 0 ∧ u.incnt.toNat + 1 = u.h.toNat) ∨
    ((u.push x).incnt.toNat = u.incnt.toNat + 1 ∧ (u.push x).outptr = u.outptr ∧ u.incnt.toNat + 1 < u.h.toNat) := by
  have hb := h.bounds
  have hw := hs.incntBelow
  unfold PvUnit.push
  split
  · exact .inl ⟨rfl, rfl, ‹_›⟩
  · refine .inr ⟨?_, rfl, by omega⟩
    simp only [PvUnit.feed, BitVec.toNat_ofNat]
    omega

/-- A call keeps the stream state in its ranges (R385). -/
theorem PvUnit.call_streaming {u : PvUnit} (x : Word) (h : u.Sized) (hs : u.Streaming) : (u.call x).1.Streaming := by
  have hb := h.bounds
  have hr := hs.outptrFollows
  have hc := u.call_sameConfig x
  obtain ⟨h1, h2, h3, h4, h5⟩ := PvUnit.push_lengths x h hs
  refine ⟨by rw [hc.n]; exact h1, by rw [hc.n, hc.h]; exact h2, by rw [hc.h]; exact h3, by rw [hc.n]; exact h4,
    by rw [hc.n]; exact h5, ?_, ?_⟩
  · rw [hc.h]
    change (u.push x).incnt.toNat < _
    rcases PvUnit.push_counters x h hs with h | h <;> omega
  · simp only [PvUnit.call, BitVec.toNat_ofNat]
    rcases PvUnit.push_counters x h hs with ⟨ha, hp, _⟩ | ⟨ha, hp, _⟩
    · rw [ha, hp]; omega
    · rw [ha, hp]; omega

theorem PvUnit.ok_of_sameConfig {a b : PvUnit} (hc : a.SameConfig b) (hb : b.Ok) (ht : b.cfg = true) (hs : a.Streaming) :
    a.Ok :=
  ⟨fun h => absurd (hc.cfg.symm.trans h) (by simp [ht]), fun _ => hc.sized (hb.sized ht), fun _ => hs⟩

theorem PvUnit.reset_ok : PvUnit.reset.Ok := by
  refine ⟨fun _ => rfl, ?_, ?_⟩ <;> intro h <;> cases h

theorem PvUnit.restart_ok {u : PvUnit} (h : u.Ok) (hc : u.cfg = true) : u.restart.Ok :=
  PvUnit.ok_of_sameConfig u.restart_sameConfig h hc (PvUnit.restart_streaming (h.sized hc))

theorem PvUnit.call_ok {u : PvUnit} (x : Word) (h : u.Ok) (hc : u.cfg = true) : (u.call x).1.Ok :=
  PvUnit.ok_of_sameConfig (u.call_sameConfig x) h hc (u.call_streaming x (h.sized hc) (h.streaming hc))

/-- A host write of PV_GAIN, PV_WET or PV_DRY keeps the vocoder's invariant (R62, R63). -/
theorem PvUnit.gains_ok {u : PvUnit} (h : u.Ok) (a b c : Word) : PvUnit.Ok { u with gain := a, wet := b, dry := c } := by
  refine ⟨fun hc => ?_, fun hc => ?_, fun hc => ?_⟩
  · have := h.unconfigured hc
    simp only
    rw [this]
  · have := h.sized hc
    exact ⟨this.size, this.hop, this.shiftValid, this.energyValid, this.winlLength, this.energy, this.advance, this.table⟩
  · have := h.streaming hc
    exact ⟨this.dlLength, this.tailLength, this.outqLength, this.prevLength, this.psiLength, this.incntBelow, this.outptrFollows⟩

/-- A newly configured vocoder whose checks passed satisfies its invariant (R374). -/
theorem PvUnit.configured_ok (u : PvUnit) {n h : Nat} {shift : Word} {w : List Word} (hn : validSize n = true) (h1 : 1 ≤ h)
    (h2 : h < n) (hsh : validShift shift = true) (hw : w.length = n) (he : validEnergy (windowEnergy w) = true) :
    (u.configured n h shift w).Ok := by
  have hb := validSize_bounds hn
  have en : (BitVec.ofNat 32 n).toNat = n := by simp; omega
  have eh : (BitVec.ofNat 32 h).toNat = h := by simp; omega
  have hs : (u.configured n h shift w).Sized :=
    ⟨by simpa only [PvUnit.configured, PvUnit.restart, en] using hn,
     by simp only [PvUnit.configured, PvUnit.restart, en, eh]; exact ⟨h1, h2⟩,
     hsh, he,
     by simp only [PvUnit.configured, PvUnit.restart, en]; exact hw,
     rfl,
     by simp only [PvUnit.configured, PvUnit.restart, en, eh],
     by simp only [PvUnit.configured, PvUnit.restart, en]⟩
  exact ⟨fun h => Bool.noConfusion h, fun _ => hs, fun _ => PvUnit.restart_streaming (u := u.configured n h shift w) hs⟩

/-! ### The spectral stretch, one source at a time

A proof about `stretchStep` rewrites it to `placeBin` and cites these: unfolding the match on `destination` makes Lean evaluate
binary32 operations on free variables. -/

theorem at0_set (l : List Word) (i j : Nat) (v : Word) (h : j < l.length) :
    at0 (l.set i v) j = if i = j then v else at0 l j := by
  have h' : j < (l.set i v).length := by rw [List.length_set]; exact h
  simp only [at0, List.getD_eq_getElem?_getD, List.getElem?_eq_getElem h, List.getElem?_eq_getElem h', Option.getD_some,
    List.getElem_set]

theorem placeBin_mag_length (o : Option Nat) (shift : Word) (acc : List Word × List Word) (b : BinAnalysis) :
    (placeBin o shift acc b).1.length = acc.1.length := by
  cases o with
  | none => rfl
  | some q => exact List.length_set

theorem placeBin_frq_length (o : Option Nat) (shift : Word) (acc : List Word × List Word) (b : BinAnalysis) :
    (placeBin o shift acc b).2.length = acc.2.length := by
  cases o with
  | none => rfl
  | some q => exact List.length_set

/-- A source adds its magnitude at its destination and nowhere else (R380). -/
theorem placeBin_mag_at (o : Option Nat) (shift : Word) (acc : List Word × List Word) (b : BinAnalysis) (d : Nat)
    (hd : d < acc.1.length) :
    at0 (placeBin o shift acc b).1 d = if o = some d then fadd (at0 acc.1 d) b.mag else at0 acc.1 d := by
  cases o with
  | none => rw [if_neg (by simp)]; rfl
  | some q =>
    refine (at0_set _ _ _ _ hd).trans ?_
    by_cases hq : q = d
    · rw [if_pos hq, if_pos (by rw [hq]), hq]
    · rw [if_neg hq, if_neg (by simpa using hq)]

/-- A source replaces the frequency at its destination and nowhere else (R380). -/
theorem placeBin_frq_at (o : Option Nat) (shift : Word) (acc : List Word × List Word) (b : BinAnalysis) (d : Nat)
    (hd : d < acc.2.length) :
    at0 (placeBin o shift acc b).2 d = if o = some d then fmul b.frq shift else at0 acc.2 d := by
  cases o with
  | none => rw [if_neg (by simp)]; rfl
  | some q =>
    refine (at0_set _ _ _ _ hd).trans ?_
    by_cases hq : q = d
    · rw [if_pos hq, if_pos (by rw [hq])]
    · rw [if_neg hq, if_neg (by simpa using hq)]

end Sys2Proof.Machine
end

