-- ==== Sys2Proof/Machine/HostProgram.lean ====
section
/-! DEFINITION. The host-program syntax and the pseudo-instructions of spec 30_encoding.md R150 to R152, as the host accesses
they stand for.  CORE itself runs no program: these are the events a host issues on the port. -/

namespace Sys2Proof.Machine

/-- What a line addresses: a register, a RAM element, or a raw byte address (R150). -/
inductive LineTarget where
  | named (t : Target)
  | raw (a : Addr)
  deriving DecidableEq, Repr

/-- A written value: a hex word, a decimal unsigned integer, or a real literal `±num/den` with the suffix f (R150). -/
inductive LineValue where
  | hex (w : Word)
  | dec (n : Nat)
  | real (neg : Bool) (num den : Nat)
  deriving DecidableEq, Repr

/-- One access line: `wr target, value`, or `rd target` with an optional name for the result (R150). -/
inductive Line where
  | wr (t : LineTarget) (v : LineValue)
  | rd (t : LineTarget) (name : Option String)
  deriving DecidableEq, Repr

/-- The pseudo-instructions (R151); the operands are in ARG order (R152). -/
inductive Pseudo where
  | nop | srst
  | fftCfg (n : LineValue) | fftFwd | fftInv | fftMag (norm : Bool) | fftPwr (norm : Bool)
  | olaCfg (nreq k : LineValue) | olaProc (x : LineValue) (y : String) | olaApply (l : LineValue) | olaRst
  | olsCfg (nreq k : LineValue) | olsProc (x : LineValue) (y : String) | olsApply (l : LineValue) | olsRst
  | pvCfg (n h s : LineValue) | pvProc (x : LineValue) (y : String) | pvRst
  | clrErr | waitNone
  deriving DecidableEq, Repr

/-- The byte address a line target stands for; a RAM index past the address space keeps the low 23 bits. -/
def LineTarget.addr : LineTarget → Addr
  | .named t => BitVec.ofNat 23 t.addr
  | .raw a => a

/-- The word a value is encoded as; a real literal is rounded once to the nearest binary32 (R150).  DESIGN CHOICE (assumption log
20): R150 gives a decimal value of 2^32 or more no u32 encoding, and a literal with denominator 0 no value.  The first is kept
modulo 2^32; the second, of its sign, is a zero if its numerator is 0 and else the least subnormal, 2^-149. -/
def LineValue.word : LineValue → Word
  | .hex w => w
  | .dec n => BitVec.ofNat 32 n
  | .real neg num den => packWord neg (roundMag (num * 2 ^ 149) den)

/-- The host access of a line (R150). -/
def Line.access : Line → HostAccess
  | .wr t v => { width := .bits32, addr := t.addr, kind := .write v.word }
  | .rd t _ => { width := .bits32, addr := t.addr, kind := .read }

/-- `wr <register>, value`. -/
def wrReg (r : Reg) (v : LineValue) : Line := .wr (.named (.reg r)) v

/-- `wr CMD, word` with the command's word of R142. -/
def wrCmd (i : Instr) : Line := wrReg .cmd (.hex (encode i))

/-- `rd RESULT -> y`. -/
def rdResult (y : String) : Line := .rd (.named (.reg .result)) (some y)

/-- The accesses a pseudo-instruction expands to (R151). -/
def Pseudo.expand : Pseudo → List Line
  | .nop => [wrCmd .nop]
  | .srst => [wrCmd .srst]
  | .fftCfg n => [wrReg .arg0 n, wrCmd .fftCfg]
  | .fftFwd => [wrCmd .fftFwd]
  | .fftInv => [wrCmd .fftInv]
  | .fftMag norm => [wrCmd (.fftMag norm)]
  | .fftPwr norm => [wrCmd (.fftPwr norm)]
  | .olaCfg nreq k => [wrReg .arg0 nreq, wrReg .arg1 k, wrCmd .olaCfg]
  | .olaProc x y => [wrReg .arg0 x, wrCmd .olaProc, rdResult y]
  | .olaApply l => [wrReg .arg0 l, wrCmd .olaApply]
  | .olaRst => [wrCmd .olaRst]
  | .olsCfg nreq k => [wrReg .arg0 nreq, wrReg .arg1 k, wrCmd .olsCfg]
  | .olsProc x y => [wrReg .arg0 x, wrCmd .olsProc, rdResult y]
  | .olsApply l => [wrReg .arg0 l, wrCmd .olsApply]
  | .olsRst => [wrCmd .olsRst]
  | .pvCfg n h s => [wrReg .arg0 n, wrReg .arg1 h, wrReg .arg2 s, wrCmd .pvCfg]
  | .pvProc x y => [wrReg .arg0 x, wrCmd .pvProc, rdResult y]
  | .pvRst => [wrCmd .pvRst]
  | .clrErr => [wrReg .err (.hex 0x000001FE#32)]
  | .waitNone => []

/-- The events a host program issues, in order (R114, R150). -/
def hostEvents (p : List Line) : List HostEvent := p.map (fun l => .access l.access)

end Sys2Proof.Machine
end

