-- ==== Sys2Proof/Tests/Slice0.lean ====
section
/-! SUPPORT. The model's own tests: ill-formed terms refused, words written out bit by bit from spec 30_encoding.md R142, one step
against the worked values of the spec (95_test_vectors.md and the examples of the rules), the digest of the twiddle ROM
(41_fft_twiddle_rom.md R204), and for every obligation with hypotheses a witness that meets them. -/

namespace Sys2Proof.Tests

/- One theorem is checked after another: each is small, and many waiting at once would only hold memory. -/
set_option Elab.async false

open Sys2Proof.Machine Sys2Proof.Statements

/-! ### WellFormed -/

theorem test_wellFormed_accepts_word_access :
    HostAccess.wellFormed { width := .bits32, addr := 0x106000#23, kind := .read } = true := by decide

theorem test_wellFormed_refuses_width :
    HostAccess.wordWide { width := .bits16, addr := 0x100000#23, kind := .read } = false ∧
    HostAccess.wellFormed { width := .bits16, addr := 0x100000#23, kind := .read } = false := by decide

theorem test_wellFormed_refuses_misaligned :
    HostAccess.aligned { width := .bits32, addr := 0x000002#23, kind := .read } = false ∧
    HostAccess.wellFormed { width := .bits32, addr := 0x000002#23, kind := .read } = false := by decide

/-- RE has 2049 words, so 0x106004 is the first byte past it (R111). -/
theorem test_wellFormed_refuses_unmapped :
    HostAccess.mapped { width := .bits32, addr := 0x106004#23, kind := .write 5#32 } = false ∧
    HostAccess.wellFormed { width := .bits32, addr := 0x106004#23, kind := .write 5#32 } = false := by decide

/-! ### Decode: words written out from R140 (MBZ, NORM, UNIT, OP) and R142 -/

theorem test_decode_nop : decodeWord 0b00000000000000000000000_0_0000_0000#32 = .command .nop := by decide
theorem test_decode_srst : decodeWord 0b00000000000000000000000_0_0000_0001#32 = .command .srst := by decide
theorem test_decode_fftCfg : decodeWord 0b00000000000000000000000_0_0001_0000#32 = .command .fftCfg := by decide
theorem test_decode_fftFwd : decodeWord 0b00000000000000000000000_0_0001_0001#32 = .command .fftFwd := by decide
theorem test_decode_fftInv : decodeWord 0b00000000000000000000000_0_0001_0010#32 = .command .fftInv := by decide
theorem test_decode_fftMag : decodeWord 0b00000000000000000000000_0_0001_0011#32 = .command (.fftMag false) := by decide
theorem test_decode_fftMag_norm : decodeWord 0b00000000000000000000000_1_0001_0011#32 = .command (.fftMag true) := by decide
theorem test_decode_fftPwr : decodeWord 0b00000000000000000000000_0_0001_0100#32 = .command (.fftPwr false) := by decide
theorem test_decode_fftPwr_norm : decodeWord 0b00000000000000000000000_1_0001_0100#32 = .command (.fftPwr true) := by decide
theorem test_decode_olaCfg : decodeWord 0b00000000000000000000000_0_0010_0000#32 = .command .olaCfg := by decide
theorem test_decode_olaProc : decodeWord 0b00000000000000000000000_0_0010_0001#32 = .command .olaProc := by decide
theorem test_decode_olaApply : decodeWord 0b00000000000000000000000_0_0010_0010#32 = .command .olaApply := by decide
theorem test_decode_olaRst : decodeWord 0b00000000000000000000000_0_0010_0011#32 = .command .olaRst := by decide
theorem test_decode_olsCfg : decodeWord 0b00000000000000000000000_0_0011_0000#32 = .command .olsCfg := by decide
theorem test_decode_olsProc : decodeWord 0b00000000000000000000000_0_0011_0001#32 = .command .olsProc := by decide
theorem test_decode_olsApply : decodeWord 0b00000000000000000000000_0_0011_0010#32 = .command .olsApply := by decide
theorem test_decode_olsRst : decodeWord 0b00000000000000000000000_0_0011_0011#32 = .command .olsRst := by decide
theorem test_decode_pvCfg : decodeWord 0b00000000000000000000000_0_0100_0000#32 = .command .pvCfg := by decide
theorem test_decode_pvProc : decodeWord 0b00000000000000000000000_0_0100_0001#32 = .command .pvProc := by decide
theorem test_decode_pvRst : decodeWord 0b00000000000000000000000_0_0100_0011#32 = .command .pvRst := by decide

theorem test_decodeTableWord : decodeTableWord 32 0x113 = some (.fftMag true) ∧ decodeTableWord 32 0x42 = none := by decide

theorem test_decode_truncated : decodeBytes [0x10#8, 0#8, 0#8] = .illegal .truncated := by decide

/-- What a CMD write of a word leaves in the error record. -/
def recordAfter (w : Nat) : Option (Word × Word × Word) :=
  match step (State.reset.withFetchWord 32 w) with
  | .next t => some (t.err, t.errInfo, t.errCmd)
  | _ => none

/-- The illegal words of 95_test_vectors.md 2.1, with their ERRINFO. -/
theorem test_illegal_words :
    recordAfter 0x00000002 = some (0x20#32, 0x205#32, 0x00000002#32) ∧
    recordAfter 0x00000015 = some (0x20#32, 0x515#32, 0x00000015#32) ∧
    recordAfter 0x00000111 = some (0x20#32, 0x115#32, 0x00000111#32) ∧
    recordAfter 0x00000024 = some (0x20#32, 0x425#32, 0x00000024#32) ∧
    recordAfter 0x00000042 = some (0x20#32, 0x245#32, 0x00000042#32) ∧
    recordAfter 0x00000050 = some (0x20#32, 0x055#32, 0x00000050#32) ∧
    recordAfter 0x00000200 = some (0x20#32, 0x005#32, 0x00000200#32) ∧
    recordAfter 0x80000011 = some (0x20#32, 0x115#32, 0x80000011#32) ∧
    recordAfter 0xFFFFFFFF = some (0x20#32, 0xFF5#32, 0xFFFFFFFF#32) := by decide +kernel

/-! ### binary32 constants of the tests -/

/-- 1.0, 2.0, 3.0, 4.0, 5.0 and -1.0. -/
def one : Word := 0x3F800000#32
def two : Word := 0x40000000#32
def three : Word := 0x40400000#32
def four : Word := 0x40800000#32
def five : Word := 0x40A00000#32
def minusOne : Word := 0xBF800000#32

/-- A field of the state after a command, if it answers a next state. -/
def after {α : Type} (i : Instr) (s : State) (f : State → α) : Option α :=
  match exec i s with
  | .next t => some (f t)
  | _ => none

/-! ### Global commands (40_global.md, 95_test_vectors.md 6) -/

/-- NOP with RESULT = 1.0 (R180's example). -/
theorem test_nop : after .nop { State.reset with result := one } id = some { State.reset with result := one } := by decide

/-- SRST after errors and host writes (R181's example; 95_test_vectors.md 6): cleared, but for the RAM and PV_WET. -/
theorem test_srst :
    after .srst
      { State.reset with
        err := 0x20#32, errInfo := 0x245#32, arg0 := 4#32, irqEn := 8#32, mem := [(0x200003, 0x3F#8)]
        fft := { cfg := true, n := 2#32, pk := packingTable 2 } }
      (fun t => ([t.err, t.errInfo, t.arg0, t.irqEn, t.fft.n, t.pv.wet], t.fft.cfg, t.mem)) =
    some ([0#32, 0#32, 0#32, 0#32, 0#32, one], false, [(0x200003, 0x3F#8)]) := by decide +kernel

/-- Reset reads (R44, R70; 95_test_vectors.md 6). -/
theorem test_reset_registers :
    [Reg.id, .version, .caps, .gstatus, .pvWet, .pvDry].map State.reset.regValue =
    [0x4E575643#32, 0x00070100#32, 0x0000100C#32, 0#32, 0x3F800000#32, 0#32] := by decide

/-! ### The host port (95_test_vectors.md 6 and 7, programs 1 to 3) -/

/-- The state after one 32-bit access of the named address. -/
def accessed {α : Type} (s : State) (addr : Addr) (k : AccessKind) (f : State → α) : Option α :=
  match step { s with port := [.access { width := .bits32, addr := addr, kind := k }] } with
  | .next t => some (f t)
  | _ => none

theorem test_misaligned_read :
    accessed State.reset 0x000002#23 .read (fun t => (t.err, t.errInfo, t.errAddr, t.errCmd, t.resp)) =
    some (0x100#32, 8#32, 2#32, 0#32, .busErrorData 0#32) := by decide +kernel

theorem test_unmapped_write :
    accessed State.reset 0x000038#23 (.write 5#32) (fun t => (t.err, t.errAddr, t.mem)) = some (0x100#32, 0x38#32, []) := by
  decide +kernel

theorem test_ram_write_is_little_endian :
    accessed State.reset 0x100004#23 (.write 0x40490FDB#32) (fun t => t.mem) =
    some [(0x100004, 0xDB#8), (0x100005, 0x0F#8), (0x100006, 0x49#8), (0x100007, 0x40#8)] := by decide +kernel

theorem test_irqEn_keeps_its_bits :
    accessed State.reset 0x000034#23 (.write 0xFFFFFFFF#32) (fun t => t.irqEn) = some 0x1FE#32 := by decide +kernel

/-- `wr ERR, 0x008` with ERR = 0x018 and IRQ_EN = 0x008 (program 3): 0x010 is left, the interrupt falls, GSTATUS = 0x100. -/
theorem test_err_clears_written_ones :
    accessed { State.reset with err := 0x18#32, irqEn := 8#32 } 0x000024#23 (.write 8#32)
      (fun t => (t.err, t.irq, t.gstatus)) = some (0x10#32, false, 0x100#32) := by decide +kernel

theorem test_gstatus_after_error :
    State.gstatus { State.reset with err := 2#32, irqEn := 0x1FE#32 } = 0x300#32 := by decide +kernel

/-- The model's choice for a real literal with denominator 0 (assumption log 20). -/
theorem test_real_literal_zero_denominator :
    (LineValue.real false 3 0).word = 0x00000001#32 ∧ (LineValue.real true 3 0).word = 0x80000001#32 ∧
    (LineValue.real true 0 0).word = 0x80000000#32 := by decide +kernel

/-- The real literals of R150: -1.0f and 0.1f, rounded once. -/
theorem test_real_literal :
    (LineValue.real true 1 1).word = 0xBF800000#32 ∧ (LineValue.real false 1 10).word = 0x3DCCCCCD#32 := by decide +kernel

/-- `OLA.PROC 2.0f -> y` is three accesses (R151). -/
theorem test_pseudo_expands :
    (Pseudo.olaProc (.hex two) "y").expand.map Line.access =
    [{ width := .bits32, addr := 0x000014#23, kind := .write two },
     { width := .bits32, addr := 0x000010#23, kind := .write 0x21#32 },
     { width := .bits32, addr := 0x000020#23, kind := .read }] := by decide +kernel

/-! ### streaming_fft (95_test_vectors.md 3; examples of R243 to R247) -/

/-- The FFT unit configured for N = 4, X = [1, 2, 3, 4]. -/
def fft4 : State :=
  { State.reset with
    fft := { cfg := true, n := 4#32, pk := packingTable 4 }
    mem := Memory.writeWords [] Ram.x.base [one, two, three, four] }

/-- The same size with RE = [4, 0, 0], IM = [5, 0, 7]. -/
def fft4Spectrum : State :=
  { fft4 with mem := Memory.writeWords (Memory.writeWords [] Ram.re.base [four]) Ram.im.base [five, 0#32, 0x40E00000#32] }

theorem test_fftCfg : after .fftCfg { State.reset with arg0 := 8#32 } (fun t => (t.fft.cfg, t.fft.n, t.result)) =
    some (true, 8#32, 8#32) := by decide +kernel

theorem test_fftCfg_refuses_12 : after .fftCfg { State.reset with arg0 := 12#32 } (fun t => (t.err, t.errInfo, t.fft.cfg)) =
    some (2#32, 0x11#32, false) := by decide +kernel

theorem test_fftFwd : after .fftFwd fft4 (fun t => (t.ramWords .re 3, t.ramWords .im 3, t.ramWords .x 4)) =
    some ([0x41200000#32, 0xC0000000#32, 0xC0000000#32], [0#32, 0x40000000#32, 0#32], [one, two, three, four]) := by
  decide +kernel

/-- The delayed impulse of 95_test_vectors.md 3.1: the sign of the forward kernel, and its rounding. -/
theorem test_fftFwd_delayed_impulse :
    after .fftFwd
      { State.reset with
        fft := { cfg := true, n := 8#32, pk := packingTable 8 }, mem := Memory.writeWords [] Ram.x.base [0#32, one] }
      (fun t => (t.ramWords .re 5, t.ramWords .im 5)) =
    some ([0x3F800000#32, 0x3F3504F3#32, 0#32, 0xBF3504F3#32, 0xBF800000#32],
      [0#32, 0xBF3504F4#32, 0xBF800000#32, 0xBF3504F4#32, 0#32]) := by decide +kernel

theorem test_fftInv : after .fftInv fft4Spectrum (fun t => t.ramWords .x 4) = some [one, one, one, one] := by decide +kernel

theorem test_fftMag :
    after (.fftMag false) fft4 (fun t => t.ramWords .p 3) = some [0x41200000#32, 0x403504F3#32, 0x40000000#32] := by
  decide +kernel

theorem test_fftMag_norm :
    after (.fftMag true) fft4 (fun t => t.ramWords .p 3) = some [0x40A00000#32, 0x3FB504F3#32, 0x3F800000#32] := by
  decide +kernel

theorem test_fftPwr :
    after (.fftPwr false) fft4 (fun t => t.ramWords .p 3) = some [0x42C80000#32, 0x41000000#32, 0x40800000#32] := by
  decide +kernel

theorem test_fftPwr_norm :
    after (.fftPwr true) fft4 (fun t => t.ramWords .p 3) = some [0x42480000#32, 0x40800000#32, 0x40000000#32] := by
  decide +kernel

theorem test_fftFwd_unconfigured : after .fftFwd State.reset (fun t => (t.err, t.errInfo)) = some (0x10#32, 0x114#32) := by
  decide +kernel

/-! ### Block convolution (95_test_vectors.md 4; examples of R311 to R314, R341 to R344) -/

/-- The kernel [1, 0, -1]. -/
def kernel3 : List Word := [one, 0#32, minusOne]

/-- The engine of 95_test_vectors.md 4.1 right after CFG: N = 4, K = 3, H = 2. -/
def engine3 : ConvEngine := ConvEngine.configured 4 3 kernel3

/-- The same engine after one sample 1.0: the next one fills the hop. -/
def engine3Full : ConvEngine := { engine3 with inb := [one, 0#32], incnt := 1#32, outptr := 1#32 }

/-- Both engines in a given state, with ARG0. -/
def both (e : ConvEngine) (x : Word) : State := { State.reset with ola := e, ols := e, arg0 := x }

/-- The kernel in both KRAMs, ARG0 = Nreq, ARG1 = K. -/
def kernelState (nreq k : Word) : State :=
  { State.reset with
    arg0 := nreq, arg1 := k
    mem := Memory.writeWords (Memory.writeWords [] Ram.olaKram.base kernel3) Ram.olsKram.base kernel3 }

/-- Both engines configured, SIGIN = [1, 2, 3, 4, 5] in both RAMs, ARG0 = 5. -/
def signalState : State :=
  { both engine3 5#32 with
    mem := Memory.writeWords (Memory.writeWords [] Ram.olaSigin.base [one, two, three, four, five]) Ram.olsSigin.base
      [one, two, three, four, five] }

theorem test_olaCfg :
    after .olaCfg (kernelState 3#32 3#32) (fun t => ([t.ola.n, t.ola.k, t.ola.h, t.result], t.ola.kr, t.ola.ki)) =
    some ([4#32, 3#32, 2#32, 4#32], [0#32, 0x40000000#32, 0#32], [0#32, 0#32, 0#32]) := by decide +kernel

theorem test_olaCfg_refuses_kernel : after .olaCfg (kernelState 2#32 3#32) (fun t => (t.err, t.errInfo, t.ola.cfg)) =
    some (4#32, 0x22#32, false) := by decide +kernel

theorem test_olaProc_partial : after .olaProc (both engine3 one) (fun t => (t.result, t.ola.incnt, t.ola.outptr)) =
    some (0#32, 1#32, 1#32) := by decide +kernel

/-- The tail is [-1, -2]; OUTQ is [1, 2] (R312's example). -/
theorem test_olaProc_block :
    after .olaProc (both engine3Full two) (fun t => (t.result, t.ola.incnt, t.ola.outptr, t.ola.outq, t.ola.tail)) =
    some (one, 0#32, 1#32, [one, two], [minusOne, 0xC0000000#32]) := by decide +kernel

theorem test_olaApply : after .olaApply signalState (fun t => (t.ramWords .olaSigout 7, t.result, t.ola.incnt, t.ola.outptr)) =
    some ([one, two, two, two, two, 0xC0800000#32, 0xC0A00000#32], 7#32, 0#32, 1#32) := by decide +kernel

theorem test_olaApply_refuses_length : after .olaApply (both engine3 65537#32) (fun t => (t.err, t.errInfo, t.result)) =
    some (0x40#32, 0x226#32, 0#32) := by decide +kernel

theorem test_olaRst : after .olaRst (both engine3Full two) (fun t => (t.ola, t.result)) = some (engine3, 0#32) := by decide +kernel

theorem test_olsCfg : after .olsCfg (kernelState 4#32 3#32) (fun t => (t.ols.n, t.ols.k, t.ols.h, t.result, t.ola.cfg)) =
    some (4#32, 3#32, 2#32, 4#32, false) := by decide +kernel

theorem test_olsCfg_refuses_size : after .olsCfg (kernelState 5000#32 3#32) (fun t => (t.err, t.errInfo, t.ols.cfg)) =
    some (2#32, 0x31#32, false) := by decide +kernel

theorem test_olsProc_partial : after .olsProc (both engine3 one) (fun t => (t.result, t.ols.incnt, t.ols.outptr)) =
    some (0#32, 1#32, 1#32) := by decide +kernel

/-- OLS carries the inputs [1, 2]; OUTQ is [1, 2] (R342's example). -/
theorem test_olsProc_block :
    after .olsProc (both engine3Full two) (fun t => (t.result, t.ols.incnt, t.ols.outptr, t.ols.outq, t.ols.tail)) =
    some (one, 0#32, 1#32, [one, two], [one, two]) := by decide +kernel

theorem test_olsApply : after .olsApply signalState (fun t => (t.ramWords .olsSigout 7, t.result, t.ols.incnt, t.ols.outptr)) =
    some ([one, two, two, two, two, 0xC0800000#32, 0xC0A00000#32], 7#32, 0#32, 1#32) := by decide +kernel

/-- L = 0 writes K-1 zeros and RESULT = K-1 (R287). -/
theorem test_olsApply_empty : after .olsApply (both engine3 0#32) (fun t => (t.mem, t.result)) = some ([], 2#32) := by
  decide +kernel

theorem test_olsRst : after .olsRst (both { engine3 with tail := [one, two], incnt := 1#32, outptr := 2#32 } one)
    (fun t => (t.ols.tail, t.ols.incnt, t.ols.outptr)) = some ([0#32, 0#32], 0#32, 0#32) := by decide +kernel

/-- 95_test_vectors.md 4.2: K = 7 > H = 2, where the old tail outlives a block (R290). -/
theorem test_long_kernel :
    ((ConvEngine.configured 8 7 [one, two, three, four, five, 0x40C00000#32, 0x40E00000#32]).apply .overlapAdd
      [one, minusOne, two, 0x3F000000#32, three]).2.take 5 =
    [0x3F800000#32, 0x3F800002#32, 0x403FFFFC#32, 0x40AFFFFE#32, 0x412FFFFE#32] := by decide +kernel

/-! ### phase_vocoder_resynth (95_test_vectors.md 5) -/

/-- The periodic Hann window of length 8 (95_test_vectors.md 5.1). -/
def hann8 : List Word :=
  [0#32, 0x3E15F61A#32, 0x3F000000#32, 0x3F5A827A#32, 0x3F800000#32, 0x3F5A827A#32, 0x3F000000#32, 0x3E15F61A#32]

/-- PV_WIN = Hann8, with ARG0 to ARG2. -/
def windowState (n h shift : Word) : State :=
  { State.reset with arg0 := n, arg1 := h, arg2 := shift, mem := Memory.writeWords [] Ram.pvWin.base hann8 }

/-- The vocoder after PV.CFG 8, 2, 1.0. -/
def vocoder8 : PvUnit := PvUnit.reset.configured 8 2 one hann8

/-- A state with that vocoder, `incnt` samples into the hop, ARG0 = 3.0. -/
def vocoderState (incnt : Word) : State :=
  { State.reset with pv := { vocoder8 with incnt := incnt, outptr := incnt }, arg0 := three }

theorem test_pvCfg : after .pvCfg (windowState 8#32 2#32 one)
    (fun t => (t.pv.wsq, t.pv.gain, t.pv.omega, t.result, t.pv.wet)) =
    some (0x40400000#32, 0x3F2AAAAB#32, 0x3FC90FDB#32, 8#32, one) := by decide +kernel

/-- H = N is InvalidHopSize, a NaN shift InvalidParam (R374). -/
theorem test_pvCfg_refuses :
    after .pvCfg (windowState 8#32 8#32 one) (fun t => (t.err, t.errInfo)) = some (8#32, 0x43#32) ∧
    after .pvCfg (windowState 8#32 2#32 0x7FC00000#32) (fun t => (t.err, t.errInfo)) = some (0x80#32, 0x47#32) := by
  decide +kernel

/-- Between frames the output is the mix of OUTQ and the oldest sample: here 2.0 * 1.0 + 0.5 * 4.0 = 4.0 (R385, R386). -/
theorem test_pvProc_mix :
    after .pvProc
      { State.reset with
        pv := { vocoder8 with outq := [one, two], wet := two, dry := 0x3F000000#32, dl := [one, four, 0#32, 0#32, 0#32, 0#32,
          0#32, 0#32] }
        arg0 := three }
      (fun t => (t.result, t.pv.incnt, t.pv.outptr, t.pv.dl)) =
    some (four, 1#32, 1#32, [four, 0#32, 0#32, 0#32, 0#32, 0#32, 0#32, three]) := by decide +kernel

theorem test_pvRst :
    after .pvRst { State.reset with pv := { vocoder8 with gain := five, psi := [one, one, one, one, one], incnt := 1#32 } }
      (fun t => t.pv) = some { vocoder8 with gain := five } := by decide +kernel

/-- Worked values of R373. -/
theorem test_wrap : wrapPhase 0x42C80000#32 = 0xBF07ED80#32 ∧ wrapPhase 0xC0490FDB#32 = 0x40490FDB#32 := by decide +kernel

/-- 95_test_vectors.md 5.4: shift 0.5 sends sources 2d and 2d+1 to d. -/
theorem test_destinations : (List.range 5).map (destination 5 0x3F000000#32) = [some 0, some 0, some 1, some 1, some 2] := by
  decide +kernel

/-! ### The twiddle ROM and the packing tables (41_fft_twiddle_rom.md R204, R206; 95_test_vectors.md 2.3) -/

theorem test_rom_worked_entries :
    [1, 2, 256, 512, 768, 1024, 1536, 2047, 2048].map (fun k => (romC k, romS k)) =
    [(0x3F7FFFEC#32, 0x3AC90FD5#32), (0x3F7FFFB1#32, 0x3B490FC6#32), (0x3F6C835E#32, 0x3EC3EF15#32),
     (0x3F3504F3#32, 0x3F3504F3#32), (0x3EC3EF15#32, 0x3F6C835E#32), (0#32, 0x3F800000#32), (0xBF3504F3#32, 0x3F3504F3#32),
     (0xBF7FFFEC#32, 0x3AC90FD5#32), (0xBF800000#32, 0#32)] := by decide +kernel

theorem test_packing_table_8 :
    (packingTable 8).drop 1 =
    [⟨0x3E15F61A#32, 0xBEB504F3#32, 0x3F5A827A#32, 0x3EB504F3#32⟩, ⟨0#32, 0x80000000#32, 0x3F800000#32, 0#32⟩,
     ⟨0x3E15F61A#32, 0x3EB504F3#32, 0x3F5A827A#32, 0xBEB504F3#32⟩] := by decide +kernel

/-! ### Witnesses: for each obligation with hypotheses, a state and operands that meet them -/

/-- The unit configured for N = 4 meets the invariant. -/
theorem fft4_ok : FftUnit.Ok { cfg := true, n := 4#32, pk := packingTable 4 } :=
  ⟨fun h => (by cases h), fun _ => by decide, fun _ => rfl⟩

theorem engine3_ok : engine3.Ok :=
  ConvEngine.configured_ok kernel3 (by decide) (by decide) (by decide)

theorem engine3Full_ok : engine3Full.Ok :=
  have h := engine3_ok.sized rfl
  ⟨fun h => (by cases h), fun _ => ⟨h.size, h.kernel, h.hop⟩, fun _ => engine3_ok.table rfl, fun _ => engine3_ok.spectrum rfl,
   fun _ => ⟨by decide +kernel, by decide +kernel, by decide +kernel, by decide +kernel, .inl rfl⟩⟩

theorem vocoder8_ok : vocoder8.Ok :=
  PvUnit.configured_ok _ (by decide) (by decide) (by decide) (by decide +kernel) (by decide +kernel) rfl

theorem vocoder8Full_ok : PvUnit.Ok { vocoder8 with incnt := 1#32, outptr := 1#32 } :=
  have h := vocoder8_ok.sized rfl
  ⟨fun h => (by cases h),
   fun _ => ⟨h.size, h.hop, h.shiftValid, h.energyValid, h.winlLength, h.energy, h.advance, h.table⟩,
   fun _ => ⟨by decide +kernel, by decide +kernel, by decide +kernel, by decide +kernel, by decide +kernel, by decide +kernel, .inl rfl⟩⟩

/-- A state that differs from reset in its units, its operands, its port and a canonical memory meets the invariant. -/
theorem inv_of_units {s : State} (hm : Memory.wf s.mem) (hr : Memory.inRam s.mem)
    (h : [s.err, s.irqEn, s.errInfo, s.errAddr] = [0#32, 0#32, 0#32, 0#32])
    (hf : s.fft.Ok) (ha : s.ola.Ok) (hs : s.ols.Ok) (hp : s.pv.Ok) : s.Inv := by
  simp only [List.cons.injEq, and_true] at h
  obtain ⟨h1, h2, h3, h4⟩ := h
  exact ⟨hm, hr, by rw [h1]; decide, by rw [h2]; decide, by rw [h3]; decide, by rw [h4]; decide, hf, ha, hs, hp⟩

theorem fftReset_ok : FftUnit.reset.Ok := ⟨fun _ => rfl, fun h => (by cases h), fun h => (by cases h)⟩

theorem fft4_inv : fft4.Inv :=
  inv_of_units (by decide +kernel) (by decide +kernel) rfl fft4_ok ConvEngine.reset_ok ConvEngine.reset_ok PvUnit.reset_ok

theorem engine3_inv (x : Word) : (both engine3 x).Inv :=
  inv_of_units Memory.wf_empty (fun _ h => nomatch h) rfl fftReset_ok engine3_ok engine3_ok PvUnit.reset_ok

theorem engine3Full_inv (x : Word) : (both engine3Full x).Inv :=
  inv_of_units Memory.wf_empty (fun _ h => nomatch h) rfl fftReset_ok engine3Full_ok engine3Full_ok PvUnit.reset_ok

theorem vocoder8_inv : (vocoderState 0#32).Inv :=
  inv_of_units Memory.wf_empty (fun _ h => nomatch h) rfl fftReset_ok ConvEngine.reset_ok ConvEngine.reset_ok vocoder8_ok

theorem vocoder8Full_inv : (vocoderState 1#32).Inv :=
  inv_of_units Memory.wf_empty (fun _ h => nomatch h) rfl fftReset_ok ConvEngine.reset_ok ConvEngine.reset_ok vocoder8Full_ok

theorem witness_UndefinedWordRaisesIllegalCommand :
    (State.reset.withFetchWord 32 0x42).port = cmdWrite 0x42#32 :: [] ∧ (0x42#32 : Word) ∉ definedWords := by decide

theorem witness_StepRunsDecodedCommand :
    (State.reset.withFetchWord 32 0x113).port = cmdWrite 0x113#32 :: [] ∧ decodeWord 0x113#32 = .command (.fftMag true) := by
  decide

theorem witness_IdleStepHoldsState : State.reset.port = [] := rfl

/-- A state whose next event is the 32-bit access. -/
def accessState (w : AccessWidth) (addr : Addr) (k : AccessKind) : State :=
  { State.reset with port := [.access { width := w, addr := addr, kind := k }] }

/-- Nothing lies at 0x106004, the first address past RE (R111). -/
theorem not_mapped_past_re : ¬ Mapped (0x106004#23 : Addr).toNat := by
  rintro (⟨r, h⟩ | ⟨r, i, hi, h⟩)
  · cases r <;> simp [Reg.addr] at h
  · cases r <;> simp [Ram.words, Ram.wordAddr, Ram.base, Config.nMax, Config.lMax, Config.log2NMax, Config.log2LMax] at hi h <;> omega

theorem witness_BadAccess_width :
    NextAccess (accessState .bits64 0x100000#23 .read) .bits64 0x100000#23 .read [] ∧ AccessWidth.bits64 ≠ .bits32 := by
  exact ⟨rfl, by decide⟩

theorem witness_BadAccess_misaligned :
    NextAccess (accessState .bits32 0x000002#23 .read) .bits32 0x000002#23 .read [] ∧ (0x000002#23 : Addr).toNat % 4 ≠ 0 :=
  ⟨rfl, by decide⟩

theorem witness_BadAccess_unmapped :
    NextAccess (accessState .bits32 0x106004#23 (.write one)) .bits32 0x106004#23 (.write one) [] ∧
    ¬ Mapped (0x106004#23 : Addr).toNat := ⟨rfl, not_mapped_past_re⟩

theorem witness_HostRead_register :
    NextAccess (accessState .bits32 0x000424#23 .read) .bits32 0x000424#23 .read [] ∧ Reg.pvDry.addr = (0x000424#23 : Addr).toNat :=
  ⟨rfl, rfl⟩

/-- The last word of OLA_SIGOUT (R111). -/
theorem witness_HostRead_ram :
    NextAccess (accessState .bits32 0x2C3FF8#23 .read) .bits32 0x2C3FF8#23 .read [] ∧ 69630 < Ram.olaSigout.words ∧
    Ram.olaSigout.wordAddr 69630 = (0x2C3FF8#23 : Addr).toNat := ⟨rfl, by decide, rfl⟩

/-- The last word of RE and the first of X. -/
theorem witness_RamWriteReadsBack :
    (NextAccess (accessState .bits32 0x106000#23 (.write one)) .bits32 0x106000#23 (.write one) [] ∧ 2048 < Ram.re.words ∧
      Ram.re.wordAddr 2048 = (0x106000#23 : Addr).toNat) ∧
    (NextAccess (accessState .bits32 0x100000#23 (.write one)) .bits32 0x100000#23 (.write one) [] ∧ 0 < Ram.x.words ∧
      Ram.x.wordAddr 0 = (0x100000#23 : Addr).toNat) := ⟨⟨rfl, by decide, rfl⟩, ⟨rfl, by decide, rfl⟩⟩

theorem witness_ErrIsWriteOneToClear :
    NextAccess (accessState .bits32 0x000024#23 (.write 0x1FE#32)) .bits32 0x000024#23 (.write 0x1FE#32) [] := rfl

/-- Each clause of WritableRegistersStore has a state whose next event is its write. -/
theorem witness_WritableRegistersStore : ∀ a ∈ [0x000014#23, 0x000018#23, 0x00001C#23, 0x000034#23, 0x00041C#23, 0x000420#23, 0x000424#23],
    NextAccess (accessState .bits32 a (.write one)) .bits32 a (.write one) [] := fun _ _ => rfl

theorem witness_ReadOnly_write :
    Reg.pvWsq ∈ [Reg.result, .pvWsq] ∧
    NextAccess (accessState .bits32 0x000418#23 (.write 7#32)) .bits32 0x000418#23 (.write 7#32) [] ∧
    Reg.pvWsq.addr = (0x000418#23 : Addr).toNat := ⟨by decide, rfl, rfl⟩

theorem witness_ReadOnly_cmd : NextAccess (accessState .bits32 0x000010#23 .read) .bits32 0x000010#23 .read [] := rfl

theorem witness_ReadOnly_read :
    NextAccess (accessState .bits32 0x000024#23 .read) .bits32 0x000024#23 .read [] ∧ Reg.err.addr = (0x000024#23 : Addr).toNat :=
  ⟨rfl, rfl⟩

theorem witness_GstatusBits :
    NextAccess (accessState .bits32 0x00000C#23 (.write one)) .bits32 0x00000C#23 (.write one) [] := rfl

theorem witness_ResetSetsEveryValue : ({ fft4 with port := [.hardReset] } : State).port = .hardReset :: [] := rfl

/-- One command of each unit on an unconfigured unit, and a CFG command that runs. -/
theorem witness_UnconfiguredUnitRefuses :
    needsConfig State.reset (.fftPwr true) = some false ∧ needsConfig State.reset .olaApply = some false ∧
    needsConfig State.reset .olsRst = some false ∧ needsConfig State.reset .pvProc = some false ∧
    Instr.pvCfg ∈ [Instr.fftCfg, .olaCfg, .olsCfg, .pvCfg] ∧
    exec .pvCfg State.reset = .next (recorded State.reset 1 .pvCfg) := by
  refine ⟨rfl, rfl, rfl, rfl, by decide, rfl⟩

/-- A run that meets the hypotheses of the statements about `exec i s = .next t` for every command but SRST. -/
theorem witness_exec_next :
    exec .fftFwd fft4 = .next (fftForward fft4) ∧ Instr.fftFwd ≠ .srst ∧ fft4.Inv ∧
    Instr.fftFwd ∈ [Instr.nop, .fftFwd, .fftInv, .fftMag false, .fftMag true, .fftPwr false, .fftPwr true, .olaRst, .olsRst, .pvRst] :=
  ⟨rfl, by decide, fft4_inv, by decide⟩

/-- A failing PROC: not SRST, and the error record is not the one before. -/
theorem witness_ResultIsWritten_failure :
    exec .olaProc State.reset = .next (recorded State.reset 4 .olaProc) ∧ Instr.olaProc ≠ .srst ∧
    ¬ SameRecord State.reset (recorded State.reset 4 .olaProc) :=
  ⟨rfl, by decide, fun h => absurd h.1 (by decide)⟩

theorem witness_ResultIsWritten_srst : exec .srst fft4 = .next fft4.softReset := rfl

/-- PackingTableFacts at its ends: an entry of the smallest and of the largest table. -/
theorem witness_PackingTableFacts : 0 < 2 ^ 1 / 2 ∧ 2047 < 2 ^ 12 / 2 := by decide

theorem witness_RoundingIsToNearestEven : 0 < 3 ∧ roundMag (2 ^ 149) 3 < infMag ∧ 0x3EAAAAAB < infMag := by decide +kernel

/-- Sums, differences and quotients that are rounded: 1 + 2, 2 - 1, 1 / 2. -/
theorem witness_Operations_binary :
    isFinite one = true ∧ isFinite two = true ∧ fValue one + fValue two ≠ 0 ∧ fValue two - fValue one ≠ 0 ∧ fUnits two ≠ 0 := by
  decide +kernel

/-- Roots and truncations: the least subnormal and the greatest finite word. -/
theorem witness_Operations_unary :
    isFinite 0x00000001#32 = true ∧ fSign 0x00000001#32 = false ∧ fUnits 0x00000001#32 ≠ 0 ∧
    isFinite 0x7F7FFFFF#32 = true ∧ fSign 0x7F7FFFFF#32 = false ∧ fUnits 0x7F7FFFFF#32 ≠ 0 := by decide +kernel

theorem witness_Operations_pack : 0x7F7FFFFF < 2 ^ 31 ∧ 0x7F7FFFFF < infMag := by decide

theorem witness_NanIsCanonical :
    isNaN (fadd 0x7F800000#32 0xFF800000#32) = true ∧ isNaN (fsqrt minusOne) = true ∧ isNaN (fceil 0xFFC00001#32) = true := by
  decide +kernel

/-- The clauses on infinities: one of each sign, a finite word that is zero and one that is not. -/
theorem witness_Infinities :
    isInf 0x7F800000#32 = true ∧ isInf 0xFF800000#32 = true ∧ fSign 0x7F800000#32 = false ∧ fSign 0xFF800000#32 = true ∧
    isFinite one = true ∧ isZero one = false ∧ isFinite 0x80000000#32 = true ∧ isZero 0x80000000#32 = true := by decide

/-- Zero sums and differences: (+0) + (+0), (-0) + (-0), 1 + (-1), 1 - 1 and (-0) - (+0). -/
theorem witness_ZeroSums :
    fValue 0x00000000#32 + fValue 0x00000000#32 = 0 ∧ fValue 0x80000000#32 + fValue 0x80000000#32 = 0 ∧
    fValue one + fValue minusOne = 0 ∧ fValue one - fValue one = 0 ∧ fValue 0x80000000#32 - fValue 0x00000000#32 = 0 := by
  decide +kernel

/-- The smallest and the largest size, and ARG0 values beside them. -/
theorem witness_FftCfg :
    (∃ e, 1 ≤ e ∧ e ≤ 12 ∧ (2#32 : Word).toNat = 2 ^ e) ∧ (∃ e, 1 ≤ e ∧ e ≤ 12 ∧ (4096#32 : Word).toNat = 2 ^ e) ∧
    (¬ ∃ e, 1 ≤ e ∧ e ≤ 12 ∧ (1#32 : Word).toNat = 2 ^ e) ∧ (¬ ∃ e, 1 ≤ e ∧ e ≤ 12 ∧ (8192#32 : Word).toNat = 2 ^ e) := by
  refine ⟨⟨1, by decide⟩, ⟨12, by decide⟩, ?_, ?_⟩ <;>
  · rw [← validSize_iff]; decide

/-- Of size 8 with its own table, bin 1 is an inner bin and has its entry. -/
theorem witness_InnerBins : 1 ≤ 3 ∧ 3 ≤ 12 ∧ 1 < 2 ^ (3 - 1) ∧
    (packingTable 8)[1]? = some ⟨0x3E15F61A#32, 0xBEB504F3#32, 0x3F5A827A#32, 0x3EB504F3#32⟩ := by decide +kernel

/-- Two spectra of size 4 that differ in the imaginary parts of bins 0 and 2 only. -/
theorem witness_InverseIgnoresEndImaginaries :
    validSize 4 = true ∧
    (⟨[one, one, one], [five, two, five]⟩ : Spectrum).re = (⟨[one, one, one], [0#32, two, 0#32]⟩ : Spectrum).re ∧
    ∀ k, 1 ≤ k → k < 4 / 2 → at0 [five, two, five] k = at0 [0#32, two, 0#32] k := by
  refine ⟨by decide, rfl, fun k h1 h2 => ?_⟩
  obtain rfl : k = 1 := by omega
  rfl

/-- FFT.FWD, FFT.INV, FFT.MAG and FFT.PWR of a configured and of an unconfigured unit. -/
theorem witness_FftCommands : fft4.Inv ∧ fft4.fft.cfg = true ∧ State.reset.fft.cfg = false := ⟨fft4_inv, rfl, rfl⟩

/-- ARG0 = 0, 4096 and 4097: the least power of two is 2, 4096 and 8192. -/
theorem witness_ConvCfg_sizes :
    (max 0 2 ≤ 2 ^ 1 ∧ ∀ m, max 0 2 ≤ 2 ^ m → 1 ≤ m) ∧ (max 4096 2 ≤ 2 ^ 12 ∧ ∀ m, max 4096 2 ≤ 2 ^ m → 12 ≤ m) ∧
    (max 4097 2 ≤ 2 ^ 13 ∧ ∀ m, max 4097 2 ≤ 2 ^ m → 13 ≤ m) := by
  refine ⟨⟨by decide, fun m h => ?_⟩, ⟨by decide, fun m h => ?_⟩, ⟨by decide, fun m h => ?_⟩⟩ <;>
  · rcases Nat.lt_or_ge m 13 with hm | hm
    · interval_cases m <;> simp at h ⊢
    · omega

/-- The clauses on K for N = 4: K = 0 and 5 are refused, 1 and 4 are the ends of the legal range. -/
theorem witness_ConvCfg_kernel :
    (kernelState 4#32 0#32).arg1.toNat = 0 ∧ 2 ^ 2 < (kernelState 4#32 5#32).arg1.toNat ∧
    1 ≤ (kernelState 4#32 1#32).arg1.toNat ∧ (kernelState 4#32 4#32).arg1.toNat ≤ 2 ^ 2 := by decide

/-- All hypotheses of a successful CFG together: Nreq = 3, K = 4, so N = 4 = K. -/
theorem witness_ConvCfgBuildsEngine :
    2 ≤ 12 ∧ max (kernelState 3#32 4#32).arg0.toNat 2 ≤ 2 ^ 2 ∧ (∀ m, max (kernelState 3#32 4#32).arg0.toNat 2 ≤ 2 ^ m → 2 ≤ m) ∧
    1 ≤ (kernelState 3#32 4#32).arg1.toNat ∧ (kernelState 3#32 4#32).arg1.toNat ≤ 2 ^ 2 := by
  refine ⟨by decide, by decide, fun m h => ?_, by decide, by decide⟩
  have h3 : max (kernelState 3#32 4#32).arg0.toNat 2 = 3 := by decide
  rw [h3] at h
  match m with
  | 0 => exact absurd h (by decide)
  | 1 => exact absurd h (by decide)
  | m + 2 => omega

/-- Not the last sample of the hop. -/
theorem witness_ProcBuffersSample (g : Strategy) :
    (both engine3 one).Inv ∧ ((both engine3 one).engine g).cfg = true ∧
    ((both engine3 one).engine g).incnt.toNat + 1 < ((both engine3 one).engine g).h.toNat := by
  refine ⟨engine3_inv one, ?_, ?_⟩ <;> cases g <;> decide +kernel

/-- The last sample of the hop, in both engines. -/
theorem witness_ProcRunsBlock (g : Strategy) :
    (both engine3Full two).Inv ∧ ((both engine3Full two).engine g).cfg = true ∧
    ((both engine3Full two).engine g).incnt.toNat + 1 = ((both engine3Full two).engine g).h.toNat := by
  refine ⟨engine3Full_inv two, ?_, ?_⟩ <;> cases g <;> decide +kernel

/-- L = 0 and L = 65536 run; L = 65537 is refused. -/
theorem witness_Apply (g : Strategy) :
    (both engine3 0#32).Inv ∧ (both engine3 65536#32).Inv ∧ ((both engine3 0#32).engine g).cfg = true ∧
    (both engine3 0#32).arg0.toNat ≤ 65536 ∧ (both engine3 65536#32).arg0.toNat ≤ 65536 ∧
    65536 < (both engine3 65537#32).arg0.toNat := by
  refine ⟨engine3_inv _, engine3_inv _, ?_, by decide, by decide, by decide⟩; cases g <;> rfl

theorem witness_ConvRst (g : Strategy) :
    ((both engine3Full two).engine g).cfg = true ∧ (State.reset.engine g).cfg = false := by cases g <;> exact ⟨rfl, rfl⟩

theorem witness_SilenceBeforeFirstBlock : engine3.Sized ∧ [five].length ≤ engine3.h.toNat - 1 :=
  ⟨engine3_ok.sized rfl, by decide +kernel⟩

theorem witness_OneBlockPerHop :
    engine3.Sized ∧ engine3.Streaming ∧ engine3.incnt = 0#32 ∧ [one, two].length = engine3.h.toNat :=
  ⟨engine3_ok.sized rfl, engine3_ok.streaming rfl, rfl, by decide +kernel⟩

theorem witness_SingleTapStrategiesAgree :
    (ConvEngine.configured 4 1 [two]).Sized ∧ (ConvEngine.configured 4 1 [two]).Streaming ∧
    (ConvEngine.configured 4 1 [two]).k = 1#32 :=
  have h := ConvEngine.configured_ok (n := 4) (k := 1) [two] (by decide) (by decide) (by decide)
  ⟨h.sized rfl, h.streaming rfl, rfl⟩

/-- The window energy of a state, as PV.CFG's statements write it. -/
def energyOf (s : State) : Word :=
  ((List.range s.arg0.toNat).map (fun i => Memory.word s.mem (Ram.pvWin.wordAddr i))).foldl
    (fun acc x => fadd acc (fmul x x)) 0#32

/-- The four refusals of PV.CFG: N = 12; H = 0 and H = N; shift -1.0; a window of zeros. -/
theorem witness_PvCfgRefuses :
    (¬ ∃ e, 1 ≤ e ∧ e ≤ 12 ∧ (12#32 : Word).toNat = 2 ^ e) ∧ (∃ e, 1 ≤ e ∧ e ≤ 12 ∧ (8#32 : Word).toNat = 2 ^ e) ∧
    (¬ (1 ≤ (0#32 : Word).toNat ∧ (0#32 : Word).toNat < 8)) ∧ (¬ (1 ≤ (8#32 : Word).toNat ∧ (8#32 : Word).toNat < 8)) ∧
    (1 ≤ (2#32 : Word).toNat ∧ (2#32 : Word).toNat < 8) ∧
    (¬ (isFinite minusOne = true ∧ (fSign minusOne = false ∨ minusOne = 0x80000000#32))) ∧
    (isFinite 0x80000000#32 = true ∧ (fSign 0x80000000#32 = false ∨ (0x80000000#32 : Word) = 0x80000000#32)) ∧
    (¬ (isFinite (energyOf { State.reset with arg0 := 8#32 }) = true ∧ flt 0#32 (energyOf { State.reset with arg0 := 8#32 }) = true)) := by
  refine ⟨?_, ⟨3, by decide⟩, by decide, by decide, by decide, by decide, by decide, by decide +kernel⟩
  rw [← validSize_iff]; decide

theorem witness_PvCfgBuildsVocoder :
    (∃ e, 1 ≤ e ∧ e ≤ 12 ∧ (windowState 8#32 7#32 one).arg0.toNat = 2 ^ e) ∧ 1 ≤ (windowState 8#32 7#32 one).arg1.toNat ∧
    (windowState 8#32 7#32 one).arg1.toNat < (windowState 8#32 7#32 one).arg0.toNat ∧
    isFinite (windowState 8#32 7#32 one).arg2 = true ∧ fSign (windowState 8#32 7#32 one).arg2 = false ∧
    isFinite (energyOf (windowState 8#32 7#32 one)) = true ∧ flt 0#32 (energyOf (windowState 8#32 7#32 one)) = true :=
  ⟨⟨3, by decide⟩, by decide, by decide, by decide, by decide, by decide +kernel, by decide +kernel⟩

theorem witness_PvProcBetweenFrames :
    (vocoderState 0#32).Inv ∧ (vocoderState 0#32).pv.cfg = true ∧
    (vocoderState 0#32).pv.incnt.toNat + 1 < (vocoderState 0#32).pv.h.toNat := ⟨vocoder8_inv, rfl, by decide +kernel⟩

theorem witness_PvProcRunsFrame :
    (vocoderState 1#32).Inv ∧ (vocoderState 1#32).pv.cfg = true ∧
    (vocoderState 1#32).pv.incnt.toNat + 1 = (vocoderState 1#32).pv.h.toNat := ⟨vocoder8Full_inv, rfl, by decide +kernel⟩

theorem witness_PvRstClearsStream : (vocoderState 1#32).pv.cfg = true ∧ State.reset.pv.cfg = false := ⟨rfl, rfl⟩

theorem witness_Stretch : [(⟨one, one, two⟩ : BinAnalysis), ⟨one, one, two⟩].length = 2 ∧ 1 < 2 := by decide

/-- The sizes of StretchDestinations, a shift, and a source with a destination. -/
theorem witness_StretchDestinations :
    validSize 2 = true ∧ validSize 4096 = true ∧ validShift two = true ∧ 2 < 8 / 2 + 1 ∧ destination (8 / 2 + 1) two 2 = some 4 := by
  decide +kernel

theorem witness_OpenFunctions :
    isNaN (fAtan2 0#32 one) = false ∧ isFinite one = true ∧ isFinite 0x7F800000#32 = false := by
  refine ⟨?_, by decide, by decide⟩
  have hb (x : Word) (h : within fPi x = true) : isNaN x = false := by
    have : fMag fPi = 0x40490FDB := by decide
    simp only [within, this, decide_eq_true_eq] at h
    have hi : infMag = 0x7F800000 := by decide
    unfold isNaN
    rw [hi]
    simp only [decide_eq_false_iff_not]
    omega
  have h0 : (isNaN 0#32 || isNaN one) = false := by decide
  simp only [fAtan2, h0, Bool.false_eq_true, if_false]
  split
  · exact hb _ ‹_›
  · decide

theorem witness_PowerOnSatisfiesInvariant :
    Memory.wf [(0x100000, 1#8), (0x403FFF, 0x80#8)] ∧ Memory.inRam [(0x100000, 1#8), (0x403FFF, 0x80#8)] := by decide

theorem witness_StepKeepsInvariant :
    ({ fft4 with port := [cmdWrite 0x12#32] } : State).Inv ∧
    step { fft4 with port := [cmdWrite 0x12#32] } = .next (fftInverse ({ fft4 with resp := .written })) :=
  ⟨inv_of_units fft4_inv.memCanonical fft4_inv.memInRam rfl fft4_ok ConvEngine.reset_ok ConvEngine.reset_ok PvUnit.reset_ok, rfl⟩

theorem witness_RewritingWords : Memory.wf fft4.mem := fft4_inv.memCanonical

/-- Two canonical memories, one written over the other's byte, that read alike at every address. -/
theorem witness_RewritingWords_reads :
    Memory.wf [(0x100000, 1#8)] ∧ Memory.wf (Memory.write [(0x100000, 2#8)] 0x100000 [1#8]) ∧
    ∀ a, Memory.byte [(0x100000, 1#8)] a = Memory.byte (Memory.write [(0x100000, 2#8)] 0x100000 [1#8]) a := by
  have h : Memory.write [(0x100000, 2#8)] 0x100000 [1#8] = [(0x100000, 1#8)] := by decide
  rw [h]; exact ⟨by decide, by decide, fun _ => rfl⟩

/-! The digest of the ROM (R204).  SHA-256 over plain numbers: a state of eight words, a window of sixteen schedule words and the
sixty-four round constants are one number each, the first word in the top bits.  The constants are computed from what defines
them, the fractional parts of the roots of the first primes. -/

/-- Evaluate a number before it is used. -/
def force (n : Nat) (f : Nat → Nat) : Nat :=
  match n with
  | 0 => f 0
  | k + 1 => f (k + 1)

/-- The primes below 312, of which there are 64. -/
def primes : List Nat := (List.range' 2 310).filter (fun p => (List.range' 2 (p - 2)).all (fun d => p % d != 0))

/-- The integer part of a cube root from the top bit down: `r` is the root so far, `2 ^ i` the next bit tried. -/
def cubeRoot (n : Nat) : Nat → Nat → Nat
  | 0, r => r
  | i + 1, r => cubeRoot n i (if (r + 2 ^ i) ^ 3 ≤ n then r + 2 ^ i else r)

/-- Words side by side, the first in the top bits. -/
def joined (ws : List Nat) : Nat := ws.foldl (fun acc w => acc * 2 ^ 32 + w % 2 ^ 32) 0

/-- The first 32 bits of the fractional parts of the cube roots of the first 64 primes. -/
def roundConstants : Nat := joined (primes.map (fun p => cubeRoot (p * 2 ^ 96) 35 0))

/-- The first 32 bits of the fractional parts of the square roots of the first 8 primes. -/
def initialDigest : Nat := joined ((primes.take 8).map (fun p => isqrt (p * 2 ^ 64)))

def low (x : Nat) : Nat := Nat.land x 0xFFFFFFFF

def rotr (x n : Nat) : Nat := Nat.lor (Nat.shiftRight x n) (low (Nat.shiftLeft x (Nat.sub 32 n)))

def xor3 (x y z : Nat) : Nat := Nat.xor (Nat.xor x y) z

/-- The word at a bit offset of a number. -/
def wordAt (v i : Nat) : Nat := low (Nat.shiftRight v i)

/-- The next schedule word from a window of sixteen. -/
def schedule (win : Nat) : Nat :=
  force (wordAt win 448) fun x => force (wordAt win 32) fun y =>
  low (Nat.add (Nat.add (wordAt win 480) (wordAt win 192))
    (Nat.add (xor3 (rotr x 7) (rotr x 18) (Nat.shiftRight x 3)) (xor3 (rotr y 17) (rotr y 19) (Nat.shiftRight y 10))))

/-- One round on the state, with its schedule word and its constant. -/
def shaRound (st w k : Nat) : Nat :=
  force (wordAt st 96) fun e => force (wordAt st 224) fun a =>
  force (wordAt st 64) fun f => force (wordAt st 192) fun b => force (wordAt st 160) fun c =>
  force (Nat.add (Nat.add (wordAt st 0) (xor3 (rotr e 6) (rotr e 11) (rotr e 25)))
    (Nat.add (Nat.xor (Nat.land e f) (Nat.land (Nat.sub 0xFFFFFFFF e) (wordAt st 32))) (Nat.add k w))) fun t1 =>
  let t2 := Nat.add (xor3 (rotr a 2) (rotr a 13) (rotr a 22)) (xor3 (Nat.land a b) (Nat.land a c) (Nat.land b c))
  Nat.add
    (Nat.add (Nat.shiftLeft (low (Nat.add t1 t2)) 224) (Nat.shiftLeft (Nat.shiftRight st 160) 128))
    (Nat.add (Nat.shiftLeft (low (Nat.add (wordAt st 128) t1)) 96) (Nat.land (Nat.shiftRight st 32) 0xFFFFFFFFFFFFFFFFFFFFFFFF))

/-- The rounds left to run: the constant of the next one lies `rounds - 1` words above the last. -/
def shaRounds (ks : Nat) : Nat → Nat → Nat → Nat
  | 0, st, _ => st
  | i + 1, st, win =>
    force st fun st => force win fun win =>
      shaRounds ks i (shaRound st (Nat.shiftRight win 480) (wordAt ks (Nat.mul 32 i)))
        (Nat.add (Nat.mod (Nat.shiftLeft win 32) (2 ^ 512)) (schedule win))

def addWords : Nat → Nat → Nat → Nat
  | 0, _, _ => 0
  | i + 1, x, y => addWords i x y + low (Nat.add (wordAt x (32 * i)) (wordAt y (32 * i))) <<< (32 * i)

def shaBlock (ks st win : Nat) : Nat := force st fun st => force (shaRounds ks 64 st win) fun r => addWords 8 st r

def swapBytes (v : Nat) : Nat := v % 2^8 * 2^24 + v / 2^8 % 2^8 * 2^16 + v / 2^16 % 2^8 * 2^8 + v / 2^24 % 2^8

/-- Word `i` of the padded message: the C words and the S words as little-endian bytes (R204), the end mark and the length. -/
def romMessage (i : Nat) : Nat :=
  if i < 2049 then swapBytes (romC i).toNat
  else if i < 4098 then swapBytes (romS (i - 2049)).toNat
  else if i = 4098 then 0x80000000 else if i = 4111 then 131136 else 0

def blockWords (b : Nat) : Nat → Nat
  | 0 => 0
  | i + 1 => force (blockWords b i) fun v => v * 2 ^ 32 + romMessage (16 * b + i)

/-- The digest after the first blocks of the message. -/
def romDigest (ks : Nat) : Nat → Nat
  | 0 => initialDigest
  | b + 1 => shaBlock ks (romDigest ks b) (blockWords b 16)

/-- The digest R204 states of the 2049 C words and the 2049 S words. -/
theorem test_rom_digest :
    force roundConstants (fun ks => romDigest ks 257) =
      0xe69b0100eab7239f199887ea51786b6d5db63e1cee66f19bf396878a36999559 := by decide +kernel

end Sys2Proof.Tests
end

section
/-! PROOFS. What a binary32 magnitude encoding stands for, and rounding to nearest, ties to even (spec 00_scope.md R15, R18). -/

namespace Sys2Proof.Machine

/-! ### Magnitudes in units of 2^-149 -/

/-- The units of the magnitude encoding `m`, for encodings of any size: `fUnits` of a word of that magnitude, continued past
infinity so that rounding can be reasoned about before it overflows. -/
def magUnits (m : Nat) : Nat :=
  if m / 2 ^ 23 = 0 then m % 2 ^ 23 else (2 ^ 23 + m % 2 ^ 23) * 2 ^ (m / 2 ^ 23 - 1)

theorem fUnits_eq_magUnits (x : Word) : fUnits x = magUnits (fMag x) := by
  unfold fUnits magUnits fExp
  rw [fFrac_eq]

theorem fUnits_packWord (neg : Bool) {m : Nat} (h : m < 2 ^ 31) : fUnits (packWord neg m) = magUnits m := by
  rw [fUnits_eq_magUnits, packWord_mag neg m h]

@[simp] theorem magUnits_zero : magUnits 0 = 0 := rfl

/-- In the binade `k` the significand `q` counts steps of `2 ^ k` units; `q = 2 ^ 24` is the first encoding of the next binade. -/
theorem magUnits_binade {k q : Nat} (hq : q ≤ 2 ^ 24) (hk : k = 0 ∨ 2 ^ 23 ≤ q) : magUnits (k * 2 ^ 23 + q) = q * 2 ^ k := by
  unfold magUnits
  rcases Nat.lt_or_ge q (2 ^ 23) with hsub | hnorm
  · obtain rfl : k = 0 := by omega
    rw [if_pos (by omega)]
    omega
  rw [if_neg (by omega)]
  rcases Nat.lt_or_eq_of_le hq with hlt | rfl
  · have hexp : (k * 2 ^ 23 + q) / 2 ^ 23 - 1 = k := by omega
    have hsig : 2 ^ 23 + (k * 2 ^ 23 + q) % 2 ^ 23 = q := by omega
    rw [hexp, hsig]
  · have hexp : (k * 2 ^ 23 + 2 ^ 24) / 2 ^ 23 - 1 = k + 1 := by omega
    have hsig : 2 ^ 23 + (k * 2 ^ 23 + 2 ^ 24) % 2 ^ 23 = 2 ^ 23 := by omega
    rw [hexp, hsig, Nat.pow_succ]
    omega

theorem exists_binade (m : Nat) : ∃ k q, q < 2 ^ 24 ∧ (k = 0 ∨ 2 ^ 23 ≤ q) ∧ m = k * 2 ^ 23 + q :=
  ⟨m / 2 ^ 23 - 1, m - (m / 2 ^ 23 - 1) * 2 ^ 23, by omega, by omega, by omega⟩

theorem magUnits_strictMono : StrictMono magUnits := by
  refine strictMono_nat_of_lt_succ fun m => ?_
  obtain ⟨k, q, hq, hk, rfl⟩ := exists_binade m
  rw [Nat.add_assoc, magUnits_binade (by omega) hk, magUnits_binade (by omega) (by omega)]
  exact Nat.mul_lt_mul_of_pos_right (Nat.lt_succ_self q) (Nat.two_pow_pos k)

/-- A magnitude has at most 24 significant bits: from `2 ^ (24 + j)` units on it is a multiple of `2 ^ j`. -/
theorem magUnits_lt_or_dvd (m j : Nat) : magUnits m < 2 ^ (24 + j) ∨ 2 ^ j ∣ magUnits m := by
  obtain ⟨k, q, hq, hk, rfl⟩ := exists_binade m
  rw [magUnits_binade (by omega) hk]
  rcases Nat.le_total j k with hjk | hkj
  · exact .inr (Dvd.dvd.mul_left (Nat.pow_dvd_pow 2 hjk) q)
  · left
    calc q * 2 ^ k ≤ q * 2 ^ j := Nat.mul_le_mul_left q (Nat.pow_le_pow_right (by decide) hkj)
      _ < 2 ^ 24 * 2 ^ j := Nat.mul_lt_mul_of_pos_right hq (Nat.two_pow_pos j)
      _ = 2 ^ (24 + j) := (Nat.pow_add 2 24 j).symm

/-- Every significand of at most 24 bits, times `2 ^ k`, is the units of some encoding. -/
theorem exists_magUnits_eq {f : Nat} (hf : f ≤ 2 ^ 24) (k : Nat) : ∃ m, m ≤ k * 2 ^ 23 + 2 ^ 24 ∧ magUnits m = f * 2 ^ k := by
  induction k generalizing f with
  | zero =>
    have hunits : magUnits (0 * 2 ^ 23 + f) = f * 2 ^ 0 := magUnits_binade hf (.inl rfl)
    rw [Nat.zero_mul, Nat.zero_add] at hunits
    exact ⟨f, Nat.le_trans hf (Nat.le_add_left ..), hunits⟩
  | succ k ih =>
    rcases Nat.lt_or_ge f (2 ^ 23) with hsub | hnorm
    · obtain ⟨m, hm, hunits⟩ := ih (f := 2 * f) (by omega)
      refine ⟨m, hm.trans (by gcongr; exact Nat.le_succ k), ?_⟩
      rw [hunits]
      ring
    · exact ⟨(k + 1) * 2 ^ 23 + f, by omega, magUnits_binade hf (.inr hnorm)⟩

/-! ### Rounding to nearest, ties to even -/

/-- `m` is the encoding nearest to `num / den` units, the even one at a tie, among encodings of any size. -/
def NearestEven (num den m : Nat) : Prop :=
  ∀ m', Int.natAbs (((magUnits m * den : Nat) : Int) - num) ≤ Int.natAbs (((magUnits m' * den : Nat) : Int) - num) ∧
    (Int.natAbs (((magUnits m * den : Nat) : Int) - num) = Int.natAbs (((magUnits m' * den : Nat) : Int) - num) →
      m' = m ∨ m % 2 = 0)

/-- Between two neighbouring encodings the nearer one, or the even one at the midpoint, is nearest among all: the units are
strictly increasing, so every other encoding lies beyond one of the two. -/
theorem nearestEven_of_between {num den lo d r : Nat} (hden : 0 < den) (hlo : num = magUnits lo * den + r)
    (hhi : magUnits (lo + 1) * den = magUnits lo * den + d) (hr : r < d) (up : Prop) [Decidable up]
    (hup : up ↔ d < 2 * r ∨ 2 * r = d ∧ lo % 2 = 1) : NearestEven num den (if up then lo + 1 else lo) := by
  intro m'
  have hside : (m' ≤ lo ∧ magUnits m' * den ≤ magUnits lo * den) ∨ (lo < m' ∧ magUnits (lo + 1) * den ≤ magUnits m' * den) := by
    rcases Nat.lt_or_ge lo m' with h | h
    · exact .inr ⟨h, Nat.mul_le_mul_right den (magUnits_strictMono.monotone h)⟩
    · exact .inl ⟨h, Nat.mul_le_mul_right den (magUnits_strictMono.monotone h)⟩
  have hinj : ∀ l, magUnits m' * den = magUnits l * den → m' = l := fun l h =>
    magUnits_strictMono.injective (Nat.eq_of_mul_eq_mul_right hden h)
  have hinjLo := hinj lo
  have hinjHi := hinj (lo + 1)
  split
  · rename_i h
    rw [hup] at h
    omega
  · rename_i h
    rw [hup] at h
    omega

/-- Rounding gives the nearest encoding, cut off at infinity (R15). -/
theorem roundMag_eq_min_nearestEven (num : Nat) {den : Nat} (hden : 0 < den) :
    ∃ m, NearestEven num den m ∧ roundMag num den = min infMag m := by
  let k := Nat.log2 (num / den) - 23
  let d := den * 2 ^ k
  let q := num / d
  let r := num % d
  have hd : 0 < d := Nat.mul_pos hden (Nat.two_pow_pos k)
  have hqdiv : q = num / den / 2 ^ k := (Nat.div_div_eq_div_mul ..).symm
  have hq : q < 2 ^ 24 := by
    rw [hqdiv, Nat.div_lt_iff_lt_mul (Nat.two_pow_pos k), ← Nat.pow_add]
    exact Nat.lt_of_lt_of_le Nat.lt_log2_self (Nat.pow_le_pow_right (by decide) (by omega))
  have hk : k = 0 ∨ 2 ^ 23 ≤ q := by
    refine or_iff_not_imp_left.mpr fun hk0 => ?_
    have hpos : num / den ≠ 0 := fun h => hk0 (by simp [k, h])
    rw [hqdiv, Nat.le_div_iff_mul_le (Nat.two_pow_pos k), ← Nat.pow_add]
    exact Nat.le_trans (Nat.pow_le_pow_right (by decide) (by omega)) (Nat.log2_self_le hpos)
  have hlo : magUnits (k * 2 ^ 23 + q) * den = d * q := by
    rw [magUnits_binade hq.le hk]; ring
  have hhi : magUnits (k * 2 ^ 23 + q + 1) * den = d * q + d := by
    rw [Nat.add_assoc, magUnits_binade (Nat.succ_le_of_lt hq) (by omega), Nat.succ_eq_add_one]; ring
  refine ⟨_, nearestEven_of_between (lo := k * 2 ^ 23 + q) (d := d) (r := r) hden ?_ ?_ (Nat.mod_lt _ hd)
    ((decide (d < 2 * r) || (2 * r == d && q % 2 == 1)) = true) ?_, ?_⟩
  · rw [hlo]; exact (Nat.div_add_mod num d).symm
  · rw [hlo, hhi]
  · simp; omega
  · have hbits (up : Bool) : k * 2 ^ 23 + (if up then q + 1 else q) = if up then k * 2 ^ 23 + q + 1 else k * 2 ^ 23 + q := by
      split
      · exact (Nat.add_assoc ..).symm
      · rfl
    rw [← hbits, min_def]
    rfl
/-- What is an encoding's magnitude exactly has that encoding as its nearest. -/
theorem NearestEven.eq_of_exact {num den m m' : Nat} (h : NearestEven num den m) (hden : 0 < den)
    (hexact : num = magUnits m' * den) : m = m' := by
  have hle := (h m').1
  have hunits : magUnits m * den = magUnits m' * den := by omega
  exact magUnits_strictMono.injective (Nat.eq_of_mul_eq_mul_right hden hunits)

/-- Infinity's encoding would stand for 2^128. -/
theorem magUnits_infMag : magUnits infMag = 2 ^ 25 * 2 ^ 252 := by
  have h := magUnits_binade (k := 253) (q := 2 ^ 24) le_rfl (.inr (by decide))
  rw [show infMag = 253 * 2 ^ 23 + 2 ^ 24 from rfl, h, Nat.pow_succ 2 252]
  ring

/-- The largest finite magnitude is one step of its binade, 2^253 units, below. -/
theorem magUnits_maxFinite : magUnits (infMag - 1) = (2 ^ 25 - 2) * 2 ^ 252 := by
  have h := magUnits_binade (k := 253) (q := 2 ^ 24 - 1) (by decide) (.inr (by decide))
  rw [show infMag - 1 = 253 * 2 ^ 23 + (2 ^ 24 - 1) from rfl, h, Nat.pow_succ 2 252]
  ring

/-- Rounding reaches infinity exactly from the midpoint of the largest finite magnitude and 2^128 on (R15): at the midpoint the
largest finite encoding, which is odd, loses the tie. -/
theorem NearestEven.infMag_le_iff {num den m : Nat} (h : NearestEven num den m) (hden : 0 < den) :
    infMag ≤ m ↔ (2 ^ 25 - 1) * 2 ^ 252 * den ≤ num := by
  obtain ⟨step, hstep⟩ : ∃ step, step = 2 ^ 252 * den := ⟨_, rfl⟩
  have hpos : 0 < step := hstep ▸ Nat.mul_pos (Nat.two_pow_pos _) hden
  have hInf : magUnits infMag * den = 2 ^ 25 * step := by rw [magUnits_infMag, Nat.mul_assoc, hstep]
  have hMax : magUnits (infMag - 1) * den = (2 ^ 25 - 2) * step := by rw [magUnits_maxFinite, Nat.mul_assoc, hstep]
  have hmono {l l' : Nat} (hl : l ≤ l') : magUnits l * den ≤ magUnits l' * den :=
    Nat.mul_le_mul_right den (magUnits_strictMono.monotone hl)
  have hnear := h infMag
  have hnear' := h (infMag - 1)
  rw [Nat.mul_assoc, ← hstep]
  rcases Nat.lt_trichotomy m (infMag - 1) with hlt | rfl | hgt
  · have hunits : magUnits m * den < magUnits (infMag - 1) * den :=
      Nat.mul_lt_mul_of_pos_right (magUnits_strictMono hlt) hden
    omega
  · have hodd : (infMag - 1) % 2 = 1 := rfl
    have hne : infMag ≠ infMag - 1 := by decide
    omega
  · have hunits : magUnits infMag * den ≤ magUnits m * den := hmono (by omega)
    omega

/-- A magnitude below the overflow threshold is rounded to the nearest encoding. -/
theorem roundMag_nearestEven {num den : Nat} (hden : 0 < den) (hfin : roundMag num den < infMag) :
    NearestEven num den (roundMag num den) := by
  obtain ⟨m, hm, hround⟩ := roundMag_eq_min_nearestEven num hden
  obtain rfl : roundMag num den = m := by omega
  exact hm

theorem roundMag_eq_infMag_iff (num : Nat) {den : Nat} (hden : 0 < den) :
    roundMag num den = infMag ↔ (2 ^ 25 - 1) * 2 ^ 252 * den ≤ num := by
  obtain ⟨m, hm, hround⟩ := roundMag_eq_min_nearestEven num hden
  rw [hround, ← hm.infMag_le_iff hden, min_eq_left_iff]

/-- A finite magnitude is its own rounding. -/
theorem roundMag_magUnits {m : Nat} (h : m < infMag) : roundMag (magUnits m) 1 = m := by
  obtain ⟨m', hm', hround⟩ := roundMag_eq_min_nearestEven (magUnits m) Nat.one_pos
  rw [hround, hm'.eq_of_exact Nat.one_pos (Nat.mul_one _).symm]
  exact min_eq_right h.le

/-- Settles O26. Rounding picks the nearer of two neighbouring encodings (`nearestEven_of_between`); the threshold is the midpoint of
the largest finite magnitude and the next one. -/
theorem roundingIsToNearestEven : Obligations.RoundingIsToNearestEven := by
  intro num den hden
  refine ⟨roundMag_eq_infMag_iff num hden, fun hfin m hm => ?_⟩
  have hunits {l : Nat} (hl : l < infMag) : fUnits (packWord false l) = magUnits l :=
    fUnits_packWord false (hl.trans (by decide))
  rw [hunits hfin, hunits hm]
  exact roundMag_nearestEven hden hfin m

end Sys2Proof.Machine
end

section
/-! PROOFS. Every binary32 operation on finite words is its exact result rounded once (spec 00_scope.md R15, R18). -/

namespace Sys2Proof.Machine

/-! ### Finite words and their parts -/

theorem isFinite_iff {x : Word} : isFinite x = true ↔ fMag x < infMag := by simp [isFinite]
theorem isInf_iff {x : Word} : isInf x = true ↔ fMag x = infMag := by simp [isInf]
theorem isZero_iff {x : Word} : isZero x = true ↔ fMag x = 0 := by simp [isZero]

theorem isNaN_eq_false_iff {x : Word} : isNaN x = false ↔ fMag x ≤ infMag := by simp [isNaN]
theorem isInf_eq_false_iff {x : Word} : isInf x = false ↔ fMag x ≠ infMag := by simp [isInf]
theorem isZero_eq_false_iff {x : Word} : isZero x = false ↔ fMag x ≠ 0 := by simp [isZero]

theorem isNaN_of_isFinite {x : Word} (h : isFinite x = true) : isNaN x = false :=
  isNaN_eq_false_iff.mpr (isFinite_iff.mp h).le

theorem isInf_of_isFinite {x : Word} (h : isFinite x = true) : isInf x = false :=
  isInf_eq_false_iff.mpr (isFinite_iff.mp h).ne

theorem isNaN_of_isInf {x : Word} (h : isInf x = true) : isNaN x = false :=
  isNaN_eq_false_iff.mpr (isInf_iff.mp h).le

theorem isFinite_of_isZero {x : Word} (h : isZero x = true) : isFinite x = true :=
  isFinite_iff.mpr (isZero_iff.mp h ▸ by decide)

theorem isZero_of_isInf {x : Word} (h : isInf x = true) : isZero x = false :=
  isZero_eq_false_iff.mpr (isInf_iff.mp h ▸ by decide)

theorem isNaN_fNeg (x : Word) : isNaN (fNeg x) = isNaN x := by unfold isNaN; rw [fNeg_mag]
theorem isInf_fNeg (x : Word) : isInf (fNeg x) = isInf x := by unfold isInf; rw [fNeg_mag]
theorem isFinite_fNeg (x : Word) : isFinite (fNeg x) = isFinite x := by unfold isFinite; rw [fNeg_mag]

theorem fUnits_eq_zero_iff (x : Word) : fUnits x = 0 ↔ isZero x = true := by
  rw [fUnits_eq_magUnits, isZero_iff]
  exact magUnits_strictMono.injective.eq_iff' magUnits_zero

theorem fSign_eq_getLsbD (x : Word) : fSign x = x.getLsbD 31 := by
  unfold fSign
  rw [BitVec.getLsbD, Nat.testBit_eq_decide_div_mod_eq, decide_eq_decide]
  have := x.isLt
  omega

theorem fExp_eq (x : Word) : fExp x = x.toNat / 2 ^ 23 % 2 ^ 8 := by
  unfold fExp fMag
  omega

theorem isFinite_iff_fExp (x : Word) : isFinite x = true ↔ fExp x ≠ 255 := by
  rw [isFinite_iff]
  have := fMag_lt x
  unfold fExp infMag
  omega

theorem fValue_fNeg (x : Word) : fValue (fNeg x) = -fValue x := by
  unfold fValue
  rw [fNeg_sign, fUnits_eq_magUnits, fUnits_eq_magUnits, fNeg_mag]
  cases fSign x <;> simp

/-- The order of the encodings is the order of the values. -/
theorem fKey_lt_fKey_iff (a b : Word) : fKey a < fKey b ↔ fValue a < fValue b := by
  unfold fKey fValue
  have hlt := magUnits_strictMono.lt_iff_lt (a := fMag a) (b := fMag b)
  have hgt := magUnits_strictMono.lt_iff_lt (a := fMag b) (b := fMag a)
  have ha := (fUnits_eq_zero_iff a).trans isZero_iff
  have hb := (fUnits_eq_zero_iff b).trans isZero_iff
  rw [← fUnits_eq_magUnits, ← fUnits_eq_magUnits] at hlt hgt
  cases fSign a <;> cases fSign b <;> simp only [Bool.false_eq_true, if_true, if_false] <;> omega

/-! ### Sum, difference, product, quotient and order of finite words -/

theorem fadd_finite {a b : Word} (ha : isFinite a = true) (hb : isFinite b = true) :
    fadd a b = if fValue a + fValue b = 0 then packWord (fSign a && fSign b) 0
      else packWord (decide (fValue a + fValue b < 0)) (roundMag (fValue a + fValue b).natAbs 1) := by
  simp [fadd, isNaN_of_isFinite, isInf_of_isFinite, ha, hb]

theorem fsub_finite {a b : Word} (ha : isFinite a = true) (hb : isFinite b = true) :
    fsub a b = if fValue a - fValue b = 0 then packWord (fSign a && !fSign b) 0
      else packWord (decide (fValue a - fValue b < 0)) (roundMag (fValue a - fValue b).natAbs 1) := by
  unfold fsub
  rw [fadd_finite ha (by rwa [isFinite_fNeg]), fValue_fNeg, fNeg_sign, Int.sub_eq_add_neg]

theorem fmul_finite {a b : Word} (ha : isFinite a = true) (hb : isFinite b = true) :
    fmul a b = packWord (fSign a != fSign b) (roundMag (fUnits a * fUnits b) (2 ^ 149)) := by
  simp [fmul, isNaN_of_isFinite, isInf_of_isFinite, ha, hb]

theorem fdiv_finite {a b : Word} (ha : isFinite a = true) (hb : isFinite b = true) (h0 : isZero b = false) :
    fdiv a b = packWord (fSign a != fSign b) (roundMag (fUnits a * 2 ^ 149) (fUnits b)) := by
  simp [fdiv, isNaN_of_isFinite, isInf_of_isFinite, ha, hb, h0]

theorem flt_iff {a b : Word} (ha : isNaN a = false) (hb : isNaN b = false) : flt a b = true ↔ fKey a < fKey b := by
  simp [flt, ha, hb]

/-! ### The square root -/

/-- The search keeps the root between `r` and `r + 2 ^ i`. -/
theorem isqrtFrom_bounds {n i r : Nat} (hlo : r * r ≤ n) (hhi : n < (r + 2 ^ i) * (r + 2 ^ i)) :
    isqrtFrom n i r * isqrtFrom n i r ≤ n ∧ n < (isqrtFrom n i r + 1) * (isqrtFrom n i r + 1) := by
  induction i generalizing r with
  | zero => exact ⟨hlo, hhi⟩
  | succ i ih =>
    unfold isqrtFrom
    split
    · rename_i hle
      exact ih hle (by rwa [Nat.pow_succ, Nat.mul_two, ← Nat.add_assoc] at hhi)
    · rename_i hgt
      exact ih hlo (Nat.lt_of_not_le hgt)

theorem isqrt_bounds (n : Nat) : isqrt n * isqrt n ≤ n ∧ n < (isqrt n + 1) * (isqrt n + 1) := by
  refine isqrtFrom_bounds (Nat.zero_le _) ?_
  rw [Nat.zero_add, ← Nat.pow_add]
  exact Nat.lt_of_lt_of_le Nat.lt_log2_self (Nat.pow_le_pow_right (by decide) (by omega))

/-- The half units `fsqrt` rounds: twice the exact root, or the odd number between the doubled roots around it. -/
def rootHalfUnits (n : Nat) : Nat := if isqrt n * isqrt n = n then 2 * isqrt n else 2 * isqrt n + 1

theorem fsqrt_finite {a : Word} (ha : isFinite a = true) (hsign : fSign a = false) (h0 : isZero a = false) :
    fsqrt a = packWord false (roundMag (rootHalfUnits (fUnits a * 2 ^ 149)) 2) := by
  simp [fsqrt, isNaN_of_isFinite, isInf_of_isFinite, ha, hsign, h0, rootHalfUnits]

/-- Even half units are the exact root; odd ones stand strictly between, with the root, two neighbouring even numbers. -/
theorem rootHalfUnits_spec (n : Nat) :
    rootHalfUnits n ^ 2 = 4 * n ∨
    rootHalfUnits n % 2 = 1 ∧ (rootHalfUnits n - 1) ^ 2 < 4 * n ∧ 4 * n < (rootHalfUnits n + 1) ^ 2 := by
  obtain ⟨hlo, hhi⟩ := isqrt_bounds n
  unfold rootHalfUnits
  split
  · rename_i hexact
    left
    linarith
  · rename_i hinexact
    have hlt := Nat.lt_of_le_of_ne hlo hinexact
    refine .inr ⟨by omega, ?_, ?_⟩
    · rw [Nat.add_sub_cancel]
      linarith
    · linarith

theorem rootHalfUnits_bounds (n : Nat) : 2 * isqrt n ≤ rootHalfUnits n ∧ rootHalfUnits n ≤ 2 * isqrt n + 1 := by
  unfold rootHalfUnits
  split <;> omega

/-- A number on one side of the half units is on the same side of the root, and only the exact root is twice the root. -/
theorem rootHalfUnits_compare {n t : Nat} (heven : t = rootHalfUnits n → t % 2 = 0) :
    (rootHalfUnits n ≤ t → 4 * n ≤ t ^ 2) ∧ (t ≤ rootHalfUnits n → t ^ 2 ≤ 4 * n) ∧
    (t ^ 2 = 4 * n → t = rootHalfUnits n) := by
  rcases rootHalfUnits_spec n with hexact | ⟨hodd, hlo, hhi⟩
  · rw [← hexact]
    exact ⟨fun h => Nat.pow_le_pow_left h 2, fun h => Nat.pow_le_pow_left h 2, fun h => Nat.pow_left_injective (by decide) h⟩
  · have hne : t ≠ rootHalfUnits n := by omega
    refine ⟨fun h => ?_, fun h => ?_, fun h => ?_⟩
    · exact hhi.le.trans (Nat.pow_le_pow_left (by omega) 2)
    · exact (Nat.pow_le_pow_left (by omega) 2).trans hlo.le
    · rw [← h] at hlo hhi
      have := lt_of_pow_lt_pow_left₀ 2 (Nat.zero_le _) hlo
      have := lt_of_pow_lt_pow_left₀ 2 (Nat.zero_le _) hhi
      omega

theorem le_rootHalfUnits {n : Nat} (h : 2 ^ 148 ≤ n) : 2 ^ 75 ≤ rootHalfUnits n := by
  obtain ⟨-, hhi⟩ := isqrt_bounds n
  have hroot : 2 ^ 74 < isqrt n + 1 := by
    by_contra hle
    have := Nat.mul_self_le_mul_self (Nat.le_of_not_lt hle)
    omega
  have := rootHalfUnits_bounds n
  omega

/-- The midpoint of a rounded magnitude and another encoding equally near is even when the number rounded is large: both have 24
significant bits at most, so both are even. -/
theorem NearestEven.midpoint_even {s m m' : Nat} (h : NearestEven s 2 m) (hs : 2 ^ 75 ≤ s)
    (hmid : magUnits m + magUnits m' = s) : s % 2 = 0 := by
  obtain ⟨c, -, hc⟩ := exists_magUnits_eq (f := 1) (by decide) 74
  have hnear := (h c).1
  have hm := magUnits_lt_or_dvd m 1
  have hm' := magUnits_lt_or_dvd m' 1
  omega

/-- The rounding of the half units is the magnitude nearest to the root of `n`. -/
theorem roundMag_rootHalfUnits_nearest {n : Nat} (hn : 2 ^ 148 ≤ n) (hfin : roundMag (rootHalfUnits n) 2 < infMag) (m : Nat) :
    let u := magUnits (roundMag (rootHalfUnits n) 2)
    let w := magUnits m
    (u < w → 4 * n ≤ (u + w) ^ 2) ∧ (w < u → (u + w) ^ 2 ≤ 4 * n) ∧
    (u ≠ w → (u + w) ^ 2 = 4 * n → roundMag (rootHalfUnits n) 2 % 2 = 0) := by
  intro u w
  have hnear := roundMag_nearestEven (by decide) hfin
  obtain ⟨habove, hbelow, htie⟩ := rootHalfUnits_compare (n := n) (t := u + w) fun hmid =>
    hmid ▸ hnear.midpoint_even (le_rootHalfUnits hn) hmid
  obtain ⟨hle, heven⟩ := hnear m
  refine ⟨fun h => habove (by omega), fun h => hbelow (by omega), fun hne hsq => ?_⟩
  have hmid := htie hsq
  exact (heven (by omega)).resolve_left fun hm => hne (congrArg magUnits hm.symm)

theorem fUnits_lt {a : Word} (ha : isFinite a = true) : fUnits a < 2 ^ 25 * 2 ^ 252 := by
  rw [fUnits_eq_magUnits, ← magUnits_infMag]
  exact magUnits_strictMono (isFinite_iff.mp ha)

theorem roundMag_rootHalfUnits_lt {a : Word} (ha : isFinite a = true) :
    roundMag (rootHalfUnits (fUnits a * 2 ^ 149)) 2 < infMag := by
  refine Nat.lt_of_le_of_ne (roundMag_le _ _) fun hinf => ?_
  rw [roundMag_eq_infMag_iff _ (by decide)] at hinf
  obtain ⟨hlo, -⟩ := isqrt_bounds (fUnits a * 2 ^ 149)
  have hle := (rootHalfUnits_bounds (fUnits a * 2 ^ 149)).2
  have hroot : 2 ^ 250 ≤ isqrt (fUnits a * 2 ^ 149) := by omega
  have hsq := Nat.mul_self_le_mul_self hroot
  have hunits := fUnits_lt ha
  omega

/-! ### The ceiling -/

/-- Rounding an integral magnitude next to a finite word's is exact: either it is that word's, or it has at most 24 bits. -/
theorem magUnits_roundMag_integral {a : Word} {f : Nat} (ha : isFinite a = true)
    (hsame : 2 ^ 149 ∣ fUnits a → f * 2 ^ 149 = fUnits a) (hsmall : fUnits a < 2 ^ (24 + 149) → f ≤ 2 ^ 24) :
    roundMag (f * 2 ^ 149) 1 < infMag ∧ magUnits (roundMag (f * 2 ^ 149) 1) = f * 2 ^ 149 := by
  rw [fUnits_eq_magUnits] at hsame hsmall
  obtain ⟨l, hl, hunits⟩ : ∃ l, l < infMag ∧ magUnits l = f * 2 ^ 149 := by
    rcases magUnits_lt_or_dvd (fMag a) 149 with hlt | hdvd
    · obtain ⟨l, hl, hunits⟩ := exists_magUnits_eq (hsmall hlt) 149
      exact ⟨l, hl.trans_lt (by decide), hunits⟩
    · exact ⟨fMag a, isFinite_iff.mp ha, (hsame hdvd).symm⟩
  rw [← hunits, roundMag_magUnits hl]
  exact ⟨hl, rfl⟩

theorem fValue_packWord (neg : Bool) {m : Nat} (h : m < 2 ^ 31) :
    fValue (packWord neg m) = if neg then -(magUnits m : Int) else (magUnits m : Int) := by
  unfold fValue
  rw [packWord_sign neg m h, fUnits_packWord neg h]

/-- The magnitude of a finite word's ceiling, an integer: the word's magnitude rounded down below zero, up above. -/
def ceilWhole (a : Word) : Nat := if fSign a then fUnits a / 2 ^ 149 else (fUnits a + (2 ^ 149 - 1)) / 2 ^ 149

theorem fceil_finite {a : Word} (ha : isFinite a = true) : fceil a = packWord (fSign a) (roundMag (ceilWhole a * 2 ^ 149) 1) := by
  unfold fceil ceilWhole
  cases fSign a <;> simp [isNaN_of_isFinite, isInf_of_isFinite, ha]

theorem roundMag_ceilWhole {a : Word} (ha : isFinite a = true) :
    roundMag (ceilWhole a * 2 ^ 149) 1 < infMag ∧ magUnits (roundMag (ceilWhole a * 2 ^ 149) 1) = ceilWhole a * 2 ^ 149 := by
  refine magUnits_roundMag_integral ha (fun hdvd => ?_) fun hlt => ?_
  · unfold ceilWhole
    split <;> omega
  · unfold ceilWhole
    split <;> omega

theorem fceil_spec {a : Word} (ha : isFinite a = true) :
    isFinite (fceil a) = true ∧ fSign (fceil a) = fSign a ∧ (2 : Int) ^ 149 ∣ fValue (fceil a) ∧
    fValue a ≤ fValue (fceil a) ∧ fValue (fceil a) < fValue a + 2 ^ 149 := by
  obtain ⟨hfin, hunits⟩ := roundMag_ceilWhole ha
  have hmag := roundMag_lt (ceilWhole a * 2 ^ 149) 1
  rw [fceil_finite ha, isFinite_iff, packWord_mag _ _ hmag, packWord_sign _ _ hmag, fValue_packWord _ hmag, hunits]
  refine ⟨hfin, rfl, ?_⟩
  unfold fValue ceilWhole
  cases fSign a <;> simp only [Bool.false_eq_true, if_true, if_false] <;> omega

/-- Settles O27, operation by operation; the root's clause is `roundMag_rootHalfUnits_nearest`, the ceiling's `fceil_spec`. -/
theorem operationsRoundTheExactResult : Obligations.OperationsRoundTheExactResult := by
  refine ⟨fun x => ?_, packWord_toNat, fun a b ha hb => ?_, isqrt_bounds, fun a ha hsign h0 => ?_, fun a ha => fceil_spec ha,
    fun _ => rfl, fun _ _ _ => rfl⟩
  · rw [← fExp_eq]
    exact ⟨fSign_eq_getLsbD x, isFinite_iff_fExp x, rfl, rfl⟩
  · refine ⟨fun h => ?_, fun h => ?_, fmul_finite ha hb, fun h => ?_, ?_⟩
    · rw [fadd_finite ha hb, if_neg h]
    · rw [fsub_finite ha hb, if_neg h]
    · exact fdiv_finite ha hb (by rwa [ne_eq, fUnits_eq_zero_iff, Bool.not_eq_true] at h)
    · rw [flt_iff (isNaN_of_isFinite ha) (isNaN_of_isFinite hb), fKey_lt_fKey_iff]
  · have hfin := roundMag_rootHalfUnits_lt ha
    have hmag := roundMag_lt (rootHalfUnits (fUnits a * 2 ^ 149)) 2
    rw [fsqrt_finite ha hsign (by rwa [ne_eq, fUnits_eq_zero_iff, Bool.not_eq_true] at h0), isFinite_iff, packWord_mag _ _ hmag,
      packWord_sign _ _ hmag, fUnits_packWord _ hmag]
    refine ⟨hfin, rfl, fun m hm => ?_⟩
    rw [fUnits_packWord false (hm.trans (by decide))]
    exact roundMag_rootHalfUnits_nearest (by omega) hfin m

end Sys2Proof.Machine
end

section
/-! PROOFS. NaN, the infinities, the divisions by zero and the zero sums of the binary32 operations (spec 00_scope.md R17). -/

namespace Sys2Proof.Machine

theorem isNaN_packWord (neg : Bool) {m : Nat} (h : m ≤ infMag) : isNaN (packWord neg m) = false := by
  rw [isNaN_eq_false_iff, packWord_mag neg m (h.trans_lt (by decide))]
  exact h

@[simp] theorem isNaN_packWord_infMag (neg : Bool) : isNaN (packWord neg infMag) = false := isNaN_packWord neg le_rfl
@[simp] theorem isNaN_packWord_zero (neg : Bool) : isNaN (packWord neg 0) = false := isNaN_packWord neg (Nat.zero_le _)

/-! ### Where a NaN arises -/

/-- The result is the canonical NaN if `p` holds, and no NaN otherwise. -/
structure NanExactly (r : Word) (p : Prop) : Prop where
  canonical : p → r = fNaN
  otherwise : ¬ p → isNaN r = false

theorem NanExactly.isNaN_iff {r : Word} {p : Prop} (h : NanExactly r p) : isNaN r = true ↔ p := by
  refine ⟨fun hr => by_contra fun hp => ?_, fun hp => h.canonical hp ▸ rfl⟩
  simp [h.otherwise hp] at hr

theorem NanExactly.eq_fNaN {r : Word} {p : Prop} (h : NanExactly r p) (hr : isNaN r = true) : r = fNaN :=
  h.canonical (h.isNaN_iff.mp hr)

theorem fadd_nanExactly (a b : Word) :
    NanExactly (fadd a b) (isNaN a = true ∨ isNaN b = true ∨ (isInf a = true ∧ isInf b = true ∧ fSign a ≠ fSign b)) := by
  refine ⟨fun h => ?_, fun h => ?_⟩
  · rcases h with ha | hb | ⟨ha, hb, hsign⟩
    · simp [fadd, ha]
    · simp [fadd, hb]
    · simp [fadd, ha, hb, hsign]
  · obtain ⟨ha, hb, hinf⟩ : isNaN a = false ∧ isNaN b = false ∧ ¬(isInf a = true ∧ isInf b = true ∧ fSign a ≠ fSign b) := by
      simpa using h
    unfold fadd
    simp only [ha, hb, Bool.or_self, Bool.false_eq_true, if_false]
    split
    · rename_i hia
      rw [if_neg (by simpa [hia] using hinf)]
      exact ha
    split
    · exact hb
    split
    · exact isNaN_packWord_zero _
    · exact isNaN_packWord_roundMag ..

theorem fsub_nanExactly (a b : Word) :
    NanExactly (fsub a b) (isNaN a = true ∨ isNaN b = true ∨ (isInf a = true ∧ isInf b = true ∧ fSign a = fSign b)) := by
  have h := fadd_nanExactly a (fNeg b)
  rw [isNaN_fNeg, isInf_fNeg, fNeg_sign, Bool.ne_not] at h
  exact h

theorem fmul_nanExactly (a b : Word) :
    NanExactly (fmul a b)
      (isNaN a = true ∨ isNaN b = true ∨ (isInf a = true ∧ isZero b = true) ∨ (isZero a = true ∧ isInf b = true)) := by
  refine ⟨fun h => ?_, fun h => ?_⟩
  · rcases h with ha | hb | ⟨hinf, h0⟩ | ⟨h0, hinf⟩
    · simp [fmul, ha]
    · simp [fmul, hb]
    · simp [fmul, hinf, h0]
    · simp [fmul, hinf, h0]
  · simp only [not_or, Bool.not_eq_true] at h
    obtain ⟨ha, hb, hinf, hinf'⟩ := h
    unfold fmul
    simp only [ha, hb, Bool.or_self, Bool.false_eq_true, if_false]
    split
    · rename_i hi
      rw [Bool.or_eq_true] at hi
      rw [if_neg]
      · exact isNaN_packWord_infMag _
      rw [Bool.or_eq_true]
      rintro (ha0 | hb0)
      · exact hi.elim (fun hia => by simp [isZero_of_isInf hia] at ha0) fun hib => hinf' ⟨ha0, hib⟩
      · exact hi.elim (fun hia => hinf ⟨hia, hb0⟩) fun hib => by simp [isZero_of_isInf hib] at hb0
    · exact isNaN_packWord_roundMag ..

theorem fdiv_nanExactly (a b : Word) :
    NanExactly (fdiv a b)
      (isNaN a = true ∨ isNaN b = true ∨ (isInf a = true ∧ isInf b = true) ∨ (isZero a = true ∧ isZero b = true)) := by
  refine ⟨fun h => ?_, fun h => ?_⟩
  · rcases h with ha | hb | ⟨ha, hb⟩ | ⟨ha, hb⟩
    · simp [fdiv, ha]
    · simp [fdiv, hb]
    · simp [fdiv, ha, hb]
    · simp [fdiv, ha, hb, isInf_of_isFinite, isFinite_of_isZero]
  · simp only [not_or, Bool.not_eq_true] at h
    obtain ⟨ha, hb, hinf, hzero⟩ := h
    unfold fdiv
    simp only [ha, hb, Bool.or_self, Bool.false_eq_true, if_false]
    split
    · rename_i hia
      rw [if_neg fun hib => hinf ⟨hia, hib⟩]
      exact isNaN_packWord_infMag _
    split
    · exact isNaN_packWord_zero _
    split
    · rename_i hb0
      rw [if_neg fun ha0 => hzero ⟨ha0, hb0⟩]
      exact isNaN_packWord_infMag _
    · exact isNaN_packWord_roundMag ..

theorem fsqrt_nanExactly (a : Word) : NanExactly (fsqrt a) (isNaN a = true ∨ (fSign a = true ∧ isZero a = false)) := by
  refine ⟨fun h => ?_, fun h => ?_⟩
  · rcases h with ha | ⟨hsign, h0⟩
    · simp [fsqrt, ha]
    · simp [fsqrt, hsign, h0]
  · obtain ⟨ha, hsign⟩ : isNaN a = false ∧ (fSign a = true → isZero a = true) := by simpa using h
    unfold fsqrt
    simp only [ha, Bool.false_eq_true, if_false]
    split
    · exact ha
    rename_i h0
    rw [if_neg fun hs => h0 (hsign hs)]
    split
    · exact ha
    · exact isNaN_packWord_roundMag ..

theorem fceil_nanExactly (a : Word) : NanExactly (fceil a) (isNaN a = true) := by
  refine ⟨fun ha => by simp [fceil, ha], fun ha => ?_⟩
  rw [Bool.not_eq_true] at ha
  unfold fceil
  simp only [ha, Bool.false_eq_true, if_false]
  split
  · exact ha
  split
  · exact isNaN_packWord_roundMag ..
  · exact isNaN_packWord_roundMag ..

theorem flt_of_isNaN {a b : Word} (h : isNaN a = true ∨ isNaN b = true) : flt a b = false := by
  rcases h with ha | hb
  · simp [flt, ha]
  · simp [flt, hb]

/-! ### An infinity and a finite word -/

section
variable {a b : Word} (ha : isInf a = true) (hb : isFinite b = true)
include ha hb

theorem fadd_inf_finite : fadd a b = a ∧ fadd b a = a := by
  simp [fadd, ha, isNaN_of_isInf, isNaN_of_isFinite, isInf_of_isFinite, hb]

theorem fsub_inf_finite : fsub a b = a ∧ fsub b a = packWord (!fSign a) infMag := by
  refine ⟨(fadd_inf_finite ha (by rwa [isFinite_fNeg])).1, ?_⟩
  calc fsub b a = fNeg a := (fadd_inf_finite (by rwa [isInf_fNeg]) hb).2
    _ = packWord (!fSign a) infMag := by rw [fNeg, isInf_iff.mp ha]

theorem fdiv_inf_finite : fdiv a b = packWord (fSign a != fSign b) infMag ∧ fdiv b a = packWord (fSign b != fSign a) 0 := by
  simp [fdiv, ha, isNaN_of_isInf, isNaN_of_isFinite, isInf_of_isFinite, hb]

theorem fmul_inf_finite (h0 : isZero b = false) :
    fmul a b = packWord (fSign a != fSign b) infMag ∧ fmul b a = packWord (fSign b != fSign a) infMag := by
  simp [fmul, ha, isNaN_of_isInf, isNaN_of_isFinite, isZero_of_isInf, hb, h0]

theorem flt_inf_finite : flt a b = fSign a ∧ flt b a = !fSign a := by
  have hmag := isInf_iff.mp ha
  have hlt := isFinite_iff.mp hb
  simp only [flt, isNaN_of_isInf ha, isNaN_of_isFinite hb, fKey, hmag]
  cases fSign a <;> cases fSign b <;> simp <;> omega

end

/-! ### Two infinities, divisions by zero, zero sums -/

theorem fadd_inf_inf {a b : Word} (ha : isInf a = true) (hb : isInf b = true) (hsign : fSign a = fSign b) : fadd a b = a := by
  simp [fadd, ha, hb, isNaN_of_isInf, hsign]

theorem fsub_inf_inf {a b : Word} (ha : isInf a = true) (hb : isInf b = true) (hsign : fSign a ≠ fSign b) : fsub a b = a :=
  fadd_inf_inf ha (by rwa [isInf_fNeg]) (by rw [fNeg_sign]; exact Bool.eq_not.mpr hsign)

theorem fmul_inf_inf {a b : Word} (ha : isInf a = true) (hb : isInf b = true) :
    fmul a b = packWord (fSign a != fSign b) infMag := by
  simp [fmul, ha, hb, isNaN_of_isInf, isZero_of_isInf]

theorem flt_inf_inf {a b : Word} (ha : isInf a = true) (hb : isInf b = true) : flt a b = (fSign a && !fSign b) := by
  simp only [flt, isNaN_of_isInf ha, isNaN_of_isInf hb, fKey, isInf_iff.mp ha, isInf_iff.mp hb]
  cases fSign a <;> cases fSign b <;> decide

theorem fdiv_by_zero {a b : Word} (ha : isFinite a = true) (ha0 : isZero a = false) (hb0 : isZero b = true) :
    fdiv a b = packWord (fSign a != fSign b) infMag := by
  have hb := isFinite_of_isZero hb0
  simp [fdiv, isNaN_of_isFinite, isInf_of_isFinite, ha, hb, ha0, hb0]

/-- The zero of a sign, as a word. -/
theorem packWord_zero (neg : Bool) : packWord neg 0 = if neg then 0x80000000#32 else 0x00000000#32 := by
  cases neg <;> rfl

/-- Settles O28: where a NaN arises from the `NanExactly` lemma of each operation, the other clauses operation by operation. -/
theorem nanIsCanonicalAndZeroSumsAreSigned : Obligations.NanIsCanonicalAndZeroSumsAreSigned := by
  refine ⟨fun a b r hr => ?_, fun a b => ?_, fun a b ha hb => ?_, fun a b ha hb => ?_, fun a b => fdiv_by_zero,
    fun a b ha hb => ?_, fun a => ?_⟩
  · simp only [List.mem_cons, List.not_mem_nil, or_false] at hr
    rcases hr with rfl | rfl | rfl | rfl | rfl | rfl
    · exact (fadd_nanExactly a b).eq_fNaN
    · exact (fsub_nanExactly a b).eq_fNaN
    · exact (fmul_nanExactly a b).eq_fNaN
    · exact (fdiv_nanExactly a b).eq_fNaN
    · exact (fsqrt_nanExactly a).eq_fNaN
    · exact (fceil_nanExactly a).eq_fNaN
  · exact ⟨(fadd_nanExactly a b).isNaN_iff, (fsub_nanExactly a b).isNaN_iff, (fmul_nanExactly a b).isNaN_iff,
      (fdiv_nanExactly a b).isNaN_iff, (fsqrt_nanExactly a).isNaN_iff, (fceil_nanExactly a).isNaN_iff, flt_of_isNaN⟩
  · obtain ⟨hadd, hadd'⟩ := fadd_inf_finite ha hb
    obtain ⟨hsub, hsub'⟩ := fsub_inf_finite ha hb
    obtain ⟨hdiv, hdiv'⟩ := fdiv_inf_finite ha hb
    exact ⟨hadd, hadd', hsub, hsub', hdiv, hdiv', fmul_inf_finite ha hb, flt_inf_finite ha hb⟩
  · exact ⟨fadd_inf_inf ha hb, fsub_inf_inf ha hb, fmul_inf_inf ha hb, flt_inf_inf ha hb⟩
  · rw [fadd_finite ha hb, fsub_finite ha hb, ← packWord_zero, ← packWord_zero]
    exact ⟨fun h => if_pos h, fun h => if_pos h⟩
  · refine ⟨fun h0 => ?_, fun hinf hsign => ?_, fun hinf => ?_⟩
    · simp [fsqrt, h0, isNaN_of_isFinite (isFinite_of_isZero h0)]
    · simp [fsqrt, hinf, hsign, isNaN_of_isInf, isZero_of_isInf]
    · simp [fceil, hinf, isNaN_of_isInf]

end Sys2Proof.Machine
end

section
/-! PROOFS. The invariant (spec 10_state.md): what keeps it, from the single updates of the state up to a command. -/

namespace Sys2Proof.Machine

/-! ### The checks of the commands, passed -/

theorem fftCfgFailure_eq_none {s : State} : fftCfgFailure s = none ↔ validSize s.arg0Nat = true := by simp [fftCfgFailure]

theorem fftUnconfigured_eq_none {s : State} : fftUnconfigured s = none ↔ s.fft.cfg = true := by simp [fftUnconfigured]

theorem convUnconfigured_eq_none {g : Strategy} {s : State} : convUnconfigured g s = none ↔ (s.engine g).cfg = true := by
  simp [convUnconfigured]

theorem convApplyFailure_eq_none {g : Strategy} {s : State} :
    convApplyFailure g s = none ↔ (s.engine g).cfg = true ∧ s.arg0Nat ≤ Config.lMax := by
  unfold convApplyFailure
  split <;> simp [*]

theorem pvUnconfigured_eq_none {s : State} : pvUnconfigured s = none ↔ s.pv.cfg = true := by simp [pvUnconfigured]

/-- The rounded size is a power of two from 2 on, so it is legal exactly when it is not above N_MAX (R281). -/
theorem validSize_roundedSize {nreq : Nat} (h : roundedSize nreq ≤ Config.nMax) : validSize (roundedSize nreq) = true := by
  refine (validSize_iff _).mpr ⟨_, Nat.le_add_left .., ?_, rfl⟩
  exact (Nat.pow_le_pow_iff_right (by decide)).mp h

theorem convCfgFailure_eq_none {s : State} :
    convCfgFailure s = none ↔
      roundedSize s.arg0Nat ≤ Config.nMax ∧ 1 ≤ s.arg1Nat ∧ s.arg1Nat ≤ roundedSize s.arg0Nat := by
  have hhop : hopSize (roundedSize s.arg0Nat) s.arg1Nat = roundedSize s.arg0Nat + 1 - s.arg1Nat := rfl
  simp only [convCfgFailure]
  split
  · simp; omega
  split
  · simp; omega
  · rw [if_neg (by omega)]
    simp; omega

theorem pvCfgFailure_eq_none {s : State} :
    pvCfgFailure s = none ↔ validSize s.arg0Nat = true ∧ (1 ≤ s.arg1Nat ∧ s.arg1Nat < s.arg0Nat) ∧ validShift s.arg2 = true ∧
      validEnergy (windowEnergy (s.ramWords .pvWin s.arg0Nat)) = true := by
  simp only [pvCfgFailure]
  split
  · simp_all
  split
  · simp_all; omega
  split
  · simp_all
  split
  · simp_all
  · simp_all; omega

/-! ### Reset -/

theorem FftUnit.reset_ok : FftUnit.reset.Ok := by
  refine ⟨fun _ => rfl, ?_, ?_⟩ <;> intro h <;> cases h

theorem State.powerOn_inv {ram : Memory} (hwf : Memory.wf ram) (hin : Memory.inRam ram) : (State.powerOn ram).Inv where
  memCanonical := hwf
  memInRam := hin
  errReserved := (by decide : 0#32 &&& ~~~errMask = 0#32)
  irqEnReserved := (by decide : 0#32 &&& ~~~errMask = 0#32)
  errInfoFields := (by decide : (0#32).toNat < 2 ^ 12 ∧ (0#32).toNat % 16 ≤ 8)
  errAddrRange := (by decide : (0#32).toNat < 2 ^ 23)
  fft := FftUnit.reset_ok
  ola := ConvEngine.reset_ok
  ols := ConvEngine.reset_ok
  pv := PvUnit.reset_ok

/-- Settles O56: every unit is as reset left it, and the RAMs are the draw. -/
theorem powerOnSatisfiesInvariant : Obligations.PowerOnSatisfiesInvariant :=
  ⟨State.powerOn_inv Memory.wf_empty (by decide), fun _ => State.powerOn_inv⟩

/-! ### One update of the state -/

theorem ErrorCode.toNat_le (c : ErrorCode) : c.toNat ≤ 8 := by cases c <;> decide

theorem ErrorCode.bit_reserved (c : ErrorCode) : c.bit &&& ~~~errMask = 0#32 := by cases c <;> rfl

/-- ERRINFO of a command word holds OP, UNIT and CODE in 12 bits (60_exceptions.md R421). -/
theorem errInfoOf_fields (c : ErrorCode) (v : Word) :
    (errInfoOf c v).toNat < 2 ^ 12 ∧ (errInfoOf c v).toNat % 16 ≤ 8 := by
  have hc := c.toNat_le
  have hunit : fieldUnit v < 16 := Nat.mod_lt _ (by decide)
  have hop : fieldOp v < 16 := Nat.mod_lt _ (by decide)
  simp only [errInfoOf, BitVec.toNat_ofNat]
  omega

namespace State.Inv

variable {s : State}

theorem takeEvent (h : s.Inv) (rest : List HostEvent) : State.Inv { s with port := rest } := { h with }

theorem respond (h : s.Inv) (r : PortResponse) : (s.respond r).Inv := { h with }

theorem setResult (h : s.Inv) (v : Word) : (s.setResult v).Inv := { h with }

theorem setFft (h : s.Inv) {u : FftUnit} (hu : u.Ok) : (s.setFft u).Inv := { h with fft := hu }

theorem setPv (h : s.Inv) {u : PvUnit} (hu : u.Ok) : (s.setPv u).Inv := { h with pv := hu }

theorem setEngine (h : s.Inv) {e : ConvEngine} (he : e.Ok) (g : Strategy) : (s.setEngine e g).Inv := by
  cases g with
  | overlapAdd => exact { h with ola := he }
  | overlapSave => exact { h with ols := he }

theorem engine (h : s.Inv) (g : Strategy) : (s.engine g).Ok := by
  cases g with
  | overlapAdd => exact h.ola
  | overlapSave => exact h.ols

/-- Words written inside a RAM. -/
theorem writeWords (h : s.Inv) (r : Ram) {i : Nat} {ws : List Word} (hle : i + ws.length ≤ r.words) :
    State.Inv { s with mem := Memory.writeWords s.mem (r.wordAddr i) ws } :=
  { h with
    memCanonical := Memory.wf_writeWords h.memCanonical _ _
    memInRam := Memory.inRam_writeWords h.memInRam r (Nat.le_add_right ..) (by unfold Ram.wordAddr; omega) }

theorem setRam (h : s.Inv) {r : Ram} {ws : List Word} (hle : ws.length ≤ r.words) : (s.setRam r ws).Inv :=
  h.writeWords r (i := 0) (by omega)

theorem orErr (h : s.Inv) (c : ErrorCode) : (s.err ||| c.bit) &&& ~~~errMask = 0#32 := by
  rw [BitVec.and_or_distrib_right, h.errReserved, c.bit_reserved, BitVec.or_self]

theorem raise (h : s.Inv) (c : ErrorCode) (v : Word) : (s.raise c v).Inv :=
  { h with
    errReserved := h.orErr c
    errInfoFields := errInfoOf_fields c v }

theorem raiseBusError (h : s.Inv) (a : Addr) : (s.raiseBusError a).Inv :=
  { h with
    errReserved := h.orErr .busError
    errInfoFields := ⟨(by decide : 8 < 2 ^ 12), (by decide : 8 % 16 ≤ 8)⟩
    errAddrRange := by
      show (a.setWidth 32).toNat < 2 ^ 23
      rw [BitVec.toNat_setWidth]
      omega }

theorem softReset (h : s.Inv) : s.softReset.Inv := { State.powerOn_inv h.memCanonical h.memInRam with }

theorem writeReg (h : s.Inv) (v : Word) (r : Reg) : (s.writeReg v r).Inv := by
  cases r with
  | arg0 | arg1 | arg2 => exact { h with }
  | err =>
    refine { h with errReserved := ?_ }
    show s.err &&& ~~~(v &&& errMask) &&& ~~~errMask = 0#32
    rw [BitVec.and_assoc, BitVec.and_comm (~~~_), ← BitVec.and_assoc, h.errReserved, BitVec.zero_and]
  | irqEn =>
    refine { h with irqEnReserved := ?_ }
    show v &&& errMask &&& ~~~errMask = 0#32
    rw [BitVec.and_assoc, BitVec.and_not_self]
    exact BitVec.and_zero
  | pvGain | pvWet | pvDry => exact h.setPv (PvUnit.gains_ok h.pv ..)
  | _ => exact h

/-! ### One command -/

theorem fftSize_bounds (h : s.Inv) (hc : s.fft.cfg = true) : 2 ≤ s.fftSize ∧ s.fftSize ≤ Config.nMax :=
  validSize_bounds (h.fft.size hc)

theorem fftConfigure (h : s.Inv) (hn : validSize s.arg0Nat = true) : (fftConfigure s).Inv :=
  (h.setFft ⟨fun hc => Bool.noConfusion hc, fun _ => hn, fun _ => rfl⟩).setResult _

theorem fftForward (h : s.Inv) (hc : s.fft.cfg = true) : (fftForward s).Inv := by
  obtain ⟨h2, hmax⟩ := h.fftSize_bounds hc
  have hbins : s.fftSize / 2 + 1 ≤ Config.nMax / 2 + 1 := by omega
  have hre : s.fftSpectrum.re.length = s.fftSize / 2 + 1 := rfwd_re_length _ _ _ h2
  have him : s.fftSpectrum.im.length = s.fftSize / 2 + 1 := rfwd_im_length _ _ _ h2
  exact (h.setRam (r := .re) (hre.trans_le hbins)).setRam (him.trans_le hbins)

theorem fftInverse (h : s.Inv) (hc : s.fft.cfg = true) : (fftInverse s).Inv := by
  have hlen : s.fftSamples.length = s.fftSize := rinv_length _ _ _ (h.fft.size hc)
  exact h.setRam (hlen.trans_le (h.fftSize_bounds hc).2)

/-- P is written with one word per bin, whatever the word (R246, R247). -/
theorem fftForward_setP (h : s.Inv) (hc : s.fft.cfg = true) (f : Word → Word → Word) :
    ((Machine.fftForward s).setRam .p (s.fftSpectrum.re.zipWith f s.fftSpectrum.im)).Inv := by
  obtain ⟨h2, hmax⟩ := h.fftSize_bounds hc
  have hre : s.fftSpectrum.re.length = s.fftSize / 2 + 1 := rfwd_re_length _ _ _ h2
  refine (h.fftForward hc).setRam ?_
  rw [List.length_zipWith, hre]
  show min (s.fftSize / 2 + 1) _ ≤ Config.nMax / 2 + 1
  omega

theorem convConfigure (h : s.Inv) (g : Strategy) (hp : convCfgFailure s = none) : (convConfigure g s).Inv := by
  obtain ⟨hmax, h1, h2⟩ := convCfgFailure_eq_none.mp hp
  exact (h.setEngine (ConvEngine.configured_ok _ (validSize_roundedSize hmax) h1 h2) g).setResult _

theorem convProcess (h : s.Inv) (g : Strategy) (hc : (s.engine g).cfg = true) : (convProcess g s).Inv :=
  (h.setEngine (ConvEngine.call_ok g _ (h.engine g) hc) g).setResult _

theorem convApply (h : s.Inv) (g : Strategy) (hc : (s.engine g).cfg = true) (hl : s.arg0Nat ≤ Config.lMax) :
    (convApply g s).Inv := by
  have hk := ((h.engine g).sized hc).bounds
  have hwords : g.sigout.words = Config.lMax + Config.nMax - 1 := by cases g <;> rfl
  have hlen := (s.engine g).apply_length g (s.ramWords g.sigin s.arg0Nat)
  rw [State.ramWords, Memory.words_length] at hlen
  have hmax : Config.nMax = 4096 := rfl
  refine ((h.setEngine (ConvEngine.apply_ok g _ (h.engine g) hc) g).setRam ?_).setResult _
  rw [State.ramWords]
  omega

theorem convRestart (h : s.Inv) (g : Strategy) (hc : (s.engine g).cfg = true) : (convRestart g s).Inv :=
  h.setEngine (ConvEngine.restart_ok (h.engine g) hc) g

theorem pvConfigure (h : s.Inv) (hp : pvCfgFailure s = none) : (pvConfigure s).Inv := by
  obtain ⟨hn, ⟨h1, h2⟩, hshift, henergy⟩ := pvCfgFailure_eq_none.mp hp
  exact (h.setPv (s.pv.configured_ok hn h1 h2 hshift (Memory.words_length ..) henergy)).setResult _

theorem pvProcess (h : s.Inv) (hc : s.pv.cfg = true) : (pvProcess s).Inv := (h.setPv (PvUnit.call_ok _ h.pv hc)).setResult _

theorem pvRestart (h : s.Inv) (hc : s.pv.cfg = true) : (pvRestart s).Inv := h.setPv (PvUnit.restart_ok h.pv hc)

theorem effectOf (h : s.Inv) (i : Instr) (hp : failureOf i s = none) : (effectOf i s).Inv := by
  cases i with
  | nop => exact h
  | srst => exact h.softReset
  | fftCfg => exact h.fftConfigure (fftCfgFailure_eq_none.mp hp)
  | fftFwd => exact h.fftForward (fftUnconfigured_eq_none.mp hp)
  | fftInv => exact h.fftInverse (fftUnconfigured_eq_none.mp hp)
  | fftMag norm | fftPwr norm => exact h.fftForward_setP (fftUnconfigured_eq_none.mp hp) _
  | olaCfg | olsCfg => exact h.convConfigure _ hp
  | olaProc | olsProc => exact h.convProcess _ (convUnconfigured_eq_none.mp hp)
  | olaApply | olsApply =>
    obtain ⟨hc, hl⟩ := convApplyFailure_eq_none.mp hp
    exact h.convApply _ hc hl
  | olaRst | olsRst => exact h.convRestart _ (convUnconfigured_eq_none.mp hp)
  | pvCfg => exact h.pvConfigure hp
  | pvProc => exact h.pvProcess (pvUnconfigured_eq_none.mp hp)
  | pvRst => exact h.pvRestart (pvUnconfigured_eq_none.mp hp)

theorem exec (h : s.Inv) {i : Instr} {t : State} (he : exec i s = .next t) : t.Inv := by
  rcases exec_cases he with ⟨c, -, rfl⟩ | ⟨hp, rfl⟩
  · exact h.raise c _
  · exact h.effectOf i hp

end State.Inv
end Sys2Proof.Machine
end

section
/-! PROOFS. What the address map gives a host access, and that every step keeps the invariant (spec 20_memory.md R103 to R110). -/

namespace Sys2Proof

/-! ### What an address names -/

theorem Reg.find?_addr (r : Reg) : Reg.all.find? (fun r' => r'.addr == r.addr) = some r := by cases r <;> rfl

theorem Reg.addr_aligned (r : Reg) : r.addr % 4 = 0 := by cases r <;> rfl

/-- A register's address names it (R109). -/
theorem target_of_reg {r : Reg} {addr : Addr} (h : r.addr = addr.toNat) : target addr = some (.reg r) := by
  simp only [target, ← h]
  rw [if_pos (Reg.addr_aligned r), Reg.find?_addr]

theorem target?_of_reg {r : Reg} {addr : Addr} (h : r.addr = addr.toNat) (k : AccessKind) :
    HostAccess.target? { width := .bits32, addr := addr, kind := k } = some (.reg r) := target_of_reg h

/-- Only the words a RAM has are named (R109, R111). -/
theorem lt_words_of_target {addr : Addr} {r : Ram} {i : Nat} (h : target addr = some (.ram r i)) : i < r.words := by
  simp only [target] at h
  split at h
  · split at h
    · cases h
    · obtain ⟨r', hfind, heq⟩ := Option.map_eq_some_iff.mp h
      cases heq
      have hholds := List.find?_some hfind
      simp only [Ram.holds, Bool.and_eq_true, decide_eq_true_eq] at hholds
      omega
  · cases h

theorem target_of_target? {a : HostAccess} {t : Target} (h : a.target? = some t) : target a.addr = some t := by
  unfold HostAccess.target? at h
  split at h
  · exact h
  · cases h

end Sys2Proof

namespace Sys2Proof.Machine

/-! ### The next event is an access of a register -/

theorem step_regRead {s : State} {addr : Addr} {rest : List HostEvent} {r : Reg}
    (hport : Statements.NextAccess s .bits32 addr .read rest) (haddr : r.addr = addr.toNat) :
    step s = .next { s with port := rest, resp := .data (s.regValue r) } := by
  rw [step_of_event hport]
  refine (hostAccess_read (target?_of_reg haddr .read) rfl).trans ?_
  cases r <;> rfl

theorem step_hostWrite_reg {s : State} {addr : Addr} {v : Word} {rest : List HostEvent} {r : Reg}
    (hport : Statements.NextAccess s .bits32 addr (.write v) rest) (haddr : r.addr = addr.toNat) :
    step s = State.hostWrite { s with port := rest } (.reg r) v :=
  (step_of_event hport).trans (hostAccess_write (target?_of_reg haddr (.write v)) rfl)

theorem hostWrite_reg {r : Reg} (hr : r ≠ .cmd) (s : State) (v : Word) :
    s.hostWrite (.reg r) v = .next ((s.writeReg v r).respond .written) := by
  cases r with
  | cmd => exact absurd rfl hr
  | _ => rfl

theorem step_regWrite {s : State} {addr : Addr} {v : Word} {rest : List HostEvent} {r : Reg} (hr : r ≠ .cmd)
    (hport : Statements.NextAccess s .bits32 addr (.write v) rest) (haddr : r.addr = addr.toNat) :
    step s = .next ((State.writeReg { s with port := rest } v r).respond .written) := by
  rw [step_hostWrite_reg hport haddr, hostWrite_reg hr]

/-! ### One event keeps the invariant -/

namespace State.Inv

variable {s t : State}

theorem execute (h : s.Inv) {v : Word} (he : s.execute v = .next t) : t.Inv := by
  unfold State.execute at he
  split at he
  · exact h.exec he
  · cases he
    exact h.raise .illegalCommand v

theorem hostRead (h : s.Inv) (a : Target) : (s.hostRead a).Inv := by
  cases a with
  | reg r => exact h.respond _
  | ram r i => exact h.respond _

theorem hostWrite (h : s.Inv) {addr : Addr} {a : Target} {v : Word} (ha : target addr = some a)
    (he : s.hostWrite a v = .next t) : t.Inv := by
  cases a with
  | reg r =>
    by_cases hr : r = .cmd
    · subst hr
      exact (h.respond .written).execute he
    · cases (hostWrite_reg hr s v).symm.trans he
      exact (h.writeReg v r).respond .written
  | ram r i =>
    cases he
    exact (h.writeWords r (lt_words_of_target ha)).respond .written

theorem busFault (h : s.Inv) (a : HostAccess) : (s.busFault a).Inv := by
  unfold State.busFault
  split <;> exact (h.raiseBusError a.addr).respond _

theorem hostAccess (h : s.Inv) {a : HostAccess} (he : s.hostAccess a = .next t) : t.Inv := by
  cases ha : a.target? with
  | none =>
    cases (hostAccess_of_none ha).symm.trans he
    exact h.busFault a
  | some x =>
    cases hk : a.kind with
    | read =>
      cases (hostAccess_read ha hk).symm.trans he
      exact h.hostRead x
    | write v => exact h.hostWrite (target_of_target? ha) ((hostAccess_write ha hk).symm.trans he)

theorem event (h : s.Inv) {e : HostEvent} (he : s.event e = .next t) : t.Inv := by
  cases e with
  | access a => exact h.hostAccess he
  | hardReset =>
    cases he
    exact h.softReset.respond .idle

end State.Inv

theorem step_of_idle {s : State} (h : s.port = []) : step s = .next s := by
  unfold step
  rw [h]

/-- Settles O6: `step` on an empty queue. -/
theorem idleStepHoldsState : Obligations.IdleStepHoldsState := fun _ => step_of_idle

/-- Settles O57, by the event the step takes; a command by `State.Inv.effectOf`, one lemma per command. -/
theorem stepKeepsInvariant : Obligations.StepKeepsInvariant := by
  intro s t h hstep
  cases hport : s.port with
  | nil =>
    cases (step_of_idle hport).symm.trans hstep
    exact h
  | cons e rest => exact (h.takeEvent rest).event ((step_of_event hport).symm.trans hstep)

end Sys2Proof.Machine
end

section
/-! PROOFS. Host accesses of ERR, of GSTATUS and of the read-only registers (spec 10_state.md R45, R47, R67), and what reset leaves
(R70). -/

namespace Sys2Proof.Machine

open Sys2Proof.Statements

theorem errMask_getLsbD (i : Nat) : errMask.getLsbD i = decide (1 ≤ i ∧ i ≤ 8) := by
  rcases Nat.lt_or_ge i 32 with hi | hi
  · have hall : ∀ j < 32, errMask.getLsbD j = decide (1 ≤ j ∧ j ≤ 8) := by decide
    exact hall i hi
  · rw [BitVec.getLsbD_of_ge _ _ hi, eq_comm, decide_eq_false_iff_not]
    omega

/-- Settles O12: the bits written as 1 are masked to bits 1 to 8 (`errMask_getLsbD`) and cleared. -/
theorem errIsWriteOneToClear : Obligations.ErrIsWriteOneToClear := by
  intro s v rest hport
  refine ⟨_, step_regWrite (r := .err) (by decide) hport rfl, rfl, fun i hi => ?_⟩
  show (s.err &&& ~~~(v &&& errMask)).getLsbD i = _
  simp only [BitVec.getLsbD_and, BitVec.getLsbD_not, errMask_getLsbD, hi, decide_true, Bool.true_and]

/-- The registers R67 makes read-only, CMD aside. -/
def readOnlyRegs : List Reg :=
  [.id, .version, .caps, .gstatus, .result, .errInfo, .errCmd, .errAddr, .fftStat, .fftN,
   .olaStat, .olaN, .olaK, .olaH, .olaIncnt, .olaOutptr, .olsStat, .olsN, .olsK, .olsH, .olsIncnt, .olsOutptr,
   .pvStat, .pvN, .pvH, .pvShift, .pvIncnt, .pvOutptr, .pvWsq]

theorem writeReg_readOnly {r : Reg} (hr : r ∈ readOnlyRegs) (s : State) (v : Word) : s.writeReg v r = s := by
  cases r with
  | arg0 | arg1 | arg2 | err | irqEn | pvGain | pvWet | pvDry => exact absurd hr (by decide)
  | _ => rfl

theorem step_readOnlyWrite {s : State} {addr : Addr} {v : Word} {rest : List HostEvent} {r : Reg} (hr : r ∈ readOnlyRegs)
    (hport : NextAccess s .bits32 addr (.write v) rest) (haddr : r.addr = addr.toNat) :
    step s = .next { s with port := rest, resp := .written } := by
  have hcmd : r ≠ .cmd := fun h => absurd (h ▸ hr) (by decide)
  rw [step_regWrite hcmd hport haddr, writeReg_readOnly hr]
  rfl

/-- Settles O14, by `step_readOnlyWrite` and `step_regRead`. -/
theorem readOnlyRegistersIgnoreWrites : Obligations.ReadOnlyRegistersIgnoreWrites :=
  ⟨fun _ _ _ _ _ hr hport haddr => step_readOnlyWrite hr hport haddr,
    fun _ _ hport => step_regRead (r := .cmd) hport rfl,
    fun _ _ _ _ hport haddr => ⟨_, step_regRead hport haddr⟩⟩

/-- The bits of GSTATUS's word, for every value of its six flags. -/
theorem gstatusWord_getLsbD : ∀ fft ola ols pv errAny irq : Bool, ∀ i < 32,
    (BitVec.ofNat 32 (fft.toNat + 2 * ola.toNat + 4 * ols.toNat + 8 * pv.toNat + 2 ^ 8 * errAny.toNat + 2 ^ 9 * irq.toNat)).getLsbD i =
      [fft, ola, ols, pv, false, false, false, false, errAny, irq].getD i false := by
  decide

theorem gstatus_getLsbD (s : State) (i : Nat) :
    s.gstatus.getLsbD i =
      [s.fft.cfg, s.ola.cfg, s.ols.cfg, s.pv.cfg, false, false, false, false, s.err != 0#32, s.irq].getD i false := by
  rcases Nat.lt_or_ge i 32 with hi | hi
  · exact gstatusWord_getLsbD _ _ _ _ _ _ i hi
  · rw [BitVec.getLsbD_of_ge _ _ hi, List.getD_eq_default]
    exact Nat.le_trans (by decide : 10 ≤ 32) hi

theorem irq_powerOn (ram : Memory) : (State.powerOn ram).irq = false :=
  (by decide : (0#32 &&& 0#32 &&& errMask != 0#32) = false)

theorem gstatus_powerOn (ram : Memory) : (State.powerOn ram).gstatus = 0#32 := by
  rw [State.gstatus, irq_powerOn]
  rfl

/-- Settles O15; the bits are `gstatus_getLsbD`. -/
theorem gstatusBits : Obligations.GstatusBits := by
  refine ⟨fun s => ?_, gstatus_powerOn [], fun s v rest hport => step_readOnlyWrite (r := .gstatus) (by decide) hport rfl⟩
  simp only [gstatus_getLsbD]
  refine ⟨rfl, rfl, rfl, rfl, by simp, rfl, fun i h4 h8 h9 => ?_⟩
  rcases Nat.lt_or_ge i 10 with hi | hi
  · interval_cases i <;> trivial
  · exact List.getD_eq_default _ _ hi

/-! ### Reset -/

theorem silent_nil : Silent [] := fun _ h => absurd h List.not_mem_nil

theorem engineAtReset_reset : EngineAtReset ConvEngine.reset :=
  ⟨rfl, rfl, rfl, rfl, rfl, rfl, silent_nil, silent_nil, silent_nil⟩

theorem vocoderAtReset_reset : VocoderAtReset PvUnit.reset :=
  ⟨rfl, rfl, rfl, rfl, rfl, rfl, rfl, rfl, rfl, rfl, silent_nil, silent_nil, silent_nil, silent_nil, silent_nil⟩

theorem atReset_powerOn (ram : Memory) : AtReset (State.powerOn ram) :=
  ⟨rfl, rfl, rfl, rfl, rfl, rfl, rfl, gstatus_powerOn ram, rfl, rfl, rfl, rfl, rfl, rfl, rfl, engineAtReset_reset, engineAtReset_reset,
    vocoderAtReset_reset, irq_powerOn ram⟩

/-- The port and its answer are no registers (assumption log 2). -/
theorem atReset_softReset (s : State) : AtReset s.softReset := atReset_powerOn s.mem

/-- Settles O17: every reset is `State.powerOn` of the RAMs as they stand, up to the port. -/
theorem resetSetsEveryValue : Obligations.ResetSetsEveryValue :=
  ⟨fun s => ⟨s.softReset, rfl, atReset_softReset s, rfl, rfl, rfl⟩,
    fun s rest hport => ⟨_, step_of_event hport, atReset_softReset { s with port := rest }, rfl, rfl⟩,
    fun ram => ⟨atReset_powerOn ram, rfl⟩,
    atReset_powerOn []⟩

end Sys2Proof.Machine
end

section
/-! PROOFS. What the commands leave unchanged outside their own unit and RESULT (spec 10_state.md R41, R42, R50, R51, R62, R63, R65;
60_exceptions.md R422). -/

namespace Sys2Proof.Machine

open Sys2Proof.Statements

/-! ### The effect of a command but SRST -/

/-- It writes RESULT, the units and the RAMs only. -/
theorem effectOf_frame {i : Instr} (hs : i ≠ .srst) (s : State) :
    effectOf i s = { s with
      result := (effectOf i s).result
      fft := (effectOf i s).fft
      ola := (effectOf i s).ola
      ols := (effectOf i s).ols
      pv := (effectOf i s).pv
      mem := (effectOf i s).mem } := by
  cases i with
  | srst => exact absurd rfl hs
  | _ => rfl

theorem effectOf_sameRecord {i : Instr} (hs : i ≠ .srst) (s : State) : SameRecord s (effectOf i s) := by
  rw [effectOf_frame hs]
  exact ⟨rfl, rfl, rfl, rfl⟩

theorem effectOf_fft {i : Instr} (hs : i ≠ .srst) (hi : i ≠ .fftCfg) (s : State) : (effectOf i s).fft = s.fft := by
  cases i with
  | srst => exact absurd rfl hs
  | fftCfg => exact absurd rfl hi
  | _ => rfl

theorem convProcess_sameConfig (g : Strategy) (s : State) : ((convProcess g s).engine g).SameConfig (s.engine g) := by
  rw [convProcess, State.engine_setResult, State.engine_setEngine]
  exact ConvEngine.call_sameConfig ..

theorem convApply_sameConfig (g : Strategy) (s : State) : ((convApply g s).engine g).SameConfig (s.engine g) := by
  rw [convApply, State.engine_setResult, State.engine_setRam, State.engine_setEngine]
  exact (ConvEngine.calls_sameConfig ..).trans (ConvEngine.restart_sameConfig _)

theorem convRestart_sameConfig (g : Strategy) (s : State) : ((convRestart g s).engine g).SameConfig (s.engine g) := by
  rw [convRestart, State.engine_setEngine]
  exact ConvEngine.restart_sameConfig _

theorem effectOf_ola_sameConfig {i : Instr} (hs : i ≠ .srst) (hi : i ≠ .olaCfg) (s : State) :
    (effectOf i s).ola.SameConfig s.ola := by
  cases i with
  | srst => exact absurd rfl hs
  | olaCfg => exact absurd rfl hi
  | olaProc => exact convProcess_sameConfig .overlapAdd s
  | olaApply => exact convApply_sameConfig .overlapAdd s
  | olaRst => exact convRestart_sameConfig .overlapAdd s
  | _ => exact .refl _

theorem effectOf_ols_sameConfig {i : Instr} (hs : i ≠ .srst) (hi : i ≠ .olsCfg) (s : State) :
    (effectOf i s).ols.SameConfig s.ols := by
  cases i with
  | srst => exact absurd rfl hs
  | olsCfg => exact absurd rfl hi
  | olsProc => exact convProcess_sameConfig .overlapSave s
  | olsApply => exact convApply_sameConfig .overlapSave s
  | olsRst => exact convRestart_sameConfig .overlapSave s
  | _ => exact .refl _

theorem PvUnit.SameConfig.refl (u : PvUnit) : u.SameConfig u := ⟨rfl, rfl, rfl, rfl, rfl, rfl, rfl, rfl, rfl, rfl, rfl⟩

theorem effectOf_pv_sameConfig {i : Instr} (hs : i ≠ .srst) (hi : i ≠ .pvCfg) (s : State) :
    (effectOf i s).pv.SameConfig s.pv := by
  cases i with
  | srst => exact absurd rfl hs
  | pvCfg => exact absurd rfl hi
  | pvProc => exact PvUnit.call_sameConfig ..
  | pvRst => exact PvUnit.restart_sameConfig _
  | _ => exact .refl _

/-! ### RESULT -/

/-- The commands that leave RESULT (R42). -/
def keepsResult : List Instr :=
  [.nop, .fftFwd, .fftInv, .fftMag false, .fftMag true, .fftPwr false, .fftPwr true, .olaRst, .olsRst, .pvRst]

theorem effectOf_result {i : Instr} (hi : i ∈ keepsResult) (s : State) : (effectOf i s).result = s.result := by
  cases i with
  | srst | fftCfg | olaCfg | olaProc | olaApply | olsCfg | olsProc | olsApply | pvCfg | pvProc => exact absurd hi (by decide)
  | _ => rfl

/-- Settles O21: an error leaves RESULT; without one the error record is as before, unless the command is SRST. -/
theorem resultIsWrittenOnlyByItsCommands : Obligations.ResultIsWrittenOnlyByItsCommands := by
  intro s t i he
  rcases exec_cases he with ⟨c, hc, rfl⟩ | ⟨-, rfl⟩
  · refine ⟨fun _ => rfl, fun _ _ => rfl, fun hs => ?_⟩
    subst hs
    cases hc
  · refine ⟨fun hi => effectOf_result hi s, fun hs hrec => absurd (effectOf_sameRecord hs s) hrec, fun hs => ?_⟩
    rw [hs]
    rfl

/-! ### CFG bits and host registers -/

/-- Settles O22: an error leaves the units, an effect every unit's configuration but that of the CFG command's own unit. -/
theorem cfgBitsChangeOnlyByConfigAndReset : Obligations.CfgBitsChangeOnlyByConfigAndReset := by
  intro s t i he hs
  rcases exec_cases he with ⟨c, -, rfl⟩ | ⟨-, rfl⟩
  · exact ⟨.inl rfl, .inl rfl, .inl rfl, .inl rfl⟩
  refine ⟨?_, ?_, ?_, ?_⟩
  · by_cases hi : i = .fftCfg
    · exact .inr ⟨hi, hi ▸ rfl⟩
    · exact .inl (congrArg FftUnit.cfg (effectOf_fft hs hi s))
  · by_cases hi : i = .olaCfg
    · exact .inr ⟨hi, hi ▸ rfl⟩
    · exact .inl (effectOf_ola_sameConfig hs hi s).cfg
  · by_cases hi : i = .olsCfg
    · exact .inr ⟨hi, hi ▸ rfl⟩
    · exact .inl (effectOf_ols_sameConfig hs hi s).cfg
  · by_cases hi : i = .pvCfg
    · exact .inr ⟨hi, hi ▸ rfl⟩
    · exact .inl (effectOf_pv_sameConfig hs hi s).cfg

/-- PV.CFG too leaves PV_WET and PV_DRY (R63). -/
theorem effectOf_pv_mix {i : Instr} (hs : i ≠ .srst) (s : State) :
    (effectOf i s).pv.wet = s.pv.wet ∧ (effectOf i s).pv.dry = s.pv.dry := by
  by_cases hi : i = .pvCfg
  · subst hi
    exact ⟨rfl, rfl⟩
  · have hsame := effectOf_pv_sameConfig hs hi s
    exact ⟨hsame.wet, hsame.dry⟩

/-- Settles O23, by `effectOf_frame` and, inside the vocoder, `effectOf_pv_sameConfig`. -/
theorem commandsLeaveHostRegisters : Obligations.CommandsLeaveHostRegisters := by
  intro s t i he
  rcases exec_cases he with ⟨c, -, rfl⟩ | ⟨-, rfl⟩
  · exact ⟨rfl, rfl, fun _ => ⟨rfl, rfl, rfl, rfl, rfl, rfl, rfl, fun _ => rfl⟩⟩
  by_cases hs : i = .srst
  · subst hs
    exact ⟨rfl, rfl, fun h => absurd rfl h⟩
  obtain ⟨hwet, hdry⟩ := effectOf_pv_mix hs s
  have hgain (hi : i ≠ .pvCfg) := (effectOf_pv_sameConfig hs hi s).gain
  rw [effectOf_frame hs]
  exact ⟨rfl, rfl, fun _ => ⟨rfl, rfl, rfl, rfl, rfl, hwet, hdry, hgain⟩⟩

end Sys2Proof.Machine
end

section
/-! PROOFS. The data RAMs as bytes and words: words written back as they read change nothing (spec 20_memory.md R102, R114;
assumption log 3). -/

namespace Sys2Proof.Machine

/-- The bytes of a word are those it is made of (R102), so `bytesOfWord` inverts `wordOfBytes`. -/
theorem bytesOfWord_wordOfBytes (b0 b1 b2 b3 : Byte) : bytesOfWord (wordOfBytes b0 b1 b2 b3) = [b0, b1, b2, b3] := by
  have h0 := b0.isLt
  have h1 := b1.isLt
  have h2 := b2.isLt
  have h3 := b3.isLt
  have hv : (wordOfBytes b0 b1 b2 b3).toNat = b0.toNat + 2 ^ 8 * b1.toNat + 2 ^ 16 * b2.toNat + 2 ^ 24 * b3.toNat := by
    rw [wordOfBytes, BitVec.toNat_ofNat]
    omega
  simp only [bytesOfWord, hv, List.cons.injEq, and_true]
  refine ⟨?_, ?_, ?_, ?_⟩ <;>
  · apply BitVec.eq_of_toNat_eq
    rw [BitVec.toNat_ofNat]
    omega

namespace Memory

theorem bytesOfWord_word (m : Memory) (a : Nat) :
    bytesOfWord (Memory.word m a) = [Memory.byte m a, Memory.byte m (a + 1), Memory.byte m (a + 2), Memory.byte m (a + 3)] :=
  bytesOfWord_wordOfBytes ..

theorem getElem_bytesOfWord_word (m : Memory) (a : Nat) {j : Nat} (hj : j < 4) :
    (bytesOfWord (Memory.word m a))[j]'hj = Memory.byte m (a + j) := by
  simp only [bytesOfWord_word]
  interval_cases j <;> rfl

/-- A byte of the words written is that byte of its word. -/
theorem byte_writeWords_inside (m : Memory) {a i j : Nat} {ws : List Word} (hi : i < ws.length) (hj : j < 4) :
    Memory.byte (Memory.writeWords m a ws) (a + (4 * i + j)) = (bytesOfWord ws[i])[j]'hj := by
  rw [Memory.writeWords, byte_write_inside m (by rw [flatMap_bytes_length]; omega)]
  exact getElem_flatMap_bytes ws hi hj

/-- Byte by byte: outside the span nothing is written, inside each byte is its own. -/
theorem byte_writeWords_words (m : Memory) (a n x : Nat) :
    Memory.byte (Memory.writeWords m a (Memory.words m a n)) x = Memory.byte m x := by
  by_cases hx : x < a ∨ a + 4 * n ≤ x
  · exact byte_writeWords_outside m (by rwa [words_length])
  · have hi : (x - a) / 4 < (Memory.words m a n).length := by rw [words_length]; omega
    have hj : (x - a) % 4 < 4 := Nat.mod_lt _ (by decide)
    have hxa : x = a + (4 * ((x - a) / 4) + (x - a) % 4) := by omega
    calc Memory.byte (Memory.writeWords m a (Memory.words m a n)) x
        = (bytesOfWord (Memory.words m a n)[(x - a) / 4])[(x - a) % 4] := by
          conv_lhs => rw [hxa]
          exact byte_writeWords_inside m hi hj
      _ = Memory.byte m (a + 4 * ((x - a) / 4) + (x - a) % 4) := by
          simp only [words_getElem]
          exact getElem_bytesOfWord_word m _ hj
      _ = Memory.byte m x := by rw [Nat.add_assoc, ← hxa]

theorem writeWords_words {m : Memory} (h : Memory.wf m) (a n : Nat) : Memory.writeWords m a (Memory.words m a n) = m :=
  ext (wf_writeWords h a _) h (byte_writeWords_words m a n)

end Memory

/-- Settles O60: the canonical form is kept (`wf_write`) and fixed by the reads (`ext`), which writing words back leaves. -/
theorem rewritingWordsIsIdentity : Obligations.RewritingWordsIsIdentity :=
  ⟨fun _ a bs h => Memory.wf_write h a bs, fun _ _ => Memory.ext, fun _ a n h => Memory.writeWords_words h a n⟩

end Sys2Proof.Machine
end

section
/-! PROOFS. The address map names each listed word by one target (spec 20_memory.md R109, R111). -/

namespace Sys2Proof

theorem Ram.mem_all (r : Ram) : r ∈ Ram.all := by cases r <;> decide

theorem Ram.base_aligned (r : Ram) : r.base % 4 = 0 := by cases r <;> rfl

theorem Ram.wordAddr_aligned (r : Ram) (i : Nat) : r.wordAddr i % 4 = 0 := by
  have := r.base_aligned
  unfold Ram.wordAddr
  omega

/-- Every register lies below every RAM (R109). -/
theorem Reg.addr_lt_base (q : Reg) (r : Ram) : q.addr < r.base := by
  have hq : q.addr < 0x100000 := by cases q <;> decide
  have hr : 0x100000 ≤ r.base := by cases r <;> decide
  omega

theorem Ram.holds_iff (r : Ram) (a : Nat) : r.holds a = true ↔ r.base ≤ a ∧ a < r.base + 4 * r.words := by
  simp [Ram.holds]

theorem Ram.holds_wordAddr {r : Ram} {i : Nat} (h : i < r.words) : r.holds (r.wordAddr i) = true := by
  rw [Ram.holds_iff, Ram.wordAddr]
  omega

/-- No two RAM windows overlap (R109). -/
theorem Ram.windows_disjoint : ∀ r ∈ Ram.all, ∀ q ∈ Ram.all, r ≠ q →
    r.base + 4 * r.words ≤ q.base ∨ q.base + 4 * q.words ≤ r.base := by decide

theorem Ram.eq_of_holds {r q : Ram} {a : Nat} (hr : r.holds a = true) (hq : q.holds a = true) : r = q := by
  rw [Ram.holds_iff] at hr hq
  by_contra hne
  have := Ram.windows_disjoint r r.mem_all q q.mem_all hne
  omega

theorem Ram.holds_of_find? {r : Ram} {a : Nat} (h : Ram.all.find? (fun q => q.holds a) = some r) : r.holds a = true :=
  List.find?_some (p := fun q : Ram => q.holds a) h

/-- The search of the map finds the RAM that holds the address, as no other does. -/
theorem Ram.find?_holds {r : Ram} {a : Nat} (h : r.holds a = true) : Ram.all.find? (fun q => q.holds a) = some r := by
  have hsome : (Ram.all.find? (fun q => q.holds a)).isSome := List.find?_isSome.mpr ⟨r, r.mem_all, h⟩
  obtain ⟨q, hq⟩ := Option.isSome_iff_exists.mp hsome
  rw [hq, Ram.eq_of_holds (Ram.holds_of_find? hq) h]

/-- A RAM word's address names it (R109, R111). -/
theorem target_of_ram {r : Ram} {i : Nat} {addr : Addr} (hi : i < r.words) (h : r.wordAddr i = addr.toNat) :
    target addr = some (.ram r i) := by
  have hreg : Reg.all.find? (fun q => q.addr == r.wordAddr i) = none := by
    rw [List.find?_eq_none]
    intro q _
    have := q.addr_lt_base r
    simp only [Ram.wordAddr, beq_iff_eq]
    omega
  have hindex : (r.wordAddr i - r.base) / 4 = i := by unfold Ram.wordAddr; omega
  simp only [target, ← h]
  rw [if_pos (r.wordAddr_aligned i), hreg]
  simp only [Ram.find?_holds (Ram.holds_wordAddr hi), Option.map_some, hindex]

/-- A target lies where its address says. -/
theorem addr_of_target {addr : Addr} {t : Target} (h : target addr = some t) : t.addr = addr.toNat := by
  simp only [target] at h
  split at h
  · split at h
    · cases h
      have hfind := List.find?_some ‹_›
      exact beq_iff_eq.mp hfind
    · obtain ⟨r, hfind, rfl⟩ := Option.map_eq_some_iff.mp h
      have hholds := (r.holds_iff _).mp (Ram.holds_of_find? hfind)
      have := r.base_aligned
      show r.base + 4 * ((addr.toNat - r.base) / 4) = addr.toNat
      omega
  · cases h

theorem target_eq_reg_iff (addr : Addr) (r : Reg) : target addr = some (.reg r) ↔ r.addr = addr.toNat :=
  ⟨addr_of_target, target_of_reg⟩

theorem target_eq_ram_iff (addr : Addr) (r : Ram) (i : Nat) :
    target addr = some (.ram r i) ↔ i < r.words ∧ r.wordAddr i = addr.toNat :=
  ⟨fun h => ⟨lt_words_of_target h, addr_of_target h⟩, fun ⟨hi, h⟩ => target_of_ram hi h⟩

/-- Settles O8: a target is found at its own address only, since no two windows overlap. -/
theorem addressMapIsExact : Obligations.AddressMapIsExact := ⟨target_eq_reg_iff, target_eq_ram_iff⟩

theorem Target.addr_aligned (t : Target) : t.addr % 4 = 0 := by
  cases t with
  | reg r => exact r.addr_aligned
  | ram r i => exact r.wordAddr_aligned i

theorem mapped_of_target {addr : Addr} {t : Target} (h : target addr = some t) : Statements.Mapped addr.toNat := by
  cases t with
  | reg r => exact .inl ⟨r, addr_of_target h⟩
  | ram r i => exact .inr ⟨r, i, lt_words_of_target h, addr_of_target h⟩

/-- The three causes of BusError (R110) leave an access without a target. -/
theorem target?_eq_none {a : HostAccess}
    (h : a.width ≠ .bits32 ∨ a.addr.toNat % 4 ≠ 0 ∨ ¬ Statements.Mapped a.addr.toNat) : a.target? = none := by
  by_cases hw : a.width = .bits32
  · rw [HostAccess.target?, if_pos hw, Option.eq_none_iff_forall_ne_some]
    intro t ht
    rcases h with h | h | h
    · exact h hw
    · exact h (addr_of_target ht ▸ t.addr_aligned)
    · exact h (mapped_of_target ht)
  · rw [HostAccess.target?, if_neg hw]

end Sys2Proof
end

section
/-! PROOFS. What one host access does: BusError, reads, and writes of RAM words and of the writable registers (spec 20_memory.md
R106, R107, R110, R114). -/

namespace Sys2Proof.Machine

open Sys2Proof.Statements

theorem target?_of_ram {r : Ram} {i : Nat} {addr : Addr} (hi : i < r.words) (h : r.wordAddr i = addr.toNat) (k : AccessKind) :
    HostAccess.target? { width := .bits32, addr := addr, kind := k } = some (.ram r i) := target_of_ram hi h

theorem step_busFault {s : State} {w : AccessWidth} {addr : Addr} {k : AccessKind} {rest : List HostEvent}
    (hport : NextAccess s w addr k rest) (hbad : w ≠ .bits32 ∨ addr.toNat % 4 ≠ 0 ∨ ¬ Mapped addr.toNat) :
    step s = .next (State.busFault { s with port := rest } { width := w, addr := addr, kind := k }) :=
  (step_of_event hport).trans (hostAccess_of_none (target?_eq_none hbad))

/-- Settles O9: such an access has no target (`target?_eq_none`), so it only raises BusError. -/
theorem badAccessRaisesBusError : Obligations.BadAccessRaisesBusError := by
  intro s w addr k rest hport hbad
  refine ⟨_, step_busFault hport hbad, ?_⟩
  cases k with
  | read => exact ⟨rfl, fun _ => rfl⟩
  | write v => exact ⟨rfl, fun hk => nomatch hk⟩

theorem step_ramRead {s : State} {addr : Addr} {rest : List HostEvent} {r : Ram} {i : Nat}
    (hport : NextAccess s .bits32 addr .read rest) (hi : i < r.words) (haddr : r.wordAddr i = addr.toNat) :
    step s = .next { s with port := rest, resp := .data (Memory.word s.mem addr.toNat) } := by
  rw [← haddr]
  exact (step_of_event hport).trans (hostAccess_read (target?_of_ram hi haddr .read) rfl)

/-- Settles O10: a read only answers (`step_regRead`, `step_ramRead`), and `regValue` names each register's field. -/
theorem hostReadHasNoSideEffect : Obligations.HostReadHasNoSideEffect := by
  refine ⟨fun _ _ _ _ hport haddr => step_regRead hport haddr,
    fun _ _ _ _ _ hport hi haddr => step_ramRead hport hi haddr, fun s => ⟨?_, ?_, ?_, ?_, ?_⟩⟩
  · exact ⟨rfl, rfl, rfl, rfl, rfl, rfl, rfl, rfl, rfl, rfl, rfl, rfl, rfl, rfl⟩
  · exact ⟨rfl, rfl⟩
  · exact ⟨rfl, rfl, rfl, rfl, rfl, rfl⟩
  · exact ⟨rfl, rfl, rfl, rfl, rfl, rfl⟩
  · exact ⟨rfl, rfl, rfl, rfl, rfl, rfl, rfl, rfl, rfl, rfl⟩

theorem step_ramWrite {s : State} {addr : Addr} {v : Word} {rest : List HostEvent} {r : Ram} {i : Nat}
    (hport : NextAccess s .bits32 addr (.write v) rest) (hi : i < r.words) (haddr : r.wordAddr i = addr.toNat) :
    step s = .next { s with mem := Memory.writeWords s.mem addr.toNat [v], port := rest, resp := .written } := by
  rw [← haddr]
  exact (step_of_event hport).trans (hostAccess_write (target?_of_ram hi haddr (.write v)) rfl)

/-- Settles O11: the write is `writeWords` of one word, which reads back inside its four bytes and leaves those outside. -/
theorem ramWriteReadsBack : Obligations.RamWriteReadsBack := by
  intro s r i v addr rest hport hi haddr
  refine ⟨_, step_ramWrite hport hi haddr, rfl, ?_, fun a ha => Memory.byte_writeWords_outside s.mem ha⟩
  rw [haddr]
  exact Memory.word_writeWords_inside s.mem (i := 0) (ws := [v]) Nat.one_pos

/-- Settles O13, register by register with `step_regWrite`. -/
theorem writableRegistersStore : Obligations.WritableRegistersStore := fun _ _ _ =>
  ⟨fun h => step_regWrite (r := .arg0) (by decide) h rfl,
    fun h => step_regWrite (r := .arg1) (by decide) h rfl,
    fun h => step_regWrite (r := .arg2) (by decide) h rfl,
    fun h => step_regWrite (r := .irqEn) (by decide) h rfl,
    fun h => step_regWrite (r := .pvGain) (by decide) h rfl,
    fun h => step_regWrite (r := .pvWet) (by decide) h rfl,
    fun h => step_regWrite (r := .pvDry) (by decide) h rfl⟩

end Sys2Proof.Machine
end

section
/-! PROOFS. A command changes its own unit and its unit's output RAMs only (spec 20_memory.md R100, R115; 60_exceptions.md R434). -/

namespace Sys2Proof.Machine

/-! ### The other units -/

theorem effectOf_ola {i : Instr} (hs : i ≠ .srst) (hu : i.unit ≠ 2) (s : State) : (effectOf i s).ola = s.ola := by
  cases i with
  | srst => exact absurd rfl hs
  | olaCfg | olaProc | olaApply | olaRst => exact absurd rfl hu
  | _ => rfl

theorem effectOf_ols {i : Instr} (hs : i ≠ .srst) (hu : i.unit ≠ 3) (s : State) : (effectOf i s).ols = s.ols := by
  cases i with
  | srst => exact absurd rfl hs
  | olsCfg | olsProc | olsApply | olsRst => exact absurd rfl hu
  | _ => rfl

theorem effectOf_pv {i : Instr} (hs : i ≠ .srst) (hu : i.unit ≠ 4) (s : State) : (effectOf i s).pv = s.pv := by
  cases i with
  | srst => exact absurd rfl hs
  | pvCfg | pvProc | pvRst => exact absurd rfl hu
  | _ => rfl

/-! ### The output RAMs -/

/-- The RAMs a command writes (R115). -/
def outputRams : Instr → List Ram
  | .fftInv => [.x]
  | .fftFwd => [.re, .im]
  | .fftMag _ | .fftPwr _ => [.re, .im, .p]
  | .olaApply => [.olaSigout]
  | .olsApply => [.olsSigout]
  | .nop | .srst | .fftCfg | .olaCfg | .olaProc | .olaRst | .olsCfg | .olsProc | .olsRst | .pvCfg | .pvProc | .pvRst => []

/-- From `s` to `t` only bytes of these RAMs change. -/
def WritesOnly (rs : List Ram) (s t : State) : Prop :=
  ∀ a, Memory.byte t.mem a ≠ Memory.byte s.mem a → ∃ r ∈ rs, r.holds a = true

theorem WritesOnly.of_mem_eq {s t : State} (h : t.mem = s.mem) (rs : List Ram) : WritesOnly rs s t :=
  fun _ ha => absurd (by rw [h]) ha

/-- Words written inside one of the RAMs. -/
theorem WritesOnly.setRam {rs : List Ram} {s t : State} (h : WritesOnly rs s t) {r : Ram} {ws : List Word}
    (hlen : ws.length ≤ r.words) (hr : r ∈ rs) : WritesOnly rs s (t.setRam r ws) := by
  intro a ha
  by_cases hin : r.holds a = true
  · exact ⟨r, hr, hin⟩
  · rw [Ram.holds_iff] at hin
    rw [State.setRam_mem, Memory.byte_writeWords_outside t.mem (by omega)] at ha
    exact h a ha

/-! ### The lengths written -/

section
variable {s : State} (h : s.Inv)
include h

theorem fftSpectrum_length_le (hc : s.fft.cfg = true) :
    s.fftSpectrum.re.length ≤ Ram.re.words ∧ s.fftSpectrum.im.length ≤ Ram.im.words := by
  obtain ⟨h2, hmax⟩ := h.fftSize_bounds hc
  have hbins : s.fftSize / 2 + 1 ≤ Config.nMax / 2 + 1 := by omega
  exact ⟨(rfwd_re_length _ _ _ h2).trans_le hbins, (rfwd_im_length _ _ _ h2).trans_le hbins⟩

theorem fftSamples_length_le (hc : s.fft.cfg = true) : s.fftSamples.length ≤ Ram.x.words :=
  (rinv_length _ _ _ (h.fft.size hc)).trans_le (h.fftSize_bounds hc).2

theorem apply_length_le (g : Strategy) (hc : (s.engine g).cfg = true) (hl : s.arg0Nat ≤ Config.lMax) :
    ((s.engine g).apply g (s.ramWords g.sigin s.arg0Nat)).2.length ≤ g.sigout.words := by
  have hk := ((h.engine g).sized hc).bounds
  have hwords : g.sigout.words = Config.lMax + Config.nMax - 1 := by cases g <;> rfl
  have hmax : Config.nMax = 4096 := rfl
  rw [ConvEngine.apply_length, State.ramWords, Memory.words_length]
  omega

/-! ### What each writing command changes -/

theorem fftForward_writesOnly (hc : s.fft.cfg = true) {rs : List Ram} (hre : .re ∈ rs) (him : .im ∈ rs) :
    WritesOnly rs s (fftForward s) := by
  obtain ⟨hlre, hlim⟩ := fftSpectrum_length_le h hc
  exact ((WritesOnly.of_mem_eq rfl rs).setRam hlre hre).setRam hlim him

/-- FFT.MAG and FFT.PWR: P takes one word per bin, whatever the word (R246, R247). -/
theorem fftForward_setP_writesOnly (hc : s.fft.cfg = true) (f : Word → Word → Word) :
    WritesOnly [.re, .im, .p] s ((fftForward s).setRam .p (s.fftSpectrum.re.zipWith f s.fftSpectrum.im)) := by
  refine (fftForward_writesOnly h hc (by decide) (by decide)).setRam ?_ (by decide)
  rw [List.length_zipWith]
  exact (Nat.min_le_left ..).trans (fftSpectrum_length_le h hc).1

theorem convApply_writesOnly (g : Strategy) (hp : convApplyFailure g s = none) : WritesOnly [g.sigout] s (convApply g s) := by
  obtain ⟨hc, hl⟩ := convApplyFailure_eq_none.mp hp
  exact (WritesOnly.of_mem_eq (State.setEngine_mem ..) _).setRam (apply_length_le h g hc hl) (List.mem_singleton_self _)

/-- A command writes its output RAMs only: no other effect touches the RAMs at all. -/
theorem effectOf_writesOnly {i : Instr} (hp : failureOf i s = none) : WritesOnly (outputRams i) s (effectOf i s) := by
  cases i with
  | fftFwd => exact fftForward_writesOnly h (fftUnconfigured_eq_none.mp hp) (by decide) (by decide)
  | fftInv =>
    exact (WritesOnly.of_mem_eq rfl _).setRam (fftSamples_length_le h (fftUnconfigured_eq_none.mp hp)) (List.mem_singleton_self _)
  | fftMag norm | fftPwr norm => exact fftForward_setP_writesOnly h (fftUnconfigured_eq_none.mp hp) _
  | olaApply => exact convApply_writesOnly h .overlapAdd hp
  | olsApply => exact convApply_writesOnly h .overlapSave hp
  | _ => exact .of_mem_eq rfl _

end

/-- Settles O59: an error changes the error record only; an effect leaves the other units and writes its `outputRams` only. -/
theorem unitsAreIsolated : Obligations.UnitsAreIsolated := by
  intro s t i hinv he hs
  rcases exec_cases he with ⟨c, -, rfl⟩ | ⟨hp, rfl⟩
  · exact ⟨fun _ => rfl, fun _ => rfl, fun _ => rfl, fun _ => rfl, fun _ ha => absurd rfl ha⟩
  refine ⟨fun hu => effectOf_fft hs (fun hi => hu (hi ▸ rfl)) s, fun hu => effectOf_ola hs hu s, fun hu => effectOf_ols hs hu s,
    fun hu => effectOf_pv hs hu s, fun a ha => ?_⟩
  obtain ⟨r, hr, hin⟩ := effectOf_writesOnly hinv hp a ha
  cases i with
  | fftInv | olaApply | olsApply =>
    cases List.mem_singleton.mp hr
    simp [hin]
  | fftFwd =>
    rcases List.mem_pair.mp hr with rfl | rfl <;> simp [hin]
  | fftMag norm | fftPwr norm =>
    simp only [outputRams, List.mem_cons, List.not_mem_nil, or_false] at hr
    rcases hr with rfl | rfl | rfl <;> simp [hin]
  | _ => exact absurd hr List.not_mem_nil

end Sys2Proof.Machine
end

section
/-! PROOFS. The decoder inverts the encoder, and rejects the reserved words only (spec 30_encoding.md R140 to R148). -/

namespace Sys2Proof

open Sys2Proof.Statements

/-! ### Commands and their words -/

/-- The opcode map holds each command's word, put together from its fields (R140, R142). -/
theorem word_eq_encode_of_mem : ∀ row ∈ commandTable, row.1 = encode row.2 := by decide

theorem decodeWord_encode (i : Instr) : decodeWord (encode i) = .command i := by
  cases i with
  | fftMag norm | fftPwr norm => cases norm <;> rfl
  | _ => rfl

/-- The row the decoder finds is a row of the opcode map, with the word decoded. -/
theorem mem_and_word_eq_of_find? {v : Word} {row : Word × Instr}
    (h : commandTable.find? (fun r => r.1 == v) = some row) : row ∈ commandTable ∧ row.1 = v :=
  ⟨List.mem_of_find?_eq_some h, beq_iff_eq.mp (List.find?_some (p := fun r : Word × Instr => r.1 == v) h)⟩

theorem eq_encode_of_decodeWord {v : Word} {i : Instr} (h : decodeWord v = .command i) : v = encode i := by
  unfold decodeWord at h
  split at h
  · rename_i row hfind
    cases h
    obtain ⟨hmem, hword⟩ := mem_and_word_eq_of_find? hfind
    exact hword.symm.trans (word_eq_encode_of_mem row hmem)
  · cases h

theorem decodeWord_eq_command_iff (v : Word) (i : Instr) : decodeWord v = .command i ↔ v = encode i :=
  ⟨eq_encode_of_decodeWord, fun h => h ▸ decodeWord_encode i⟩

/-- Decoding reads the first four bytes only (R148). -/
theorem decodeBytes_bytesOfWord_append (v : Word) (rest : List Byte) :
    decodeBytes (bytesOfWord v ++ rest) = decodeWord v :=
  congrArg decodeWord (Machine.wordOfBytes_bytesOfWord v)

theorem decodeBytes_encodeBytes_append (i : Instr) (rest : List Byte) :
    decodeBytes (encodeBytes i ++ rest) = .command i :=
  (decodeBytes_bytesOfWord_append (encode i) rest).trans (decodeWord_encode i)

/-- Settles O2: a word decodes by its own row of the opcode map only, and four bytes by the word they make. -/
theorem decodeInvertsEncode : Obligations.DecodeInvertsEncode :=
  ⟨decodeWord_eq_command_iff, decodeBytes_encodeBytes_append⟩

/-- Settles O1: each word is its command's encoding. -/
theorem specWordsDecode : Obligations.SpecWordsDecode :=
  ⟨decodeWord_encode .nop, decodeWord_encode .srst, decodeWord_encode .fftCfg, decodeWord_encode (.fftMag true),
    decodeWord_encode (.fftPwr false), decodeWord_encode .olaApply, decodeWord_encode .olsRst, decodeWord_encode .pvProc,
    decodeWord_encode .pvRst⟩

/-! ### Defined and reserved words -/

theorem map_fst_commandTable : commandTable.map Prod.fst = definedWords := rfl

/-- The decoder rejects the words the opcode map does not list (R146). -/
theorem exists_decodeWord_eq_illegal_iff (v : Word) : (∃ why, decodeWord v = .illegal why) ↔ v ∉ definedWords := by
  rw [← map_fst_commandTable, List.mem_map]
  unfold decodeWord
  split
  · rename_i row hfind
    exact iff_of_false (fun ⟨_, h⟩ => nomatch h) (fun hnot => hnot ⟨row, mem_and_word_eq_of_find? hfind⟩)
  · rename_i hfind
    refine iff_of_true ⟨_, rfl⟩ fun ⟨row, hrow, hword⟩ => ?_
    exact List.find?_eq_none.mp hfind row hrow (beq_iff_eq.mpr hword)

theorem not_reservedWord_of_mem : ∀ v ∈ definedWords, ¬ ReservedWord v := by
  simp [definedWords, ReservedWord]

/-- A word that is not reserved is made of a UNIT and an OP below 5 and a NORM bit: R147 leaves no other. -/
theorem exists_cmdw_of_not_reservedWord {v : Word} (h : ¬ ReservedWord v) :
    ∃ (unit op : Fin 5) (norm : Bool), v = cmdw unit op norm := by
  unfold ReservedWord at h
  refine ⟨⟨fieldUnit v, by unfold fieldUnit; omega⟩, ⟨fieldOp v, by unfold fieldOp; omega⟩, decide (fieldNorm v = 1),
    BitVec.eq_of_toNat_eq ?_⟩
  have hnorm : (decide (fieldNorm v = 1)).toNat = v.toNat / 256 % 2 := by
    rw [Bool.toNat, Bool.cond_decide]
    unfold fieldNorm
    split <;> omega
  simp only [cmdw, BitVec.toNat_ofNat, hnorm, fieldUnit, fieldOp]
  omega

/-- The unreserved words among these fields are listed. -/
theorem cmdw_mem_definedWords : ∀ (unit op : Fin 5) (norm : Bool),
    ¬ ReservedWord (cmdw unit op norm) → cmdw unit op norm ∈ definedWords := by
  unfold ReservedWord
  decide

/-- R142 lists exactly the words R147 does not name. -/
theorem not_mem_definedWords_iff (v : Word) : v ∉ definedWords ↔ ReservedWord v := by
  refine ⟨fun hv => ?_, fun hr hv => not_reservedWord_of_mem v hv hr⟩
  by_contra hr
  obtain ⟨unit, op, norm, rfl⟩ := exists_cmdw_of_not_reservedWord hr
  exact hv (cmdw_mem_definedWords unit op norm hr)

/-- Settles O3: the decoder rejects the unlisted words, and those are the reserved ones. -/
theorem illegalWordsAreThoseListed : Obligations.IllegalWordsAreThoseListed := fun v =>
  (exists_decodeWord_eq_illegal_iff v).trans (not_mem_definedWords_iff v)

end Sys2Proof
end

section
/-! PROOFS. The host's write of a word to CMD executes it (spec 20_memory.md R104, R107; 30_encoding.md R146). -/

namespace Sys2Proof.Machine

theorem execute_of_command {s : State} {v : Word} {i : Instr} (h : decodeWord v = .command i) : s.execute v = exec i s := by
  unfold State.execute
  rw [h]

/-- The write of a word to CMD is answered and the word executed, in one step (R104). -/
theorem step_cmdWrite {s : State} {v : Word} {rest : List HostEvent} (hport : s.port = cmdWrite v :: rest) :
    step s = State.execute { s with port := rest, resp := .written } v :=
  step_hostWrite_reg (r := .cmd) hport rfl

/-- Settles O5: the step executes the word (`step_cmdWrite`), which decodes to the command. -/
theorem stepRunsDecodedCommand : Obligations.StepRunsDecodedCommand := fun _ _ _ _ hport hv =>
  (step_cmdWrite hport).trans (execute_of_command hv)

end Sys2Proof.Machine
end

section
/-! PROOFS. NOP (spec 40_global.md R180). -/

namespace Sys2Proof.Machine

/-- NOP has no check to fail and no effect, so neither a CFG bit nor ERR matters to it. -/
theorem exec_nop (s : State) : exec .nop s = .next s := exec_of_pass (i := .nop) rfl

/-- Settles O18: the word 0 is the encoding of NOP, whose execution is `exec_nop`. -/
theorem nopChangesNothing : Obligations.NopChangesNothing := ⟨decodeWord_encode .nop, exec_nop⟩

end Sys2Proof.Machine
end

section
/-! PROOFS. A product with one factor's sign changed, as bits (spec 00_scope.md R15, R18). -/

namespace Sys2Proof.Machine

/-- A word is its sign and its magnitude (R18). -/
theorem packWord_fSign_fMag (x : Word) : packWord (fSign x) (fMag x) = x := by
  apply BitVec.eq_of_toNat_eq
  rw [packWord_toNat _ _ (fMag_lt x)]
  have hx := x.isLt
  simp only [fSign, fMag, decide_eq_true_eq]
  split <;> omega

theorem fSign_xor_signBit (x : Word) : fSign (x ^^^ 0x80000000#32) = !fSign x := by
  rw [fSign_eq_getLsbD, fSign_eq_getLsbD, BitVec.getLsbD_xor]
  exact Bool.xor_true _

theorem fMag_xor_signBit (x : Word) : fMag (x ^^^ 0x80000000#32) = fMag x := by
  rw [fMag, BitVec.toNat_xor, Nat.xor_mod_two_pow]
  exact Nat.xor_zero _

/-- Changing a word's sign flips bit 31 alone (R18). -/
theorem fNeg_eq_xor (x : Word) : fNeg x = x ^^^ 0x80000000#32 := by
  rw [fNeg, ← fSign_xor_signBit, ← fMag_xor_signBit, packWord_fSign_fMag]

theorem fNeg_packWord (neg : Bool) {m : Nat} (h : m < 2 ^ 31) : fNeg (packWord neg m) = packWord (!neg) m := by
  rw [fNeg, packWord_sign neg m h, packWord_mag neg m h]

/-- The sign of a product is apart from its magnitude, which is rounded. -/
theorem fmul_fNeg_left {a b : Word} (ha : isFinite a = true) (hb : isFinite b = true) :
    fmul (fNeg a) b = fNeg (fmul a b) := by
  rw [fmul_finite (by rwa [isFinite_fNeg]) hb, fmul_finite ha hb, fNeg_packWord _ (roundMag_lt _ _), fNeg_sign,
    fUnits_eq_magUnits, fNeg_mag, ← fUnits_eq_magUnits, Bool.not_bne]

end Sys2Proof.Machine
end

section
/-! PROOFS. The twiddle ROM as its stored quarter wave, and its symmetries (spec 41_fft_twiddle_rom.md R200, R203, R204). -/

namespace Sys2Proof.Machine

theorem romC_of_le {k : Nat} (h : k ≤ 1024) : romC k = romQuarter k := if_pos h

theorem romC_of_gt {k : Nat} (h : 1024 < k) : romC k = romQuarter (2048 - k) ^^^ 0x80000000#32 := if_neg (Nat.not_le.mpr h)

theorem romS_of_le {k : Nat} (h : k ≤ 1024) : romS k = romQuarter (1024 - k) := if_pos h

/-- The two halves of S meet at the quarter, where both read the wave's first word. -/
theorem romS_of_ge {k : Nat} (h : 1024 ≤ k) : romS k = romQuarter (k - 1024) := by
  rcases Nat.eq_or_lt_of_le h with rfl | hgt
  · rfl
  · exact if_neg (Nat.not_le.mpr hgt)

theorem romS_eq_romC {k : Nat} (h : k ≤ 1024) : romS k = romC (1024 - k) := by
  rw [romS_of_le h, romC_of_le (Nat.sub_le 1024 k)]

theorem romS_reflect {k : Nat} (h : k ≤ 2048) : romS (2048 - k) = romS k := by
  rcases Nat.le_total k 1024 with hle | hge
  · rw [romS_of_ge (by omega), romS_of_le hle]
    exact congrArg romQuarter (by omega)
  · rw [romS_of_le (by omega), romS_of_ge hge]
    exact congrArg romQuarter (by omega)

/-- The quarter itself is left out: both of its C entries are the one +0.0 (assumption log 7). -/
theorem romC_reflect {k : Nat} (h : k ≤ 2048) (hne : k ≠ 1024) : romC (2048 - k) = romC k ^^^ 0x80000000#32 := by
  rcases Nat.lt_or_gt_of_ne hne with hlt | hgt
  · rw [romC_of_gt (by omega), romC_of_le hlt.le, Nat.sub_sub_self h]
  · rw [romC_of_le (by omega), romC_of_gt hgt, BitVec.xor_assoc, BitVec.xor_self, BitVec.xor_zero]

/-- Settles O24: the stated entries are read off the table; the symmetries hold because every entry is a word of the one quarter
wave. -/
theorem twiddleRomSymmetries : Obligations.TwiddleRomSymmetries := by
  refine ⟨?_, ?_, ?_, ?_, ?_, ?_, ?_, fun _ => romS_eq_romC, fun _ => romS_reflect, fun _ => romC_reflect⟩
  all_goals decide +kernel

end Sys2Proof.Machine
end

section
/-! PROOFS. The packing tables: every size's table is read with its stride from the largest one's entries (spec
41_fft_twiddle_rom.md R202, R205, R206). -/

namespace Sys2Proof.Machine

theorem isFinite_romQuarter : ∀ k ≤ 1024, isFinite (romQuarter k) = true := by decide +kernel

theorem isFinite_romC (k : Nat) : isFinite (romC k) = true := by
  rcases Nat.lt_or_ge 1024 k with hgt | hle
  · rw [romC_of_gt hgt, ← fNeg_eq_xor, isFinite_fNeg]
    exact isFinite_romQuarter _ (by omega)
  · rw [romC_of_le hle]
    exact isFinite_romQuarter k hle

theorem packingTable_getElem? {n k : Nat} (h : k < n / 2) : (packingTable n)[k]? = some (pkEntry n k) := by
  simp [packingTable, h]

/-- An entry depends on the ROM index alone (R202): it is the largest table's entry at that index. -/
theorem pkEntry_eq_of_index {n k i : Nat} (h : k * (4096 / n) = i) : pkEntry n k = pkEntry 4096 i := by
  subst h
  simp [pkEntry, twiddleC, twiddleS, Config.nMax, Config.log2NMax]

theorem pkEntry_zero (n : Nat) : pkEntry n 0 = ⟨0x3F000000#32, 0xBF000000#32, 0x3F000000#32, 0x3F000000#32⟩ := by
  rw [pkEntry_eq_of_index (i := 0) (Nat.zero_mul _)]
  decide +kernel

/-- A quarter of the size stands at a quarter of the ROM's range, whatever the size. -/
theorem pkEntry_quarter {e : Nat} (h2 : 2 ≤ e) (h12 : e ≤ 12) :
    pkEntry (2 ^ e) (2 ^ e / 4) = ⟨0x00000000#32, 0x80000000#32, 0x3F800000#32, 0x00000000#32⟩ := by
  have hindex : 2 ^ e / 4 * (4096 / 2 ^ e) = 1024 :=
    calc 2 ^ e / 2 ^ 2 * (2 ^ 12 / 2 ^ e) = 2 ^ (e - 2) * 2 ^ (12 - e) := by
          rw [Nat.pow_div h2 (by decide), Nat.pow_div h12 (by decide)]
      _ = 2 ^ (e - 2 + (12 - e)) := (Nat.pow_add ..).symm
      _ = 2 ^ 10 := by congr 1; omega
  rw [pkEntry_eq_of_index hindex]
  decide +kernel

/-- Ai and Bi halve the one ROM word with opposite signs, and every ROM word is finite. -/
theorem pkEntry_bi (n k : Nat) : (pkEntry n k).bi = (pkEntry n k).ai ^^^ 0x80000000#32 := by
  have hneg : fNegHalf = fNeg fHalf := by decide
  have hai : (pkEntry n k).ai = fNeg (pkEntry n k).bi := by
    simp only [pkEntry, hneg]
    exact fmul_fNeg_left (by decide) (isFinite_romC _)
  rw [hai, fNeg_eq_xor, BitVec.xor_assoc, BitVec.xor_self, BitVec.xor_zero]

/-- At size 2 the bins 1..M-1 are none, so no table entry is read (R206). -/
theorem unpackBins_two (pk pk' : List Pk) (z : List Cx) : unpackBins pk 2 z = unpackBins pk' 2 z := by simp [unpackBins]

theorem repackBins_two (pk pk' : List Pk) (sp : Spectrum) : repackBins pk 2 sp = repackBins pk' 2 sp := by simp [repackBins]

/-- Settles O25, clause by clause: PK[0], PK[N/4] and Bi = -Ai by the lemmas on `pkEntry`, the general entry by definition, size 2
by `unpackBins_two` and `repackBins_two`. -/
theorem packingTableFacts : Obligations.PackingTableFacts := by
  refine ⟨fun e h1 h12 => ⟨packingTable_length _, ?_, fun h2 => ?_, fun p hp => ?_, fun k hk => packingTable_getElem? hk⟩,
    fun pk pk' x sp => ⟨unpackBins_two .., ?_⟩, by decide +kernel⟩
  · rw [packingTable_getElem? (Nat.div_pos (Nat.le_self_pow (by omega) 2) (by decide)), pkEntry_zero]
  · rw [packingTable_getElem? (by have := Nat.pow_le_pow_right two_pos h2; omega), pkEntry_quarter h2 h12]
  · obtain ⟨k, -, rfl⟩ := List.mem_map.mp hp
    exact pkEntry_bi _ k
  · rw [rinv, rinv, repackBins_two pk pk']

end Sys2Proof.Machine
end

section
/-! PROOFS. A failing command is its error recorded (spec 60_exceptions.md R421), and FFT.CFG (42_streaming_fft.md R243). -/

namespace Sys2Proof.Machine

open Sys2Proof.Statements

theorem fieldUnit_fieldOp_encode (i : Instr) : fieldUnit (encode i) = i.unit ∧ fieldOp (encode i) = i.op := by
  cases i with
  | fftMag norm | fftPwr norm => cases norm <;> exact ⟨rfl, rfl⟩
  | _ => exact ⟨rfl, rfl⟩

theorem ErrorCode.bit_eq_ofNat (c : ErrorCode) : c.bit = BitVec.ofNat 32 (2 ^ c.toNat) := by cases c <;> rfl

/-- The record `raise` writes from a command's word is the one R421 spells out from the command. -/
theorem raise_encode_eq_recorded (s : State) (c : ErrorCode) (i : Instr) : s.raise c (encode i) = recorded s c.toNat i := by
  obtain ⟨hunit, hop⟩ := fieldUnit_fieldOp_encode i
  rw [State.raise, errInfoOf, hunit, hop, c.bit_eq_ofNat, recorded]

theorem exec_eq_recorded {i : Instr} {s : State} {c : ErrorCode} (h : failureOf i s = some c) :
    exec i s = .next (recorded s c.toNat i) := by
  rw [exec_of_failure h, raise_encode_eq_recorded]

/-- Settles O29: the check passes exactly the sizes of `validSize_iff`. -/
theorem fftCfgConfiguresOrRefuses : Obligations.FftCfgConfiguresOrRefuses := by
  refine ⟨decodeWord_encode .fftCfg, fun s => ⟨fun hsize => ?_, fun hsize => ?_⟩⟩
  · exact exec_of_pass (i := .fftCfg) (fftCfgFailure_eq_none.mpr ((validSize_iff _).mpr hsize))
  · rw [← validSize_iff] at hsize
    exact exec_eq_recorded (c := .invalidSize) (if_neg hsize)

end Sys2Proof.Machine
end

section
/-! PROOFS. The complex FFT of a list is the stage equations of R231 to R234 (spec 42_streaming_fft.md). -/

namespace Sys2Proof.Machine

open Sys2Proof.Statements

/-- The recursion on the bottom bit and the sum over the bits reverse alike (R231). -/
theorem bitReversed_eq_bitrev (l i : Nat) : bitReversed l i = bitrev l i := by
  induction l generalizing i with
  | zero => rfl
  | succ l ih =>
    rw [bitrev, ← ih (i / 2), bitReversed, bitReversed, List.range_succ_eq_map, List.map_cons, List.sum_cons, List.map_map,
      Nat.pow_zero, Nat.div_one]
    congr 2
    refine List.map_congr_left fun b _ => ?_
    have hdiv : i / 2 ^ (b + 1) = i / 2 / 2 ^ b := by rw [Nat.div_div_eq_div_mul, Nat.pow_succ']
    have hexp : l + 1 - 1 - (b + 1) = l - 1 - b := by omega
    rw [Function.comp_apply, Nat.succ_eq_add_one, hdiv, hexp]

/-- The array Z of R232 after the first `s` stages of the complex FFT of `2 ^ l` elements. -/
def stagesDone (dir : Dir) (l : Nat) (z : List Cx) : Nat → List Cx
  | 0 => bitReverse l z
  | s + 1 => stage dir (2 ^ (l + 1)) (s + 1) (stagesDone dir l z s)

theorem two_pow_succ_half (l : Nat) : 2 ^ (l + 1) / 2 = 2 ^ l := by
  rw [Nat.pow_succ, Nat.mul_div_cancel _ Nat.two_pos]

theorem cfft_eq_stagesDone (dir : Dir) (l : Nat) (z : List Cx) : cfft dir (2 ^ (l + 1)) z = stagesDone dir l z l := by
  have hfold : ∀ k, (List.range k).foldl (fun z i => stage dir (2 ^ (l + 1)) (i + 1) z) (bitReverse l z) =
      stagesDone dir l z k := by
    intro k
    induction k with
    | zero => rfl
    | succ k ih => rw [List.range_succ, List.foldl_append, ih, List.foldl_cons, List.foldl_nil, stagesDone]
  rw [cfft, two_pow_succ_half, Nat.log2_two_pow]
  exact hfold l

theorem stagesDone_length (dir : Dir) {l s : Nat} {z : List Cx} (hz : z.length = 2 ^ l) (hs : s ≤ l) :
    (stagesDone dir l z s).length = 2 ^ l := by
  induction s with
  | zero => rw [stagesDone, bitReverse_length, hz]
  | succ s ih => exact stage_length dir l (s + 1) _ (Nat.succ_pos s) hs (ih (Nat.le_of_succ_le hs))

/-- `cfft` solves the equations of R231 and R232: Z is the array after each stage. -/
theorem cfft_isComplexFft (dir : Dir) {l : Nat} {zs : List Cx} (hz : zs.length = 2 ^ l) {z : Nat → Cx}
    (hget : ∀ i < 2 ^ l, zs.getD i Cx.zero = z i) :
    IsComplexFft (butterfly dir) l z (fun i => (cfft dir (2 ^ (l + 1)) zs).getD i Cx.zero) := by
  refine ⟨fun s i => (stagesDone dir l zs s).getD i Cx.zero, fun i hi => ?_, fun s g j h1 hs hg hj => ?_, fun i _ => ?_⟩
  · rw [bitReversed_eq_bitrev, ← hget _ (bitrev_lt l i)]
    exact bitReverse_getD l zs hz i hi
  · obtain ⟨d, rfl⟩ : ∃ d, s = d + 1 := ⟨s - 1, by omega⟩
    exact stage_getD dir l (d + 1) g j _ h1 hs (stagesDone_length dir hz (Nat.le_of_succ_le hs)) hg hj
  · rw [cfft_eq_stagesDone]

end Sys2Proof.Machine
end

section
/-! PROOFS. The real transforms around the complex FFT: packing and unpacking, repacking and de-interleaving (spec
42_streaming_fft.md R236 to R241). -/

namespace Sys2Proof.Machine

open Sys2Proof.Statements

/-! ### The forward transform -/

@[simp] theorem packReal_length (n : Nat) (x : List Word) : (packReal n x).length = n / 2 := by simp [packReal]

theorem packReal_getD {n i : Nat} (x : List Word) (hi : i < n / 2) :
    (packReal n x).getD i Cx.zero = ⟨at0 x (2 * i), at0 x (2 * i + 1)⟩ := by
  simp [packReal, List.getD_eq_getElem?_getD, hi]

section
variable (a b : Word) (f : Nat → Word) {m : Nat}

/-- Of a first word, the words of 1..m-1 and a last one: an inner word. -/
theorem at0_inner {k : Nat} (h1 : 1 ≤ k) (hk : k < m) : at0 (a :: ((List.range' 1 (m - 1)).map f ++ [b])) k = f k := by
  obtain ⟨j, rfl⟩ : ∃ j, k = j + 1 := ⟨k - 1, by omega⟩
  have hj : j < m - 1 := by omega
  simp [at0, List.getElem?_append_left, hj, Nat.add_comm]

/-- Of a first word, the words of 1..m-1 and a last one: the last word. -/
theorem at0_last (hm : 1 ≤ m) : at0 (a :: ((List.range' 1 (m - 1)).map f ++ [b])) m = b := by
  obtain ⟨j, rfl⟩ : ∃ j, m = j + 1 := ⟨m - 1, by omega⟩
  simp [at0]

end

theorem unpackBins_last (pk : List Pk) {n : Nat} (z : List Cx) (hn : 1 ≤ n / 2) :
    at0 (unpackBins pk n z).re (n / 2) = fsub (z.getD 0 Cx.zero).re (z.getD 0 Cx.zero).im ∧
    at0 (unpackBins pk n z).im (n / 2) = fZero :=
  ⟨at0_last _ _ _ hn, at0_last _ _ _ hn⟩

theorem unpackBins_inner {pk : List Pk} {n k : Nat} (z : List Cx) (h1 : 1 ≤ k) (hk : k < n / 2) {p : Pk} (hp : pk[k]? = some p) :
    at0 (unpackBins pk n z).re k = unpackRe (z.getD k Cx.zero) (z.getD (n / 2 - k) Cx.zero) p ∧
    at0 (unpackBins pk n z).im k = unpackIm (z.getD k Cx.zero) (z.getD (n / 2 - k) Cx.zero) p := by
  have hpk : pk.getD k Pk.zero = p := by rw [List.getD_eq_getElem?_getD, hp, Option.getD_some]
  rw [← hpk]
  exact ⟨at0_inner _ _ _ h1 hk, at0_inner _ _ _ h1 hk⟩

/-- Settles O30: `z` is the complex FFT of the packed samples, and each bin is read off the unpacked list. -/
theorem dcAndNyquistAndInnerBins : Obligations.DcAndNyquistAndInnerBins := by
  intro pk e x h1 _
  obtain ⟨l, rfl⟩ : ∃ l, e = l + 1 := ⟨e - 1, by omega⟩
  have hhalf := two_pow_succ_half l
  have hm : 1 ≤ 2 ^ (l + 1) / 2 := hhalf ▸ Nat.one_le_two_pow
  have hn : 2 ≤ 2 ^ (l + 1) := by omega
  have hre := rfwd_re_length pk _ x hn
  have him := rfwd_im_length pk _ x hn
  have hfft := cfft_isComplexFft .fwd ((packReal_length _ x).trans hhalf) fun i hi => packReal_getD x (hhalf.symm ▸ hi)
  obtain ⟨hlastRe, hlastIm⟩ := unpackBins_last pk (cfft .fwd (2 ^ (l + 1)) (packReal (2 ^ (l + 1)) x)) hm
  rw [hhalf] at hre him hlastRe hlastIm
  refine ⟨_, hfft, hre, him, rfl, rfl, hlastRe, hlastIm, fun k hk1 hk p hp => ?_⟩
  have hinner := unpackBins_inner (cfft .fwd (2 ^ (l + 1)) (packReal (2 ^ (l + 1)) x)) hk1 (hhalf.symm ▸ hk) hp
  rw [hhalf] at hinner
  exact hinner

/-! ### The inverse transform -/

/-- Repacking reads the imaginary parts of bins 1..M-1 only (R239). -/
theorem repackBins_congr (pk : List Pk) {n : Nat} {a b : Spectrum} (hre : a.re = b.re)
    (him : ∀ k, 1 ≤ k → k < n / 2 → at0 a.im k = at0 b.im k) : repackBins pk n a = repackBins pk n b := by
  simp only [repackBins, hre]
  congr 1
  refine List.map_congr_left fun k hk => ?_
  rw [List.mem_range'_1] at hk
  rw [him k (by omega) (by omega), him (n / 2 - k) (by omega) (by omega)]

/-- Settles O31: the spectrum enters the inverse transform through `repackBins` only. -/
theorem inverseIgnoresEndImaginaries : Obligations.InverseIgnoresEndImaginaries := by
  intro pk n a b hn hre him
  refine ⟨?_, rinv_length pk n a hn⟩
  rw [rinv, rinv, repackBins_congr pk hre him]

end Sys2Proof.Machine
end

section
/-! PROOFS. The inverse transform, stage by stage, and its exact factor (spec 42_streaming_fft.md R239 to R241). -/

namespace Sys2Proof.Machine

open Sys2Proof.Statements

/-- The powers of two that the legal sizes need are exact (00_scope.md R16). -/
theorem powNeg_eq_powerOfHalf : ∀ e ≤ 12, 1 ≤ e → powNeg (e - 1) = powerOfHalf e := by decide +kernel

theorem invM_two_pow {e : Nat} (h1 : 1 ≤ e) (h12 : e ≤ 12) : invM (2 ^ e) = powerOfHalf e := by
  rw [invM, Nat.log2_two_pow, powNeg_eq_powerOfHalf e h12 h1]

theorem twoOverN_eq {n : Nat} (h : validSize n = true) : twoOverN n = powerOfHalf (Nat.log2 n) := by
  obtain ⟨e, h1, h12, rfl⟩ := (validSize_iff n).mp h
  rw [twoOverN, Nat.log2_two_pow, powNeg_eq_powerOfHalf e h12 h1]

theorem repackBins_getD_inner {pk : List Pk} {n k : Nat} (sp : Spectrum) (h1 : 1 ≤ k) (hk : k < n / 2) {p : Pk}
    (hp : pk[k]? = some p) :
    (repackBins pk n sp).getD k Cx.zero =
      repackEntry ⟨at0 sp.re k, at0 sp.im k⟩ ⟨at0 sp.re (n / 2 - k), at0 sp.im (n / 2 - k)⟩ p := by
  obtain ⟨j, rfl⟩ : ∃ j, k = j + 1 := ⟨k - 1, by omega⟩
  have hj : j < n / 2 - 1 := by omega
  simp [repackBins, hj, Nat.add_comm 1 j, hp]

/-- Element `i` of the complex array gives the samples 2i and 2i+1 (R241). -/
theorem deinterleave_at0 (n : Nat) {z : List Cx} {i : Nat} (hi : i < z.length) :
    at0 (deinterleave n z) (2 * i) = fmul (z.getD i Cx.zero).re (invM n) ∧
    at0 (deinterleave n z) (2 * i + 1) = fmul (z.getD i Cx.zero).im (invM n) := by
  induction z generalizing i with
  | nil => exact absurd hi (Nat.not_lt_zero i)
  | cons c z ih =>
    cases i with
    | zero => exact ⟨rfl, rfl⟩
    | succ i => exact ih (Nat.lt_of_succ_lt_succ hi)

/-- Repacking, the inverse complex FFT `w`, de-interleaving (R239 to R241). -/
theorem rinv_stages (pk : List Pk) {l : Nat} (sp : Spectrum) (hl : l + 1 ≤ 12) :
    ∃ w : Nat → Cx,
      IsComplexFft inverseButterfly l (fun i => (repackBins pk (2 ^ (l + 1)) sp).getD i Cx.zero) w ∧
      (rinv pk (2 ^ (l + 1)) sp).length = 2 ^ (l + 1) ∧
      ∀ i < 2 ^ l, at0 (rinv pk (2 ^ (l + 1)) sp) (2 * i) = fmul (w i).re (powerOfHalf (l + 1)) ∧
        at0 (rinv pk (2 ^ (l + 1)) sp) (2 * i + 1) = fmul (w i).im (powerOfHalf (l + 1)) := by
  have hsize : validSize (2 ^ (l + 1)) = true := (validSize_iff _).mpr ⟨l + 1, Nat.le_add_left .., hl, rfl⟩
  have hz : (repackBins pk (2 ^ (l + 1)) sp).length = 2 ^ l := by
    rw [repackBins_length pk _ sp (validSize_bounds hsize).1, two_pow_succ_half]
  refine ⟨_, cfft_isComplexFft .inv hz fun _ _ => rfl, rinv_length pk _ sp hsize, fun i hi => ?_⟩
  rw [← invM_two_pow (Nat.le_add_left ..) hl]
  exact deinterleave_at0 _ (by rwa [cfft_length .inv l _ hz])

end Sys2Proof.Machine
end

section
/-! PROOFS. The transform commands write their results to the RAMs and nothing else (spec 42_streaming_fft.md R244 to R247). -/

namespace Sys2Proof.Machine

open Sys2Proof.Statements

/-! ### Writing a RAM -/

theorem holds_setRam (s : State) (r : Ram) {n : Nat} {ws : List Word} (hlen : ws.length = n) :
    Holds (s.setRam r ws).mem r n (at0 ws) := by
  subst hlen
  intro i hi
  rw [State.setRam_mem, Ram.wordAddr, Memory.word_writeWords_inside s.mem hi, at0, List.getD_eq_getElem _ _ hi]

/-- The windows of the RAMs are disjoint, so what another RAM holds stays. -/
theorem holds_setRam_of_ne {s : State} {r q : Ram} {n : Nat} {f : Nat → Word} {ws : List Word} (h : Holds s.mem r n f)
    (hne : r ≠ q) (hn : n ≤ r.words) (hlen : ws.length ≤ q.words) : Holds (s.setRam q ws).mem r n f := by
  intro i hi
  have hdisjoint := Ram.windows_disjoint r r.mem_all q q.mem_all hne
  rw [← h i hi, State.setRam_mem, Ram.wordAddr]
  exact Memory.word_writeWords_outside s.mem (by omega)

theorem byte_setRam_of_outside (s : State) {r : Ram} {n a : Nat} {ws : List Word} (hlen : ws.length = n)
    (ha : Outside r n a) : Memory.byte (s.setRam r ws).mem a = Memory.byte s.mem a :=
  Memory.byte_writeWords_outside s.mem (hlen.symm ▸ ha)

/-! ### The effects of a configured unit -/

theorem exec_fft_unconfigured {i : Instr} {s : State} (hi : failureOf i = fftUnconfigured) (hc : s.fft.cfg = false) :
    exec i s = .next (recorded s 4 i) := by
  refine exec_eq_recorded (c := .notConfigured) ?_
  rw [hi, fftUnconfigured, hc]
  rfl

section
variable {s : State} (h : s.Inv) (hc : s.fft.cfg = true)
include h hc

theorem fftSpectrum_length :
    s.fftSpectrum.re.length = s.fftSize / 2 + 1 ∧ s.fftSpectrum.im.length = s.fftSize / 2 + 1 := by
  have h2 := (h.fftSize_bounds hc).1
  exact ⟨rfwd_re_length _ _ _ h2, rfwd_im_length _ _ _ h2⟩

/-- RE and IM hold the spectrum, and no byte outside its bins changes (R244). -/
theorem fftForward_holds :
    Holds (fftForward s).mem .re (s.fftSize / 2 + 1) (at0 s.fftSpectrum.re) ∧
    Holds (fftForward s).mem .im (s.fftSize / 2 + 1) (at0 s.fftSpectrum.im) ∧
    ∀ a, Outside .re (s.fftSize / 2 + 1) a → Outside .im (s.fftSize / 2 + 1) a →
      Memory.byte (fftForward s).mem a = Memory.byte s.mem a := by
  obtain ⟨hre, him⟩ := fftSpectrum_length h hc
  obtain ⟨hlre, hlim⟩ := fftSpectrum_length_le h hc
  refine ⟨holds_setRam_of_ne (holds_setRam s .re hre) (by decide) (hre ▸ hlre) hlim, holds_setRam _ .im him, fun a har hai => ?_⟩
  exact (byte_setRam_of_outside _ him hai).trans (byte_setRam_of_outside s hre har)

/-- With one word per bin written to P as well, whatever the word: RE and IM stay, and P holds it (R246, R247). -/
theorem fftForward_setP_holds (f : Word → Word → Word) :
    let t := (fftForward s).setRam .p (s.fftSpectrum.re.zipWith f s.fftSpectrum.im)
    Holds t.mem .re (s.fftSize / 2 + 1) (at0 s.fftSpectrum.re) ∧
    Holds t.mem .im (s.fftSize / 2 + 1) (at0 s.fftSpectrum.im) ∧
    Holds t.mem .p (s.fftSize / 2 + 1) (fun k => f (at0 s.fftSpectrum.re k) (at0 s.fftSpectrum.im k)) ∧
    ∀ a, Outside .re (s.fftSize / 2 + 1) a → Outside .im (s.fftSize / 2 + 1) a → Outside .p (s.fftSize / 2 + 1) a →
      Memory.byte t.mem a = Memory.byte s.mem a := by
  obtain ⟨hre, him⟩ := fftSpectrum_length h hc
  obtain ⟨hlre, hlim⟩ := fftSpectrum_length_le h hc
  obtain ⟨hholdsRe, hholdsIm, hframe⟩ := fftForward_holds h hc
  have hp : (s.fftSpectrum.re.zipWith f s.fftSpectrum.im).length = s.fftSize / 2 + 1 := by
    rw [List.length_zipWith, hre, him, Nat.min_self]
  have hlp : (s.fftSpectrum.re.zipWith f s.fftSpectrum.im).length ≤ Ram.p.words := hp.trans_le (hre ▸ hlre)
  refine ⟨holds_setRam_of_ne hholdsRe (by decide) (hre ▸ hlre) hlp, holds_setRam_of_ne hholdsIm (by decide) (him ▸ hlim) hlp,
    fun k hk => ?_, fun a har hai hap => (byte_setRam_of_outside _ hp hap).trans (hframe a har hai)⟩
  rw [holds_setRam (fftForward s) .p hp k hk]
  simp only [at0]
  rw [List.getD_eq_getElem _ _ (hp.symm ▸ hk), List.getD_eq_getElem _ _ (hre.symm ▸ hk), List.getD_eq_getElem _ _ (him.symm ▸ hk),
    List.getElem_zipWith]

end

/-! ### The obligations -/

/-- Settles O32, by `fftForward_holds`. -/
theorem fftFwdWritesSpectrum : Obligations.FftFwdWritesSpectrum := by
  refine ⟨decodeWord_encode .fftFwd, fun s hc => exec_fft_unconfigured rfl hc, fun s h hc => ?_⟩
  exact ⟨_, exec_of_pass (i := .fftFwd) (fftUnconfigured_eq_none.mpr hc), rfl, fftForward_holds h hc⟩

/-- Settles O33: the transform by `rinv_stages`; the command writes its N samples to X. -/
theorem fftInvWritesSamples : Obligations.FftInvWritesSamples := by
  refine ⟨decodeWord_encode .fftInv, fun s hc => exec_fft_unconfigured rfl hc, fun pk e sp h1 h12 => ?_, fun s h hc => ?_⟩
  · obtain ⟨l, rfl⟩ : ∃ l, e = l + 1 := ⟨e - 1, by omega⟩
    have hhalf := two_pow_succ_half l
    obtain ⟨w, hfft, hlen, hsamples⟩ := rinv_stages pk sp h12
    refine ⟨_, w, ?_, fun k hk1 hk p hp => ?_, hfft, hlen, hsamples⟩
    · rw [Nat.add_sub_cancel, ← hhalf]
      rfl
    · have hinner := repackBins_getD_inner sp hk1 (hhalf.symm ▸ hk) hp
      rw [hhalf] at hinner
      exact hinner
  · have hlen : s.fftSamples.length = s.fftSize := rinv_length _ _ _ (h.fft.size hc)
    exact ⟨_, exec_of_pass (i := .fftInv) (fftUnconfigured_eq_none.mpr hc), rfl, holds_setRam s .x hlen,
      fun a ha => byte_setRam_of_outside s hlen ha⟩

/-- Settles O34, by `fftForward_setP_holds` for the magnitude of a bin. -/
theorem fftMagWritesMagnitudes : Obligations.FftMagWritesMagnitudes := by
  refine ⟨decodeWord_encode (.fftMag false), decodeWord_encode (.fftMag true), fun s norm hc => exec_fft_unconfigured rfl hc,
    fun s norm h hc => ?_⟩
  intro n
  rw [← twoOverN_eq (h.fft.size hc)]
  exact ⟨_, exec_of_pass (i := .fftMag norm) (fftUnconfigured_eq_none.mpr hc), rfl,
    fftForward_setP_holds h hc fun re im => normalised norm s.fftSize (binMagnitude re im)⟩

/-- Settles O35, by `fftForward_setP_holds` for the power of a bin. -/
theorem fftPwrWritesPowers : Obligations.FftPwrWritesPowers := by
  refine ⟨decodeWord_encode (.fftPwr false), decodeWord_encode (.fftPwr true), fun s norm hc => exec_fft_unconfigured rfl hc,
    fun s norm h hc => ?_⟩
  intro n
  rw [← twoOverN_eq (h.fft.size hc)]
  exact ⟨_, exec_of_pass (i := .fftPwr norm) (fftUnconfigured_eq_none.mpr hc), rfl,
    fftForward_setP_holds h hc fun re im => normalised norm s.fftSize (binPower re im)⟩

end Sys2Proof.Machine
end

section
/-! PROOFS. The commands of both convolution engines, and their CFG (spec 43_block_convolution.md R280, R281, R286, R289). -/

namespace Sys2Proof.Machine

open Sys2Proof.Statements

/-! ### The commands of a strategy's engine -/

section
variable {g : Strategy} {s : State}

theorem failureOf_cfgOf : failureOf (cfgOf g) s = convCfgFailure s := by cases g <;> rfl

theorem exec_cfgOf_of_pass (h : convCfgFailure s = none) : exec (cfgOf g) s = .next (convConfigure g s) := by
  rw [exec_of_pass (failureOf_cfgOf.trans h)]
  cases g <;> rfl

theorem exec_procOf_of_configured (h : (s.engine g).cfg = true) : exec (procOf g) s = .next (convProcess g s) := by
  cases g with
  | overlapAdd => exact exec_of_pass (i := .olaProc) (convUnconfigured_eq_none.mpr h)
  | overlapSave => exact exec_of_pass (i := .olsProc) (convUnconfigured_eq_none.mpr h)

theorem failureOf_applyOf : failureOf (applyOf g) s = convApplyFailure g s := by cases g <;> rfl

theorem exec_applyOf_of_pass (h : convApplyFailure g s = none) : exec (applyOf g) s = .next (convApply g s) := by
  rw [exec_of_pass (failureOf_applyOf.trans h)]
  cases g <;> rfl

end

/-- Settles O42: of APPLY's two checks the second fails. -/
theorem applyRefusesLongSignal : Obligations.ApplyRefusesLongSignal := by
  intro g s hc hl
  refine exec_eq_recorded (c := .invalidLength) (failureOf_applyOf.trans ?_)
  rw [convApplyFailure, if_pos hc]
  exact if_pos hl

/-! ### The sizes -/

/-- The rounded size is the least power of two at or above `max nreq 2` (R281). -/
theorem roundedSize_eq_of_least {nreq n : Nat} (hle : max nreq 2 ≤ 2 ^ n) (hleast : ∀ m, max nreq 2 ≤ 2 ^ m → n ≤ m) :
    roundedSize nreq = 2 ^ n := by
  obtain _ | n := n
  · omega
  have hlt : 2 ^ n < max nreq 2 := by
    by_contra hge
    exact absurd (hleast n (by omega)) (by omega)
  have hlog : Nat.log2 (max nreq 2 - 1) = n := (Nat.log2_eq_iff (by omega)).mpr ⟨by omega, by omega⟩
  rw [roundedSize, hlog]

/-- Past N_MAX the size is refused before any check of K (R281). -/
theorem convCfgFailure_of_size {s : State} (h : Config.nMax < roundedSize s.arg0Nat) : convCfgFailure s = some .invalidSize :=
  if_pos h

theorem convCfgFailure_of_kernel {s : State} (h : roundedSize s.arg0Nat ≤ Config.nMax)
    (hk : s.arg1Nat = 0 ∨ roundedSize s.arg0Nat < s.arg1Nat) : convCfgFailure s = some .invalidKernelSize := by
  simp only [convCfgFailure]
  rw [if_neg (Nat.not_lt.mpr h), if_pos hk]

theorem two_pow_le_nMax_iff {n : Nat} : 2 ^ n ≤ Config.nMax ↔ n ≤ 12 := Nat.pow_le_pow_iff_right (by decide)

/-- A word holds every size from 0 to N_MAX. -/
theorem toNat_ofNat_of_le_nMax {n : Nat} (h : n ≤ Config.nMax) : (BitVec.ofNat 32 n).toNat = n := by
  have hmax : Config.nMax = 4096 := rfl
  rw [BitVec.toNat_ofNat]
  omega

theorem convCfgFailure_of_legal {s : State} {n : Nat} (hsize : roundedSize s.arg0.toNat = 2 ^ n) (hn : n ≤ 12)
    (h1 : 1 ≤ s.arg1.toNat) (h2 : s.arg1.toNat ≤ 2 ^ n) : convCfgFailure s = none :=
  convCfgFailure_eq_none.mpr ⟨hsize ▸ two_pow_le_nMax_iff.mpr hn, h1, hsize ▸ h2⟩

/-- Settles O36: the checks in their order on the size `roundedSize_eq_of_least` gives; H = N + 1 - K with K ≤ N is never 0. -/
theorem convCfgChecksSizes : Obligations.ConvCfgChecksSizes := by
  intro g s n hle hleast
  have hsize := roundedSize_eq_of_least hle hleast
  refine ⟨fun hn => ?_, fun hn hk => ?_, fun hn h1 h2 => ?_⟩
  · refine exec_eq_recorded (c := .invalidSize) (failureOf_cfgOf.trans (convCfgFailure_of_size ?_))
    rw [hsize, ← Nat.not_le, two_pow_le_nMax_iff]
    omega
  · have hmax := two_pow_le_nMax_iff.mpr hn
    exact exec_eq_recorded (c := .invalidKernelSize)
      (failureOf_cfgOf.trans (convCfgFailure_of_kernel (hsize ▸ hmax) (hsize ▸ hk)))
  · have hmax := two_pow_le_nMax_iff.mpr hn
    have hword := toNat_ofNat_of_le_nMax hmax
    have hhop : hopSize (2 ^ n) s.arg1.toNat = 2 ^ n + 1 - s.arg1.toNat := rfl
    have hh : (BitVec.ofNat 32 (hopSize (2 ^ n) s.arg1.toNat)).toNat = 2 ^ n + 1 - s.arg1.toNat :=
      toNat_ofNat_of_le_nMax (by omega)
    refine ⟨_, exec_cfgOf_of_pass (convCfgFailure_of_legal hsize hn h1 h2), ?_⟩
    simp only [convConfigure, hsize, State.setResult_result, State.engine_setResult, State.engine_setEngine,
      State.setResult_err, State.setEngine_err, ConvEngine.configured, ConvEngine.restart, hword, hh, true_and, and_true]
    omega

/-! ### The engine CFG builds -/

/-- A zero-padded array, element by element. -/
theorem map_range_append_zeros (f : Nat → Word) (k m : Nat) :
    (List.range k).map f ++ List.replicate m fZero = (List.range (k + m)).map (fun i => if i < k then f i else 0#32) := by
  rw [List.range_add, List.map_append, List.map_map]
  congr 1
  · exact List.map_congr_left fun i hi => (if_pos (List.mem_range.mp hi)).symm
  · refine (List.eq_replicate_iff.mpr ⟨by simp, fun b hb => ?_⟩).symm
    obtain ⟨i, -, rfl⟩ := List.mem_map.mp hb
    exact if_neg (Nat.not_lt.mpr (Nat.le_add_right k i))

/-- Settles O37: the effect of CFG, its kernel padded by `map_range_append_zeros`. -/
theorem convCfgBuildsEngine : Obligations.ConvCfgBuildsEngine := by
  intro g s n hn hle hleast h1 h2 k h pk kernel sp e
  have hsize := roundedSize_eq_of_least hle hleast
  have hk : BitVec.ofNat 32 k = s.arg1 := (BitVec.ofNat_toNat ..).trans (BitVec.setWidth_eq _)
  have hmax := two_pow_le_nMax_iff.mpr hn
  have hhop : hopSize (2 ^ n) k = h := Nat.sub_add_comm h2
  have hh : (BitVec.ofNat 32 h).toNat = h := toNat_ofNat_of_le_nMax (by omega)
  have hkernel : s.ramWords g.kram k ++ List.replicate (2 ^ n - (s.ramWords g.kram k).length) fZero = kernel := by
    rw [State.ramWords, Memory.words_length, Memory.words, map_range_append_zeros, Nat.add_sub_cancel' h2]
    rfl
  have hbuilt : ConvEngine.configured (2 ^ n) k (s.ramWords g.kram k) = e := by
    simp only [ConvEngine.configured, kernelSpectrum, ConvEngine.restart, hkernel, hhop, hh, hk]
    rfl
  have hexec : exec (cfgOf g) s = .next ((s.setEngine e g).setResult (BitVec.ofNat 32 (2 ^ n))) := by
    rw [exec_cfgOf_of_pass (convCfgFailure_of_legal hsize hn h1 h2), convConfigure, hsize, hbuilt]
  constructor <;>
  · rintro rfl
    exact hexec

end Sys2Proof.Machine
end

section
/-! PROOFS. The block steps, a hop of streaming calls, and PROC (spec 43_block_convolution.md R282 to R285,
44_overlap_add_engine.md R310, 45_overlap_save_engine.md R340). -/

namespace Sys2Proof.Machine

open Sys2Proof.Statements

/-! ### Arrays by their elements -/

theorem at0_eq_getElem {a : List Word} {i : Nat} (h : i < a.length) : at0 a i = a[i] := List.getD_eq_getElem _ _ h

theorem at0_map_range (f : Nat → Word) {n i : Nat} (h : i < n) : at0 ((List.range n).map f) i = f i := by
  rw [at0_eq_getElem (by simpa using h), List.getElem_map, List.getElem_range]

theorem drop_eq_map_at0 {a : List Word} {m n : Nat} (h : a.length = m + n) :
    a.drop m = (List.range n).map (fun i => at0 a (m + i)) := by
  refine List.ext_getElem (by simp [h]) fun i h1 h2 => ?_
  rw [List.length_drop] at h1
  rw [List.getElem_drop, List.getElem_map, List.getElem_range, at0_eq_getElem]

/-! ### One block -/

namespace ConvEngine

/-- `CONVOLVE_E` multiplies bin by bin (R282). -/
theorem convolve_eq_circular (e : ConvEngine) (f : List Word) : e.convolve f = circular e f := by
  simp only [convolve, circular, binProducts, List.map_map]
  rfl

/-- BLOCK_OLA on a full hop (R310, R290). -/
theorem blockAdd_eq {e : ConvEngine} (hi : e.inb.length = e.h.toNat) :
    let t := e.k.toNat - 1
    let r := circular e (e.inb ++ List.replicate t 0#32)
    e.blockAdd = { e with
      outq := (List.range e.h.toNat).map (overlapAt e.tail r t)
      tail := (List.range t).map (fun j => overlapAt e.tail r t (e.h.toNat + j)) } := by
  simp only [blockAdd, olaStep, convolve_eq_circular, ← hi, List.take_length]
  rfl

/-- BLOCK_OLS on a full hop (R340). -/
theorem blockSave_eq {e : ConvEngine} (h : e.Sized) (hi : e.inb.length = e.h.toNat) (ht : e.tail.length = e.k.toNat - 1) :
    let t := e.k.toNat - 1
    let f := e.tail ++ e.inb
    e.blockSave = { e with
      outq := (List.range e.h.toNat).map (fun i => at0 (circular e f) (t + i))
      tail := (List.range t).map (fun j => at0 f (e.h.toNat + j)) } := by
  intro t f
  have hb := h.bounds
  have hf : e.tail.take t ++ e.inb.take e.h.toNat = f := by rw [List.take_of_length_le ht.le, List.take_of_length_le hi.le]
  have hr : (e.convolve f).length = t + e.h.toNat := by rw [convolve_length h]; omega
  have hlen : f.length = e.h.toNat + t := by rw [List.length_append, hi, ht, Nat.add_comm]
  simp only [blockSave]
  rw [hf, drop_eq_map_at0 hr, drop_eq_map_at0 hlen, convolve_eq_circular]

/-! ### The calls before a hop is full -/

/-- The engine with samples buffered and both counters advanced by their number (R283). -/
def buffered (e : ConvEngine) (xs : List Word) : ConvEngine :=
  { e with
    inb := e.inb.take e.incnt.toNat ++ xs ++ e.inb.drop (e.incnt.toNat + xs.length)
    incnt := BitVec.ofNat 32 (e.incnt.toNat + xs.length)
    outptr := BitVec.ofNat 32 (e.outptr.toNat + xs.length) }

@[simp] theorem buffered_nil (e : ConvEngine) : e.buffered [] = e := by simp [buffered]

/-- The next output of a hop not yet full is in OUTQ. -/
theorem outptr_lt {e : ConvEngine} (hs : e.Streaming) (hw : e.incnt.toNat + 1 < e.h.toNat) :
    e.outptr.toNat < e.outq.length := by
  have hout := hs.outptrFollows
  rw [hs.outqLength]
  omega

theorem buffered_counters {e : ConvEngine} {xs : List Word} (h : e.Sized) (hs : e.Streaming)
    (hw : e.incnt.toNat + xs.length ≤ e.h.toNat) :
    (e.buffered xs).incnt.toNat = e.incnt.toNat + xs.length ∧
    (e.buffered xs).outptr.toNat = e.outptr.toNat + xs.length := by
  have hb := h.bounds
  have hout := hs.outptrFollows
  simp only [buffered, BitVec.toNat_ofNat]
  omega

theorem buffered_buffered {e : ConvEngine} {xs : List Word} (ys : List Word) (h : e.Sized) (hs : e.Streaming)
    (hw : e.incnt.toNat + xs.length ≤ e.h.toNat) :
    (e.buffered xs).buffered ys = e.buffered (xs ++ ys) := by
  obtain ⟨hwp, hrp⟩ := buffered_counters h hs hw
  have hfront : (e.inb.take e.incnt.toNat ++ xs).length = e.incnt.toNat + xs.length := by
    have hlen := hs.inbLength
    rw [List.length_append, List.length_take]
    omega
  have hinb : (e.buffered xs).inb = e.inb.take e.incnt.toNat ++ xs ++ e.inb.drop (e.incnt.toNat + xs.length) := rfl
  rw [buffered, hwp, hrp, hinb, List.take_left' hfront, List.drop_append, List.drop_eq_nil_of_le (by omega), hfront]
  simp [buffered, Nat.add_assoc]

/-- A call that leaves the hop short (R283). -/
theorem call_of_short (g : Strategy) {e : ConvEngine} (x : Word) (hs : e.Streaming) (hw : e.incnt.toNat + 1 < e.h.toNat) :
    e.call g x = (e.buffered [x], at0 e.outq e.outptr.toNat) := by
  have hset : e.inb.set e.incnt.toNat x = e.inb.take e.incnt.toNat ++ [x] ++ e.inb.drop (e.incnt.toNat + 1) := by
    rw [List.set_eq_take_append_cons_drop, if_pos (hs.inbLength ▸ hs.incntBelow), List.append_cons]
  rw [call_of_partial g e x hw.ne, buffer, hset]
  rfl

/-- Calls that leave the hop short only buffer their samples and return the next words of OUTQ (R283). -/
theorem calls_of_short (g : Strategy) {e : ConvEngine} {xs : List Word} (h : e.Sized) (hs : e.Streaming)
    (hw : e.incnt.toNat + xs.length < e.h.toNat) :
    e.calls g xs = (e.buffered xs, (e.outq.drop e.outptr.toNat).take xs.length) := by
  induction xs generalizing e with
  | nil => simp [calls]
  | cons x xs ih =>
    rw [List.length_cons] at hw
    have hcall := call_of_short g x hs (by omega)
    have hone : e.incnt.toNat + [x].length ≤ e.h.toNat := by rw [List.length_singleton]; omega
    obtain ⟨hwp, hrp⟩ := buffered_counters h hs hone
    rw [List.length_singleton] at hwp hrp
    have hfst : (e.call g x).1 = e.buffered [x] := congrArg Prod.fst hcall
    have hsized : (e.buffered [x]).Sized := hfst ▸ (e.call_sameConfig g x).sized h
    have hstream : (e.buffered [x]).Streaming := hfst ▸ e.call_streaming g x h hs
    have hshort : (e.buffered [x]).incnt.toNat + xs.length < (e.buffered [x]).h.toNat := by
      rw [hwp, Nat.add_right_comm]
      exact hw
    have hlt := outptr_lt hs (by omega)
    rw [calls, hcall, ih hsized hstream hshort, hrp, buffered_buffered xs h hs hone, at0_eq_getElem hlt,
      List.length_cons, ← List.cons_getElem_drop_succ (h := hlt), List.take_succ_cons]
    rfl

end ConvEngine

/-- Settles O44: the calls stay inside the first hop, where OUTQ is the silence RESET set. -/
theorem silenceBeforeFirstBlock : Obligations.SilenceBeforeFirstBlock := by
  intro g e xs h hxs
  have hb := h.bounds
  have hw : e.restart.incnt.toNat + xs.length < e.restart.h.toNat := by
    show 0 + xs.length < e.h.toNat
    omega
  rw [ConvEngine.calls_of_short g (e.restart_sameConfig.sized h) (ConvEngine.restart_streaming h) hw]
  show ((List.replicate e.h.toNat fZero).drop 0).take xs.length = _
  rw [List.drop_zero, List.take_replicate, Nat.min_eq_left (by omega)]
  rfl

/-- Settles O45: all samples but the last by `calls_of_short`; the last call fills the hop. -/
theorem oneBlockPerHop : Obligations.OneBlockPerHop := by
  intro g e xs h hs h0 hlen b
  have hb := h.bounds
  obtain ⟨ys, x, rfl⟩ : ∃ ys x, xs = ys ++ [x] :=
    ⟨_, _, (List.dropLast_append_getLast (List.ne_nil_of_length_pos (by omega))).symm⟩
  rw [List.length_append, List.length_singleton] at hlen
  have hwp : e.incnt.toNat = 0 := by rw [h0]; rfl
  have hfull : (e.buffered ys).incnt.toNat = ys.length := by
    rw [(ConvEngine.buffered_counters h hs (by omega)).1, hwp, Nat.zero_add]
  have hinb : (e.buffered ys).inb.set ys.length x = ys ++ [x] := by
    have hlast : (e.inb.drop ys.length).length = 1 := by rw [List.length_drop, hs.inbLength]; omega
    obtain ⟨y, hy⟩ := List.length_eq_one_iff.mp hlast
    simp [ConvEngine.buffered, hwp, hy]
  have hcall := ConvEngine.call_of_full g (e.buffered ys) x (by rw [hfull]; exact hlen)
  have hblock : (((e.buffered ys).buffer x).block g).rewind = b.rewind := by
    rw [ConvEngine.buffer, hfull, hinb]
    cases g <;> rfl
  rw [ConvEngine.calls_append, ConvEngine.calls_of_short g h hs (by omega)]
  simp only [ConvEngine.calls, hcall, hblock]
  refine ⟨rfl, ?_⟩
  rw [← hlen, Nat.add_sub_cancel]
  rfl

/-! ### PROC -/

/-- Settles O38: the one call of PROC leaves the hop short. -/
theorem procBuffersSample : Obligations.ProcBuffersSample := by
  intro g s hinv hc e wp rp hw e'
  have hs := (hinv.engine g).streaming hc
  have hexec : exec (procOf g) s = .next ((s.setEngine e' g).setResult (at0 e.outq rp)) := by
    rw [exec_procOf_of_configured hc, convProcess, ConvEngine.call_of_partial g _ _ hw.ne]
    rfl
  refine ⟨ConvEngine.outptr_lt hs hw, ?_, ?_⟩ <;>
  · rintro rfl
    exact hexec

/-- The call of PROC fills the hop, so the block runs on the hop with the sample in its last place (R283). -/
theorem convProcess_of_full {g : Strategy} {s : State} (hw : (s.engine g).incnt.toNat + 1 = (s.engine g).h.toNat) :
    convProcess g s =
      let b := ((s.engine g).buffer s.arg0).block g
      (s.setEngine { b with incnt := 0#32, outptr := 1#32 } g).setResult (at0 b.outq 0) := by
  rw [convProcess, ConvEngine.call_of_full g _ _ hw]
  rfl

/-- Settles O39, by `blockAdd_eq` for the filled hop. -/
theorem olaProcRunsBlock : Obligations.OlaProcRunsBlock := by
  intro s hinv hc hw e h t inb r sum outq
  obtain ⟨-, -, -, -, hpos, -⟩ := (hinv.ola.sized hc).bounds
  have hin := (hinv.ola.streaming hc).inbLength
  have hblock := ConvEngine.blockAdd_eq (e := e.buffer s.arg0) (by simpa [ConvEngine.buffer] using hin)
  have hfirst : at0 outq 0 = sum 0 := at0_map_range sum hpos
  refine (exec_procOf_of_configured (g := .overlapAdd) hc).trans ?_
  rw [convProcess_of_full (g := .overlapAdd) hw, ConvEngine.block]
  simp only [State.engine_overlapAdd]
  rw [hblock, ← hfirst]
  rfl

/-- Settles O40, by `blockSave_eq` for the filled hop. -/
theorem olsProcRunsBlock : Obligations.OlsProcRunsBlock := by
  intro s hinv hc hw e h t inb f r
  have hsized := hinv.ols.sized hc
  have hs := hinv.ols.streaming hc
  obtain ⟨-, -, -, -, hpos, -⟩ := hsized.bounds
  have hblock := ConvEngine.blockSave_eq ((e.buffer_sameConfig s.arg0).sized hsized)
    (by simpa [ConvEngine.buffer] using hs.inbLength) hs.tailLength
  have hfirst : at0 ((List.range h).map (fun i => at0 r (t + i))) 0 = at0 r t := at0_map_range _ hpos
  refine (exec_procOf_of_configured (g := .overlapSave) hc).trans ?_
  rw [convProcess_of_full (g := .overlapSave) hw, ConvEngine.block]
  simp only [State.engine_overlapSave]
  rw [hblock, ← hfirst]
  rfl

end Sys2Proof.Machine
end

section
/-! PROOFS. APPLY (spec 43_block_convolution.md R287). -/

namespace Sys2Proof.Machine

open Sys2Proof.Statements

theorem at0_drop (a : List Word) (m i : Nat) : at0 (a.drop m) i = at0 a (i + m) := by
  rw [at0, at0, List.getD_eq_getElem?_getD, List.getElem?_drop, List.getD_eq_getElem?_getD, Nat.add_comm]

/-- Settles O41: the samples APPLY feeds are padded by `map_range_append_zeros`, and its outputs start at call H - 1. -/
theorem applyWritesFilteredSignal : Obligations.ApplyWritesFilteredSignal := by
  intro g s hinv hc hl e l h k fed r
  have hk : 1 ≤ k := ((hinv.engine g).sized hc).kernel.1
  have hfed : applyInputs (s.ramWords g.sigin l) h k = fed := by
    rw [applyInputs, State.ramWords, Memory.words, map_range_append_zeros, ← Nat.add_assoc]
    rfl
  have hpair : e.apply g (s.ramWords g.sigin l) = (r.1, r.2.drop (h - 1)) := by rw [ConvEngine.apply, hfed]
  have hlen : (r.2.drop (h - 1)).length = l + k - 1 := by
    rw [List.length_drop, ConvEngine.calls_length, List.length_map, List.length_range]
    omega
  refine ⟨_, exec_applyOf_of_pass (convApplyFailure_eq_none.mpr ⟨hc, hl⟩), ?_, ?_, ?_⟩
  · rw [convApply, hpair]
    cases g <;> rfl
  · intro n hn
    rw [convApply, hpair]
    exact (holds_setRam _ g.sigout hlen n hn).trans (at0_drop ..)
  · intro a ha
    rw [convApply, hpair]
    exact (byte_setRam_of_outside _ hlen ha).trans (by rw [State.setEngine_mem])

end Sys2Proof.Machine
end

section
/-! PROOFS. RST of both convolution engines (spec 43_block_convolution.md R286; 44_overlap_add_engine.md R314;
45_overlap_save_engine.md R344). -/

namespace Sys2Proof.Machine

open Sys2Proof.Statements

section
variable {g : Strategy} {s : State}

theorem failureOf_rstOf : failureOf (rstOf g) s = convUnconfigured g s := by cases g <;> rfl

theorem exec_rstOf_of_configured (h : (s.engine g).cfg = true) : exec (rstOf g) s = .next (convRestart g s) := by
  rw [exec_of_pass (failureOf_rstOf.trans (convUnconfigured_eq_none.mpr h))]
  cases g <;> rfl

theorem exec_rstOf_of_unconfigured (h : (s.engine g).cfg = false) : exec (rstOf g) s = .next (recorded s 4 (rstOf g)) := by
  refine exec_eq_recorded (c := .notConfigured) (failureOf_rstOf.trans ?_)
  rw [convUnconfigured, h]
  rfl

end

/-- Settles O43: RST has the one check that the engine is configured, and its effect is `ConvEngine.restart` of that engine. -/
theorem convRstClearsStream : Obligations.ConvRstClearsStream := by
  refine ⟨decodeWord_encode .olaRst, decodeWord_encode .olsRst, fun _ _ => exec_rstOf_of_unconfigured, ?_⟩
  intro g s hc
  refine ⟨?_, ?_⟩ <;>
  · rintro rfl
    exact exec_rstOf_of_configured hc

end Sys2Proof.Machine
end

section
/-! PROOFS. With a single tap the two strategies are one (spec 45_overlap_save_engine.md R345). -/

namespace Sys2Proof.Machine

open Sys2Proof.Statements

namespace ConvEngine

section
variable {e : ConvEngine} (h : e.Sized) (hk : e.k = 1#32)
include h hk

/-- With T = 0 both block steps convolve the bare hop, add nothing to the result and carry nothing. -/
theorem blockAdd_eq_blockSave_of_single_tap (hi : e.inb.length = e.h.toNat) (ht : e.tail.length = e.k.toNat - 1) :
    e.blockAdd = e.blockSave := by
  have hT : e.k.toNat - 1 = 0 := by rw [hk]; rfl
  have htail : e.tail = [] := List.eq_nil_of_length_eq_zero (ht.trans hT)
  rw [blockAdd_eq hi, blockSave_eq h hi ht]
  simp [hT, htail, overlapAt]

/-- The strategies differ in the block step only, which a call runs when its sample fills the hop (R283). -/
theorem call_strategies_agree_of_single_tap (hs : e.Streaming) (x : Word) : e.call .overlapAdd x = e.call .overlapSave x := by
  by_cases hw : e.incnt.toNat + 1 = e.h.toNat
  · have hblock : (e.buffer x).blockAdd = (e.buffer x).blockSave :=
      blockAdd_eq_blockSave_of_single_tap ((e.buffer_sameConfig x).sized h) hk
        (by simpa [buffer] using hs.inbLength) hs.tailLength
    rw [call_of_full _ _ _ hw, call_of_full _ _ _ hw, block, block, hblock]
  · rw [call_of_partial _ _ _ hw, call_of_partial _ _ _ hw]

end

end ConvEngine

/-- Settles O46, by induction over the calls: each agrees, and keeps the sizes and the stream state in their ranges. -/
theorem singleTapStrategiesAgree : Obligations.SingleTapStrategiesAgree := by
  intro e xs h hs hk
  induction xs generalizing e with
  | nil => rfl
  | cons x xs ih =>
    have hc := e.call_sameConfig .overlapSave x
    have hrest := ih (e.call .overlapSave x).1 (hc.sized h) (e.call_streaming .overlapSave x h hs) (hc.k.trans hk)
    rw [ConvEngine.calls, ConvEngine.calls, ConvEngine.call_strategies_agree_of_single_tap h hk hs x, hrest]

end Sys2Proof.Machine
end

section
/-! PROOFS. PV.CFG and PV.RST: the checks in their order and the vocoder that results (spec 46_phase_vocoder_resynth.md R374 to R378,
R388). -/

namespace Sys2Proof.Machine

/-! ### The checks of PV.CFG -/

/-- Of the words with the sign bit set only -0.0 is a zero (R18). -/
theorem eq_negZero_iff {x : Word} (h : fSign x = true) : x = 0x80000000#32 ↔ isZero x = true := by
  refine ⟨fun hx => hx ▸ rfl, fun h0 => ?_⟩
  rw [← packWord_fSign_fMag x, h, isZero_iff.mp h0]
  rfl

theorem validShift_iff (x : Word) :
    validShift x = true ↔ isFinite x = true ∧ (fSign x = false ∨ x = 0x80000000#32) := by
  cases hs : fSign x with
  | false => simp [validShift, hs]
  | true => simp [validShift, hs, eq_negZero_iff hs]

theorem validEnergy_iff (x : Word) : validEnergy x = true ↔ isFinite x = true ∧ flt 0#32 x = true := by
  simp [validEnergy, fZero]

section
variable {s : State}

theorem pvCfgFailure_of_size (hn : ¬ validSize s.arg0Nat = true) : pvCfgFailure s = some .invalidSize := by
  simp [pvCfgFailure, hn]

variable (hn : validSize s.arg0Nat = true)
include hn

theorem pvCfgFailure_of_hop (hh : ¬ (1 ≤ s.arg1Nat ∧ s.arg1Nat < s.arg0Nat)) : pvCfgFailure s = some .invalidHopSize := by
  have hbad : s.arg1Nat < 1 ∨ s.arg0Nat ≤ s.arg1Nat := by omega
  simp only [pvCfgFailure, hn, hbad, Bool.not_true, Bool.false_eq_true, if_true, if_false]

variable (hh : 1 ≤ s.arg1Nat ∧ s.arg1Nat < s.arg0Nat)
include hh

/-- After the size and the hop, the shift and the energy have one code (R374). -/
theorem pvCfgFailure_of_param
    (hp : ¬ (validShift s.arg2 = true ∧ validEnergy (windowEnergy (s.ramWords .pvWin s.arg0Nat)) = true)) :
    pvCfgFailure s = some .invalidParam := by
  have hok : ¬ (s.arg1Nat < 1 ∨ s.arg0Nat ≤ s.arg1Nat) := by omega
  by_cases hs : validShift s.arg2 = true
  · have he := mt (And.intro hs) hp
    simp only [pvCfgFailure, hn, hok, hs, he, Bool.not_true, Bool.not_false, Bool.false_eq_true, if_true, if_false]
  · simp only [pvCfgFailure, hn, hok, hs, Bool.not_true, Bool.not_false, Bool.false_eq_true, if_true, if_false]

end

/-- Settles O47: the checks of `pvCfgFailure` are the conditions of R374, in their order. -/
theorem pvCfgRefusesInOrder : Obligations.PvCfgRefusesInOrder := by
  intro s n h wsq sizeOk hopOk shiftOk energyOk
  have hsize : sizeOk ↔ validSize n = true := (validSize_iff n).symm
  have hshift : shiftOk ↔ validShift s.arg2 = true := (validShift_iff s.arg2).symm
  have henergy : energyOk ↔ validEnergy wsq = true := (validEnergy_iff wsq).symm
  rw [hsize, hshift, henergy]
  exact ⟨fun hn => exec_eq_recorded (c := .invalidSize) (pvCfgFailure_of_size hn),
    fun hn hh => exec_eq_recorded (c := .invalidHopSize) (pvCfgFailure_of_hop hn hh),
    fun hn hh hs => exec_eq_recorded (c := .invalidParam) (pvCfgFailure_of_param hn hh fun hp => hs hp.1),
    fun hn hh _ he => exec_eq_recorded (c := .invalidParam) (pvCfgFailure_of_param hn hh fun hp => he hp.2)⟩

/-- Settles O48: the four checks pass, and the effect is `PvUnit.configured` on the operand words. -/
theorem pvCfgBuildsVocoder : Obligations.PvCfgBuildsVocoder := by
  intro s n h win wsq hsize h1 h2 hfin hsign hwfin hwpos
  have hpass : pvCfgFailure s = none :=
    pvCfgFailure_eq_none.mpr ⟨(validSize_iff n).mpr hsize, ⟨h1, h2⟩, (validShift_iff s.arg2).mpr ⟨hfin, hsign⟩,
      (validEnergy_iff wsq).mpr ⟨hwfin, hwpos⟩⟩
  have hword (v : Word) : BitVec.ofNat 32 v.toNat = v := (BitVec.ofNat_toNat ..).trans (BitVec.setWidth_eq _)
  rw [exec_of_pass (i := .pvCfg) hpass, effectOf, pvConfigure, PvUnit.configured, PvUnit.restart, hword, hword]
  rfl

/-! ### PV.RST -/

/-- Settles O51: PV.RST has the one check that the vocoder is configured, and its effect is `PvUnit.restart`. -/
theorem pvRstClearsStream : Obligations.PvRstClearsStream := by
  refine ⟨decodeWord_encode .pvRst, fun s hc => ?_, fun s hc => exec_of_pass (i := .pvRst) (pvUnconfigured_eq_none.mpr hc)⟩
  refine exec_eq_recorded (c := .notConfigured) ?_
  rw [failureOf, pvUnconfigured, hc]
  rfl

end Sys2Proof.Machine
end

section
/-! PROOFS. PV.PROC, with and without a frame (spec 46_phase_vocoder_resynth.md R379, R381 to R387). -/

namespace Sys2Proof.Machine

/-- The sample leaves the hop short, so no frame runs (R385). -/
theorem pvProcess_of_short {s : State} (hw : s.pv.incnt.toNat + 1 ≠ s.pv.h.toNat) :
    pvProcess s =
      let v := s.pv.feed s.arg0
      (s.setPv { v with outptr := BitVec.ofNat 32 (v.outptr.toNat + 1) }).setResult
        (v.mix (at0 v.outq v.outptr.toNat) (at0 v.dl 0)) := by
  rw [pvProcess, PvUnit.call, PvUnit.push, if_neg hw]

/-- The sample fills the hop, so the frame runs on the delay line with the sample in it and both counters start again (R385). -/
theorem pvProcess_of_full {s : State} (hw : s.pv.incnt.toNat + 1 = s.pv.h.toNat) :
    pvProcess s =
      let v := (s.pv.feed s.arg0).frame
      (s.setPv { v with incnt := 0#32, outptr := 1#32 }).setResult (v.mix (at0 v.outq 0) (at0 v.dl 0)) := by
  rw [pvProcess, PvUnit.call, PvUnit.push, if_pos hw]
  rfl

/-- Settles O49: the call is the delay line's shift, the next word of OUTQ and the mix, with no frame. -/
theorem pvProcBetweenFrames : Obligations.PvProcBetweenFrames := by
  intro s _ hc hw u dl
  rw [exec_of_pass (i := .pvProc) (pvUnconfigured_eq_none.mpr hc), effectOf, pvProcess_of_short hw.ne]
  rfl

/-- Settles O50: the frame is its six stages in the order R379 to R384 give; PREV takes the phases of the bins analysed, and RESULT
mixes the first of the H outputs, since H is not 0. -/
theorem pvProcRunsFrame : Obligations.PvProcRunsFrame := by
  intro s hinv hc hw u n h nb dl sp phase om bins d psi y sv sum
  obtain ⟨-, -, hpos, -⟩ := (hinv.pv.sized hc).bounds
  have hbins : (u.feed s.arg0).analyse = bins := rfl
  have hprev : bins.map BinAnalysis.phase = (List.range nb).map phase := List.map_map
  have hfirst : at0 ((List.range h).map sum) 0 = sum 0 := at0_map_range sum hpos
  rw [exec_of_pass (i := .pvProc) (pvUnconfigured_eq_none.mpr hc), effectOf, pvProcess_of_full hw, PvUnit.frame, hbins,
    hprev, ← hfirst]
  rfl

end Sys2Proof.Machine
end

section
/-! PROOFS. Exact results: integers as words, products with 1.0 and with a zero (spec 00_scope.md R15, R16). -/

namespace Sys2Proof.Machine

theorem roundMag_eq_of_exact {m den : Nat} (hm : m < infMag) (hden : 0 < den) : roundMag (magUnits m * den) den = m := by
  obtain ⟨m', hm', hround⟩ := roundMag_eq_min_nearestEven (magUnits m * den) hden
  rw [hround, hm'.eq_of_exact hden rfl]
  exact min_eq_right hm.le

/-- Up to 2^24 an integer's word is exact (R15). -/
theorem i2f_exact {n : Nat} (hn : n ≤ 2 ^ 24) :
    isFinite (i2f n) = true ∧ fSign (i2f n) = false ∧ fUnits (i2f n) = n * 2 ^ 149 := by
  obtain ⟨m, hm, hunits⟩ := exists_magUnits_eq hn 149
  have hfin : m < infMag := hm.trans_lt (by decide)
  have hmag : m < 2 ^ 31 := hfin.trans (by decide)
  have hword : i2f n = packWord false m := by rw [i2f, ← hunits, roundMag_magUnits hfin]
  rw [hword, isFinite_iff, packWord_mag _ _ hmag, packWord_sign _ _ hmag, fUnits_packWord _ hmag]
  exact ⟨hfin, rfl, hunits⟩

theorem fValue_of_nonneg {x : Word} (h : fSign x = false) : fValue x = fUnits x := by simp [fValue, h]

theorem fValue_i2f {n : Nat} (hn : n ≤ 2 ^ 24) : fValue (i2f n) = n * 2 ^ 149 := by
  obtain ⟨-, hsign, hunits⟩ := i2f_exact hn
  rw [fValue_of_nonneg hsign, hunits]
  push_cast
  rfl

/-- Multiplying by 1.0 changes no finite word (R389). -/
theorem fmul_one {x : Word} (h : isFinite x = true) : fmul x 0x3F800000#32 = x := by
  have hunits : fUnits 0x3F800000#32 = 2 ^ 149 := by decide +kernel
  have hsign : fSign 0x3F800000#32 = false := by decide
  have hfin : isFinite 0x3F800000#32 = true := by decide
  rw [fmul_finite h hfin, hunits, hsign, Bool.bne_false, fUnits_eq_magUnits,
    roundMag_eq_of_exact (isFinite_iff.mp h) (Nat.two_pow_pos _), packWord_fSign_fMag]

theorem roundMag_zero {den : Nat} (hden : 0 < den) : roundMag 0 den = 0 := by
  have h := roundMag_eq_of_exact (m := 0) (by decide) hden
  rwa [magUnits_zero, Nat.zero_mul] at h

theorem fUnits_fmul_zero {x z : Word} (h : isFinite x = true) (hz : isZero z = true) : fUnits (fmul x z) = 0 := by
  rw [fmul_finite h (isFinite_of_isZero hz), (fUnits_eq_zero_iff z).mpr hz, Nat.mul_zero,
    fUnits_packWord _ (roundMag_lt _ _), roundMag_zero (Nat.two_pow_pos _), magUnits_zero]

theorem fValue_fmul_zero {x z : Word} (h : isFinite x = true) (hz : isZero z = true) : fValue (fmul x z) = 0 := by
  simp [fValue, fUnits_fmul_zero h hz]

theorem isNaN_fmul_of_isFinite {a b : Word} (ha : isFinite a = true) (hb : isFinite b = true) : isNaN (fmul a b) = false := by
  rw [fmul_finite ha hb]
  exact isNaN_packWord_roundMag ..

end Sys2Proof.Machine
end

section
/-! PROOFS. The spectral stretch: what reaches a destination, and where the destinations lie (spec 46_phase_vocoder_resynth.md R380,
R389). -/

namespace Sys2Proof.Machine

/-! ### The sources of a destination -/

section
variable (dest : Nat → Option Nat) (shift : Word) (bin : Nat → BinAnalysis) (js : List Nat) (acc : List Word × List Word) {d : Nat}

/-- Sources placed one after the other: the magnitudes of those sent to `d` add up there, in order (R380). -/
theorem foldl_placeBin_mag_at (hd : d < acc.1.length) :
    at0 (js.foldl (fun acc j => placeBin (dest j) shift acc (bin j)) acc).1 d =
      (js.filter (fun j => dest j == some d)).foldl (fun m j => fadd m (bin j).mag) (at0 acc.1 d) := by
  induction js generalizing acc with
  | nil => rfl
  | cons j js ih =>
    rw [List.foldl_cons, ih _ (by rwa [placeBin_mag_length]), placeBin_mag_at _ _ _ _ _ hd, List.filter_cons]
    by_cases hj : dest j = some d <;> simp [hj]

/-- Sources placed one after the other: the last of those sent to `d` sets the frequency there (R380). -/
theorem foldl_placeBin_frq_at (hd : d < acc.2.length) :
    at0 (js.foldl (fun acc j => placeBin (dest j) shift acc (bin j)) acc).2 d =
      ((js.filter (fun j => dest j == some d)).getLast?.map (fun j => fmul (bin j).frq shift)).getD (at0 acc.2 d) := by
  induction js generalizing acc with
  | nil => rfl
  | cons j js ih =>
    rw [List.foldl_cons, ih _ (by rwa [placeBin_frq_length]), placeBin_frq_at _ _ _ _ _ hd, List.filter_cons]
    by_cases hj : dest j = some d
    · simp only [hj, beq_self_eq_true, if_true, List.getLast?_cons, Option.map_some, Option.getD_some]
      cases (js.filter (fun j => dest j == some d)).getLast? <;> rfl
    · simp [hj]

end

/-- A bin of zeros, read past a list's end. -/
def BinAnalysis.zero : BinAnalysis := ⟨0#32, 0#32, 0#32⟩

/-- The stretch places the bins in increasing order into cleared arrays (R380). -/
theorem stretch_eq_foldl_placeBin (nb : Nat) (shift : Word) (bins : List BinAnalysis) :
    stretch nb shift bins =
      (List.range bins.length).foldl
        (fun acc j => placeBin (destination nb shift j) shift acc (bins.getD j BinAnalysis.zero))
        (List.replicate nb fZero, List.replicate nb fZero) := by
  have hzip : (List.range bins.length).zip bins = (List.range bins.length).map (fun j => (j, bins.getD j BinAnalysis.zero)) := by
    refine List.ext_getElem (by simp) fun j h1 h2 => ?_
    rw [List.length_map, List.length_range] at h2
    rw [List.getElem_zip, List.getElem_range, List.getElem_map, List.getElem_range, List.getD_eq_getElem _ _ h2]
  rw [stretch, hzip, List.foldl_map]
  rfl

/-- Settles O52: `stretch` places the bins one by one (`stretch_eq_foldl_placeBin`), and at a destination only its own sources count
(`foldl_placeBin_mag_at`, `foldl_placeBin_frq_at`). -/
theorem stretchSumsAndLastSourceWins : Obligations.StretchSumsAndLastSourceWins := by
  intro nb shift bins d hlen hd sources mag frq
  have hclear : at0 (List.replicate nb fZero) d = 0#32 := by rw [at0_eq_getElem (by simpa), List.getElem_replicate]; rfl
  have hmag (j : Nat) : (bins.getD j BinAnalysis.zero).mag = mag j := (List.getD_map bins BinAnalysis.zero BinAnalysis.mag).symm
  have hfrq (j : Nat) : (bins.getD j BinAnalysis.zero).frq = frq j := (List.getD_map bins BinAnalysis.zero BinAnalysis.frq).symm
  rw [stretch_eq_foldl_placeBin, hlen, foldl_placeBin_mag_at _ _ _ _ _ (by simpa), foldl_placeBin_frq_at _ _ _ _ _ (by simpa)]
  simp only [hclear, hmag, hfrq]
  exact ⟨rfl, rfl⟩

/-! ### Where the destinations lie -/

/-- A product that is no NaN has a destination exactly where it lies below NB (R380). -/
theorem destination_eq_some_iff {nb : Nat} (hnb : nb ≤ 2 ^ 24) {shift : Word} {j : Nat}
    (hp : isNaN (fmul (i2f j) shift) = false) (d : Nat) :
    destination nb shift j = some d ↔
      fValue (fmul (i2f j) shift) < nb * 2 ^ 149 ∧ fUnits (fmul (i2f j) shift) / 2 ^ 149 = d := by
  have hfin := (i2f_exact hnb).1
  rw [← fValue_i2f hnb, ← fKey_lt_fKey_iff, ← flt_iff hp (isNaN_of_isFinite hfin)]
  simp only [destination]
  split <;> simp [*, ftruncU]

/-- A valid shift gives a product that is not below zero (R374, R380). -/
theorem fValue_fmul_validShift {j : Nat} (hj : j ≤ 2 ^ 24) {shift : Word} (hs : validShift shift = true) :
    fValue (fmul (i2f j) shift) = fUnits (fmul (i2f j) shift) := by
  obtain ⟨hfin, hsign, -⟩ := i2f_exact hj
  obtain ⟨hsfin, hnonneg⟩ : isFinite shift = true ∧ (fSign shift = false ∨ isZero shift = true) := by
    simpa [validShift] using hs
  rcases hnonneg with hpos | hzero
  · refine fValue_of_nonneg ?_
    rw [fmul_finite hfin hsfin, packWord_sign _ _ (roundMag_lt _ _), hsign, hpos]
    rfl
  · rw [fValue_fmul_zero hfin hzero, fUnits_fmul_zero hfin hzero]
    rfl

/-- Settles O53, by `destination_eq_some_iff`: the products with 1.0 and with a zero are exact, and a product not below zero that is
less than NB has its integer part below NB. -/
theorem stretchDestinations : Obligations.StretchDestinations := by
  intro n hn nb
  have hnb : nb ≤ 2 ^ 24 := by have := validSize_bounds hn; omega
  have hnan {j : Nat} (hj : j < nb) {shift : Word} (hs : isFinite shift = true) : isNaN (fmul (i2f j) shift) = false :=
    isNaN_fmul_of_isFinite (i2f_exact (by omega)).1 hs
  have hzero {j : Nat} (hj : j < nb) {z : Word} (hz : isZero z = true) : destination nb z j = some 0 := by
    have hfin := (i2f_exact (n := j) (by omega)).1
    rw [destination_eq_some_iff hnb (hnan hj (isFinite_of_isZero hz)), fValue_fmul_zero hfin hz, fUnits_fmul_zero hfin hz]
    omega
  refine ⟨fun _ _ => rfl, fun shift j d hs hj hd => ?_, fun j hj => ?_, fun j hj => ⟨hzero hj (by decide), hzero hj (by decide)⟩⟩
  · have hsfin : isFinite shift = true := by
      rw [validShift, Bool.and_eq_true] at hs
      exact hs.1
    rw [destination_eq_some_iff hnb (hnan hj hsfin), fValue_fmul_validShift (by omega) hs] at hd
    omega
  · have hexact := i2f_exact (n := j) (by omega)
    rw [destination_eq_some_iff hnb (hnan hj (by decide)), fmul_one hexact.1, fValue_i2f (by omega), hexact.2.2]
    omega

end Sys2Proof.Machine
end

section
/-! PROOFS. The open functions F_atan2, F_cos and F_sin, and WRAP (spec 46_phase_vocoder_resynth.md R371 to R373). -/

namespace Sys2Proof.Machine

theorem isNaN_of_within {b x : Word} (hb : isFinite b = true) (h : within b x = true) : isNaN x = false := by
  rw [isFinite_iff] at hb
  rw [within, decide_eq_true_eq] at h
  exact isNaN_eq_false_iff.mpr (h.trans hb.le)

/-- Of a free value the model takes what lies in the bound and +0.0 for the rest, so the result lies in the bound. -/
theorem within_of_clipped (b x : Word) : within b (if within b x then x else fZero) = true := by
  split
  · assumption
  · exact decide_eq_true (Nat.zero_le _)

theorem fAtan2_of_isNaN {y x : Word} (h : isNaN y = true ∨ isNaN x = true) : fAtan2 y x = fNaN := by
  rcases h with h | h <;> simp [fAtan2, h]

theorem within_fAtan2 {y x : Word} (h : ¬ (isNaN y = true ∨ isNaN x = true)) : within fPi (fAtan2 y x) = true := by
  rw [← Bool.or_eq_true] at h
  rw [fAtan2, if_neg h]
  exact within_of_clipped ..

theorem fCos_fSin_of_not_isFinite {a : Word} (h : isFinite a = false) : fCos a = fNaN ∧ fSin a = fNaN := by
  simp [fCos, fSin, h]

theorem within_fCos {a : Word} (h : isFinite a = true) : within fOne (fCos a) = true := by
  simp only [fCos, h, Bool.not_true, Bool.false_eq_true, if_false]
  split
  · rfl
  · exact within_of_clipped ..

theorem within_fSin {a : Word} (h : isFinite a = true) : within fOne (fSin a) = true := by
  simp only [fSin, h, Bool.not_true, Bool.false_eq_true, if_false]
  split
  · rename_i h0
    exact decide_eq_true ((isZero_iff.mp h0).le.trans (Nat.zero_le _))
  · exact within_of_clipped ..

/-- Settles O54: each function is NaN, fixed or clipped to its bound. -/
theorem openFunctionsKeepTheirConstraints : Obligations.OpenFunctionsKeepTheirConstraints := by
  refine ⟨fun y x => ?_, fun a => ⟨fun h => ?_, fun h => ?_⟩, rfl, rfl, rfl, rfl⟩
  · by_cases hnan : isNaN y = true ∨ isNaN x = true
    · have hr : isNaN (fAtan2 y x) = true := by rw [fAtan2_of_isNaN hnan]; rfl
      exact ⟨iff_of_true hr hnan, fun h => by rw [hr] at h; cases h⟩
    · have hin := within_fAtan2 hnan
      refine ⟨iff_of_false ?_ hnan, fun _ => of_decide_eq_true hin⟩
      rw [isNaN_of_within (by decide) hin]
      exact Bool.false_ne_true
  · exact ⟨of_decide_eq_true (within_fCos h), of_decide_eq_true (within_fSin h)⟩
  · obtain ⟨hcos, hsin⟩ := fCos_fSin_of_not_isFinite h
    rw [hcos, hsin]
    exact ⟨rfl, rfl⟩

/-! ### WRAP -/

theorem wrapPhase_of_isNaN {d : Word} (h : isNaN d = true) : wrapPhase d = fNaN := (fsub_nanExactly d _).canonical (.inl h)

/-- The turns counted of an infinity are infinite, and an infinity less its like is NaN (R373). -/
theorem wrapPhase_of_isInf {d : Word} (h : isInf d = true) : wrapPhase d = fNaN := by
  rw [← packWord_fSign_fMag d, isInf_iff.mp h]
  cases fSign d <;> decide +kernel

/-- Settles O55: the worked values are evaluated; a word that is not finite is an infinity or a NaN. -/
theorem wrapWorkedValues : Obligations.WrapWorkedValues := by
  refine ⟨fun _ => rfl, ?_, ?_, ?_, ?_, ?_, ?_, ?_, ?_, ?_, fun d h => ?_⟩
  case refine_10 =>
    rcases Nat.eq_or_lt_of_le (Nat.le_of_not_lt (of_decide_eq_false h)) with hinf | hnan
    · exact wrapPhase_of_isInf (isInf_iff.mpr hinf.symm)
    · exact wrapPhase_of_isNaN (decide_eq_true hnan)
  all_goals decide +kernel

end Sys2Proof.Machine
end

section
/-! PROOFS. The errors a command can raise: one at most, from R420's list for that command, and then nothing else happens (spec
60_exceptions.md R420 to R424). -/

namespace Sys2Proof.Machine

open Sys2Proof.Statements

/-- The errors of each command, as R420's table and R424 list them. -/
def errorsOf : Instr → List ErrorCode
  | .nop | .srst => []
  | .fftCfg => [.invalidSize]
  | .fftFwd | .fftInv | .fftMag _ | .fftPwr _ => [.notConfigured]
  | .olaCfg | .olsCfg => [.invalidSize, .invalidKernelSize, .invalidHopSize]
  | .olaProc | .olaRst | .olsProc | .olsRst => [.notConfigured]
  | .olaApply | .olsApply => [.notConfigured, .invalidLength]
  | .pvCfg => [.invalidSize, .invalidHopSize, .invalidParam]
  | .pvProc | .pvRst => [.notConfigured]

/-! ### The codes of the checks -/

section
variable {s : State} {c : ErrorCode}

/-- A single check has a single code. -/
theorem code_of_check {b : Bool} {e : ErrorCode} (h : (if b then none else some e) = some c) : c ∈ [e] := by
  cases b <;> cases h
  exact List.mem_singleton_self _

theorem convCfgFailure_code (h : convCfgFailure s = some c) :
    c ∈ [ErrorCode.invalidSize, .invalidKernelSize, .invalidHopSize] := by
  simp only [convCfgFailure] at h
  repeat' split at h
  all_goals cases h <;> decide

theorem convApplyFailure_code {g : Strategy} (h : convApplyFailure g s = some c) :
    c ∈ [ErrorCode.notConfigured, .invalidLength] := by
  unfold convApplyFailure at h
  repeat' split at h
  all_goals cases h <;> decide

theorem pvCfgFailure_code (h : pvCfgFailure s = some c) : c ∈ [ErrorCode.invalidSize, .invalidHopSize, .invalidParam] := by
  simp only [pvCfgFailure] at h
  repeat' split at h
  all_goals cases h <;> decide

/-- A failing command raises an error of its own list. -/
theorem mem_errorsOf {i : Instr} (h : failureOf i s = some c) : c ∈ errorsOf i := by
  cases i with
  | nop | srst => cases h
  | fftCfg | fftFwd | fftInv | fftMag norm | fftPwr norm => exact code_of_check h
  | olaCfg | olsCfg => exact convCfgFailure_code h
  | olaProc | olaRst | olsProc | olsRst => exact code_of_check h
  | olaApply | olsApply => exact convApplyFailure_code h
  | pvCfg => exact pvCfgFailure_code h
  | pvProc | pvRst => exact code_of_check h

end

/-- BusError is no command's error (R426). -/
theorem busError_notMem_errorsOf (i : Instr) : ErrorCode.busError ∉ errorsOf i := by cases i <;> simp [errorsOf]

theorem ErrorCode.toNat_pos (c : ErrorCode) : 1 ≤ c.toNat := by cases c <;> decide

theorem ErrorCode.toNat_le_seven {c : ErrorCode} (h : c ≠ .busError) : c.toNat ≤ 7 := by
  cases c with
  | busError => exact absurd rfl h
  | _ => decide

/-- Settles O20: a failing check records its one code and nothing else (`raise_encode_eq_recorded`); an effect but SRST's leaves
the record (`effectOf_sameRecord`). -/
theorem oneErrorAndNoPartialEffect : Obligations.OneErrorAndNoPartialEffect := by
  intro s t i he
  rcases exec_cases he with ⟨c, hc, rfl⟩ | ⟨-, rfl⟩
  · have hbus : c ≠ .busError := fun h => busError_notMem_errorsOf i (h ▸ mem_errorsOf hc)
    exact .inl ⟨c.toNat, c.toNat_pos, ErrorCode.toNat_le_seven hbus, raise_encode_eq_recorded s c i⟩
  · by_cases hs : i = .srst
    · exact .inr (.inl hs)
    · exact .inr (.inr (effectOf_sameRecord hs s))

/-! ### NotConfigured -/

/-- A command of an unconfigured unit fails its first check (R424). -/
theorem failureOf_of_unconfigured {i : Instr} {s : State} (h : needsConfig s i = some false) :
    failureOf i s = some .notConfigured := by
  cases i with
  | nop | srst | fftCfg | olaCfg | olsCfg | pvCfg => cases h
  | _ => exact if_neg (Bool.eq_false_iff.mp (Option.some.inj h))

/-- The commands that configure a unit. -/
def cfgCommands : List Instr := [.fftCfg, .olaCfg, .olsCfg, .pvCfg]

theorem notConfigured_notMem_errorsOf : ∀ i ∈ cfgCommands, ErrorCode.notConfigured ∉ errorsOf i := by decide

theorem ErrorCode.bit_getLsbD_four {c : ErrorCode} (h : c ≠ .notConfigured) : c.bit.getLsbD 4 = false := by
  cases c with
  | notConfigured => exact absurd rfl h
  | _ => rfl

/-- Settles O19: the check of the CFG bit is the first of each command that has it, and no CFG command has it. -/
theorem unconfiguredUnitRefuses : Obligations.UnconfiguredUnitRefuses := by
  refine ⟨fun s i h => exec_eq_recorded (failureOf_of_unconfigured h), fun s t i hi he => ?_⟩
  rcases exec_cases he with ⟨c, hc, rfl⟩ | ⟨-, rfl⟩
  · have hne : c ≠ .notConfigured := fun h => notConfigured_notMem_errorsOf i hi (h ▸ mem_errorsOf hc)
    rw [State.raise_err, BitVec.getLsbD_or, ErrorCode.bit_getLsbD_four hne, Bool.or_false]
  · have hs : i ≠ .srst := fun h => absurd (h ▸ hi) (by decide)
    obtain ⟨herr, -, -, -⟩ := effectOf_sameRecord hs s
    rw [herr]

end Sys2Proof.Machine
end

section
/-! PROOFS. A word written to CMD that the opcode map does not list (spec 30_encoding.md R147, 60_exceptions.md R425). -/

namespace Sys2Proof.Machine

open Sys2Proof.Statements

theorem execute_of_illegal {s : State} {v : Word} {why : IllegalWord} (h : decodeWord v = .illegal why) :
    s.execute v = .next (s.raise .illegalCommand v) := by
  unfold State.execute
  rw [h]

/-- Settles O4: the decoder rejects an unlisted word, whose execution only raises IllegalCommand. -/
theorem undefinedWordRaisesIllegalCommand : Obligations.UndefinedWordRaisesIllegalCommand := by
  refine ⟨not_mem_definedWords_iff, fun s v rest hport hv => ?_⟩
  obtain ⟨why, hwhy⟩ := (exists_decodeWord_eq_illegal_iff v).mpr hv
  exact (step_cmdWrite hport).trans (execute_of_illegal hwhy)

end Sys2Proof.Machine
end

section
/-! PROOFS. The interrupt output (spec 60_exceptions.md R430). -/

namespace Sys2Proof.Machine

theorem ne_zero_iff_exists_getLsbD {w : Nat} {x : BitVec w} : x ≠ 0#w ↔ ∃ i, x.getLsbD i = true := by
  refine ⟨fun h => ?_, fun ⟨i, hi⟩ h => ?_⟩
  · by_contra hnone
    exact h (BitVec.eq_of_getLsbD_eq fun i _ => by simpa using not_exists.mp hnone i)
  · rw [h, BitVec.getLsbD_zero] at hi
    cases hi

/-- Settles O16: the masked word has a bit set, and the mask's bits are 1 to 8 (`errMask_getLsbD`). -/
theorem interruptLineIsOrOfEnabledErrors : Obligations.InterruptLineIsOrOfEnabledErrors := by
  refine fun s => ⟨?_, gstatus_getLsbD s 9⟩
  have hbit (i : Nat) : (s.err &&& s.irqEn &&& errMask).getLsbD i = true ↔
      1 ≤ i ∧ i ≤ 8 ∧ s.err.getLsbD i = true ∧ s.irqEn.getLsbD i = true := by
    simp only [BitVec.getLsbD_and, errMask_getLsbD, Bool.and_eq_true, decide_eq_true_eq]
    tauto
  rw [State.irq, bne_iff_ne, ne_zero_iff_exists_getLsbD]
  exact exists_congr hbit

end Sys2Proof.Machine
end

section
/-! PROOFS. Every event is answered by a next state, so every run goes on, and from power-on it keeps the invariant (spec
60_exceptions.md R427, R429). -/

namespace Sys2Proof.Machine

theorem execute_answers (s : State) (v : Word) : ∃ t, s.execute v = .next t := by
  unfold State.execute
  split
  · exact exec_answers _ s
  · exact ⟨_, rfl⟩

theorem hostWrite_answers (s : State) (a : Target) (v : Word) : ∃ t, s.hostWrite a v = .next t := by
  cases a with
  | reg r =>
    by_cases hr : r = .cmd
    · subst hr
      exact execute_answers _ v
    · exact ⟨_, hostWrite_reg hr s v⟩
  | ram r i => exact ⟨_, rfl⟩

theorem hostAccess_answers (s : State) (a : HostAccess) : ∃ t, s.hostAccess a = .next t := by
  cases ha : a.target? with
  | none => exact ⟨_, hostAccess_of_none ha⟩
  | some x =>
    cases hk : a.kind with
    | read => exact ⟨_, hostAccess_read ha hk⟩
    | write v =>
      rw [hostAccess_write ha hk]
      exact hostWrite_answers s x v

theorem event_answers (s : State) (e : HostEvent) : ∃ t, s.event e = .next t := by
  cases e with
  | access a => exact hostAccess_answers s a
  | hardReset => exact ⟨_, rfl⟩

/-- Settles O7: an idle step holds the state, and every event is answered (`event_answers`). -/
theorem everyStepGoesOn : Obligations.EveryStepGoesOn := by
  intro s
  cases hport : s.port with
  | nil => exact ⟨s, step_of_idle hport⟩
  | cons e rest =>
    rw [step_of_event hport]
    exact event_answers _ e

theorem State.Inv.reaches {s t : State} (h : s.Inv) (hr : Reaches s t) : t.Inv := by
  induction hr with
  | refl => exact h
  | step _ hstep ih => exact stepKeepsInvariant _ _ ih hstep

/-- The invariant is enough for a safe run. -/
theorem State.Inv.safeFrom {s : State} (h : s.Inv) : SafeFrom s := fun t hr => ⟨everyStepGoesOn t, h.reaches hr⟩

/-- Settles O58: power-on satisfies the invariant with any events queued (`State.powerOn_inv`), and the invariant is enough. -/
theorem everyHostSequenceIsSafe : Obligations.EveryHostSequenceIsSafe := fun _ events hwf hin =>
  ((State.powerOn_inv hwf hin).takeEvent events).safeFrom

end Sys2Proof.Machine
end
